-- ==== Sys2Proof/Word.lean ====
section
/-! DEFINITION. The two word types of the machine (spec 00_scope.md R8, R9: registers are 16 bits wide
and have 8-bit halves). Everything a test could show wrong (sign extension, byte order) stands in
Decode.lean and under Machine/. -/

namespace Sys2Proof

/-- A byte: a memory cell, a byte register, a byte of an instruction. -/
abbrev Byte := BitVec 8

/-- A 16-bit word: a register, an offset, a segment value. -/
abbrev Word := BitVec 16

end Sys2Proof
end

