-- ==== Sys2Proof/Syntax.lean ====
section
/-! DEFINITION. The instructions as syntax: one constructor of `Instr` for each mnemonic of
spec/opcode_table.json, and inside it one form for each row (operand templates of 30_encoding.md R107).
Prefix rows and refused rows are constructors too. What the decoder ignores (an unused `reg` field,
the way a displacement is encoded) is kept, so that no bit of an encoding is lost. -/

namespace Sys2Proof

/-- The eight 16-bit registers, in encoding order (10_state.md R32). -/
inductive Reg16 where
  | ax | cx | dx | bx | sp | bp | si | di
  deriving DecidableEq, Repr

/-- The eight byte registers, in encoding order (R32): four low halves, then four high halves. -/
inductive Reg8 where
  | al | cl | dl | bl | ah | ch | dh | bh
  deriving DecidableEq, Repr

/-- The four segment registers, in encoding order (R32). -/
inductive SReg where
  | es | cs | ss | ds
  deriving DecidableEq, Repr

/-- The base-register combinations of a memory operand, in `rm` order (30_encoding.md R109). -/
inductive Base where
  | bxsi | bxdi | bpsi | bpdi | si | di | bp | bx
  deriving DecidableEq, Repr

/-- A memory operand as ModRM encodes it (R109): `mod = 0`, `mod = 1`, `mod = 2`, or the direct
address (`mod = 0`, `rm = 6`). `base0 .bp` has no encoding and is not well formed. -/
inductive MemRef where
  | base0 (b : Base)
  | base8 (b : Base) (d : Byte)
  | base16 (b : Base) (d : Word)
  | direct (a : Word)
  deriving DecidableEq, Repr

/-- The `EB` template: a byte register or a memory byte (R107). -/
inductive Rm8 where
  | reg (r : Reg8)
  | mem (m : MemRef)
  deriving DecidableEq, Repr

/-- The `EW` template: a word register or a memory word (R107). -/
inductive Rm16 where
  | reg (r : Reg16)
  | mem (m : MemRef)
  deriving DecidableEq, Repr

/-- The ten encodings of a two-operand ALU instruction (41_alu.md R226; opcode `0x82` is an exact
second encoding of `0x80`, 30_encoding.md R121). -/
inductive AluForm where
  | rmR8 (rm : Rm8) (r : Reg8)          -- base+0: EB, GB
  | rmR16 (rm : Rm16) (r : Reg16)       -- base+1: EW, GW
  | rRm8 (r : Reg8) (rm : Rm8)          -- base+2: GB, EB
  | rRm16 (r : Reg16) (rm : Rm16)       -- base+3: GW, EW
  | alImm (v : Byte)                    -- base+4: AL, IB
  | axImm (v : Word)                    -- base+5: AX, IW
  | rmImm8 (rm : Rm8) (v : Byte)        -- 80 /n
  | rmImm16 (rm : Rm16) (v : Word)      -- 81 /n
  | rmImm8Alias (rm : Rm8) (v : Byte)   -- 82 /n
  | rmImmSx (rm : Rm16) (v : Byte)      -- 83 /n, the byte sign-extended
  deriving DecidableEq, Repr

/-- The encodings of TEST (41_alu.md R238). -/
inductive TestForm where
  | rmR8 (rm : Rm8) (r : Reg8)          -- 84
  | rmR16 (rm : Rm16) (r : Reg16)       -- 85
  | alImm (v : Byte)                    -- A8
  | axImm (v : Word)                    -- A9
  | rmImm8 (rm : Rm8) (v : Byte)        -- F6 /0
  | rmImm16 (rm : Rm16) (v : Word)      -- F7 /0
  deriving DecidableEq, Repr

/-- The encodings of INC and DEC (R240, R241). -/
inductive IncForm where
  | reg (r : Reg16)                     -- 40+r, 48+r
  | rm8 (rm : Rm8)                      -- FE /0, /1
  | rm16 (rm : Rm16)                    -- FF /0, /1
  deriving DecidableEq, Repr

/-- The encodings of the one-operand group G3 (NOT NEG MUL IMUL DIV IDIV, 30_encoding.md R123, R124). -/
inductive UnForm where
  | rm8 (rm : Rm8)                      -- F6 /n
  | rm16 (rm : Rm16)                    -- F7 /n
  deriving DecidableEq, Repr

/-- The count operand of a shift or rotate (42_shift_rotate.md R280). -/
inductive Count where
  | one                                 -- ARG_1
  | cl                                  -- CL
  | imm (n : Byte)                      -- IB
  deriving DecidableEq, Repr

/-- The encodings of the shift and rotate group G2 (R280). -/
inductive ShiftForm where
  | rm8 (rm : Rm8) (n : Count)          -- D0, D2, C0
  | rm16 (rm : Rm16) (n : Count)        -- D1, D3, C1
  deriving DecidableEq, Repr

/-- The encodings of PUSH (40_data_transfer.md R180 to R182). -/
inductive PushForm where
  | sreg (r : SReg)                     -- 06 0E 16 1E
  | reg (r : Reg16)                     -- 50+r
  | rm (rm : Rm16)                      -- FF /6
  deriving DecidableEq, Repr

/-- The encodings of POP (R183 to R185). `ext` is the ignored `reg` field of `8F`; there is no
`POP CS`. -/
inductive PopForm where
  | sreg (r : SReg)                     -- 07 17 1F
  | reg (r : Reg16)                     -- 58+r
  | rm (ext : BitVec 3) (rm : Rm16)     -- 8F
  deriving DecidableEq, Repr

/-- The encodings of MOV (R170 to R175). `hi` is the ignored bit `reg[2]` of `8C` and `8E`, `ext` the
ignored `reg` field of `C6` and `C7` (30_encoding.md R108, R116). -/
inductive MovForm where
  | rmR8 (rm : Rm8) (r : Reg8)                        -- 88
  | rmR16 (rm : Rm16) (r : Reg16)                     -- 89
  | rRm8 (r : Reg8) (rm : Rm8)                        -- 8A
  | rRm16 (r : Reg16) (rm : Rm16)                     -- 8B
  | rmSreg (hi : BitVec 1) (rm : Rm16) (r : SReg)     -- 8C
  | sregRm (hi : BitVec 1) (r : SReg) (rm : Rm16)     -- 8E
  | alMoffs (a : Word)                                -- A0
  | axMoffs (a : Word)                                -- A1
  | moffsAl (a : Word)                                -- A2
  | moffsAx (a : Word)                                -- A3
  | r8Imm (r : Reg8) (v : Byte)                       -- B0+r
  | r16Imm (r : Reg16) (v : Word)                     -- B8+r
  | rmImm8 (ext : BitVec 3) (rm : Rm8) (v : Byte)     -- C6
  | rmImm16 (ext : BitVec 3) (rm : Rm16) (v : Word)   -- C7
  deriving DecidableEq, Repr

/-- The encodings of XCHG (R176, R177); `axR .ax` is opcode `0x90`, which is NOP's row. -/
inductive XchgForm where
  | rmR8 (rm : Rm8) (r : Reg8)          -- 86
  | rmR16 (rm : Rm16) (r : Reg16)       -- 87
  | axR (r : Reg16)                     -- 91..97
  deriving DecidableEq, Repr

/-- The encodings of the near direct JMP (44_control_transfer.md R351, R352). -/
inductive JmpForm where
  | rel16 (d : Word)                    -- E9
  | rel8 (d : Byte)                     -- EB
  deriving DecidableEq, Repr

/-- The encodings of RET and RETF (R365 to R368). -/
inductive RetForm where
  | imm (n : Word)                      -- C2, CA
  | plain                               -- C3, CB
  deriving DecidableEq, Repr

/-- The encodings of IN and OUT (47_io.md R465 to R468): byte or word, port number as an immediate
byte or in DX. -/
inductive PortForm where
  | byteImm (p : Byte)                  -- E4, E6
  | wordImm (p : Byte)                  -- E5, E7
  | byteDx                              -- EC, EE
  | wordDx                              -- ED, EF
  deriving DecidableEq, Repr

/-- One item of an instruction stream: an instruction, a prefix byte, or a refused encoding. One
constructor per mnemonic of spec/opcode_table.json (LAWS.json gives the map). -/
inductive Instr where
  -- two-operand arithmetic and logic (41_alu.md)
  | add (f : AluForm)
  | or (f : AluForm)
  | adc (f : AluForm)
  | sbb (f : AluForm)
  | and (f : AluForm)
  | sub (f : AluForm)
  | xor (f : AluForm)
  | cmp (f : AluForm)
  | test (f : TestForm)
  | inc (f : IncForm)
  | dec (f : IncForm)
  | not (f : UnForm)
  | neg (f : UnForm)
  -- multiply, divide, decimal adjust (43_muldiv_bcd.md)
  | mul (f : UnForm)
  | imul (f : UnForm)
  | div (f : UnForm)
  | idiv (f : UnForm)
  | daa
  | das
  | aaa
  | aas
  -- shifts and rotates (42_shift_rotate.md)
  | rol (f : ShiftForm)
  | ror (f : ShiftForm)
  | rcl (f : ShiftForm)
  | rcr (f : ShiftForm)
  | shl (f : ShiftForm)
  | shr (f : ShiftForm)
  | sar (f : ShiftForm)
  -- data transfer (40_data_transfer.md)
  | mov (f : MovForm)
  | xchg (f : XchgForm)
  | push (f : PushForm)
  | pop (f : PopForm)
  | pushf
  | popf
  | lahf
  | sahf
  | xlat
  | lea (r : Reg16) (m : MemRef)
  | lds (r : Reg16) (m : MemRef)
  | les (r : Reg16) (m : MemRef)
  | cbw
  | cwd
  -- control transfer (44_control_transfer.md)
  | jmp (f : JmpForm)
  | jmpFar (off seg : Word)
  | jmpInd (rm : Rm16)
  | jmpFarInd (m : MemRef)
  | jo (d : Byte)
  | jno (d : Byte)
  | jb (d : Byte)
  | jnb (d : Byte)
  | jz (d : Byte)
  | jnz (d : Byte)
  | jbe (d : Byte)
  | ja (d : Byte)
  | js (d : Byte)
  | jns (d : Byte)
  | jp (d : Byte)
  | jnp (d : Byte)
  | jl (d : Byte)
  | jge (d : Byte)
  | jle (d : Byte)
  | jg (d : Byte)
  | loop (d : Byte)
  | loopz (d : Byte)
  | loopnz (d : Byte)
  | jcxz (d : Byte)
  | call (d : Word)
  | callFar (off seg : Word)
  | callInd (rm : Rm16)
  | callFarInd (m : MemRef)
  | ret (f : RetForm)
  | retf (f : RetForm)
  -- strings (45_string.md)
  | movsb
  | movsw
  | cmpsb
  | cmpsw
  | stosb
  | stosw
  | lodsb
  | lodsw
  | scasb
  | scasw
  -- system (46_system.md)
  | int (n : Byte)
  | int3
  | iret
  | hlt
  | clc
  | stc
  | cmc
  | cld
  | std
  | cli
  | sti
  | esc (op reg : BitVec 3) (rm : Rm16)
  | wait
  | nop
  -- port input and output (47_io.md)
  | inPort (f : PortForm)
  | outPort (f : PortForm)
  -- prefix bytes (30_encoding.md R102)
  | prefixEs
  | prefixCs
  | prefixSs
  | prefixDs
  | prefixLock
  | prefixRepne
  | prefixRep
  -- refused encodings (R103, R116, R118, 42_shift_rotate.md R289): each raises DecodeFault
  | escape0F
  | undocumented (op : Byte)
  | reserved (op modrm : Byte)
  | into
  | aam
  | aad
  | leaReg (reg rm : BitVec 3)
  | lesReg (reg rm : BitVec 3)
  | ldsReg (reg rm : BitVec 3)
  | callFarReg (rm : BitVec 3)
  | jmpFarReg (rm : BitVec 3)
  deriving DecidableEq, Repr

/-- The seven rows of format PREFIX: decoding continues after the byte (R102, R127). -/
def Instr.isPrefix : Instr → Bool
  | .prefixEs | .prefixCs | .prefixSs | .prefixDs | .prefixLock | .prefixRepne | .prefixRep => true
  | _ => false

end Sys2Proof
end

