-- ==== Sys2Proof/WellFormed.lean ====
section
/-! DEFINITION. Which terms of `Instr` an encoding exists for. The types of Syntax.lean already carry
most of it (a memory-only operand is a `MemRef`); what is left is checked here. -/

namespace Sys2Proof

/-- `mod = 0` with `rm = 6` is the direct address, so `[BP]` without a displacement has no encoding
(30_encoding.md R109). -/
def MemRef.wf : MemRef → Bool
  | .base0 b => b != .bp
  | .base8 _ _ => true
  | .base16 _ _ => true
  | .direct _ => true

def Rm8.wf : Rm8 → Bool
  | .reg _ => true
  | .mem m => m.wf

def Rm16.wf : Rm16 → Bool
  | .reg _ => true
  | .mem m => m.wf

def AluForm.wf : AluForm → Bool
  | .rmR8 rm _ => rm.wf
  | .rmR16 rm _ => rm.wf
  | .rRm8 _ rm => rm.wf
  | .rRm16 _ rm => rm.wf
  | .alImm _ => true
  | .axImm _ => true
  | .rmImm8 rm _ => rm.wf
  | .rmImm16 rm _ => rm.wf
  | .rmImm8Alias rm _ => rm.wf
  | .rmImmSx rm _ => rm.wf

def TestForm.wf : TestForm → Bool
  | .rmR8 rm _ => rm.wf
  | .rmR16 rm _ => rm.wf
  | .alImm _ => true
  | .axImm _ => true
  | .rmImm8 rm _ => rm.wf
  | .rmImm16 rm _ => rm.wf

def IncForm.wf : IncForm → Bool
  | .reg _ => true
  | .rm8 rm => rm.wf
  | .rm16 rm => rm.wf

def UnForm.wf : UnForm → Bool
  | .rm8 rm => rm.wf
  | .rm16 rm => rm.wf

def ShiftForm.wf : ShiftForm → Bool
  | .rm8 rm _ => rm.wf
  | .rm16 rm _ => rm.wf

def PushForm.wf : PushForm → Bool
  | .sreg _ => true
  | .reg _ => true
  | .rm x => x.wf

/-- There is no `POP CS`: its byte `0x0F` is refused (40_data_transfer.md R184). -/
def PopForm.wf : PopForm → Bool
  | .sreg r => r != .cs
  | .reg _ => true
  | .rm _ x => x.wf

def MovForm.wf : MovForm → Bool
  | .rmR8 rm _ => rm.wf
  | .rmR16 rm _ => rm.wf
  | .rRm8 _ rm => rm.wf
  | .rRm16 _ rm => rm.wf
  | .rmSreg _ rm _ => rm.wf
  | .sregRm _ _ rm => rm.wf
  | .alMoffs _ => true
  | .axMoffs _ => true
  | .moffsAl _ => true
  | .moffsAx _ => true
  | .r8Imm _ _ => true
  | .r16Imm _ _ => true
  | .rmImm8 _ rm _ => rm.wf
  | .rmImm16 _ rm _ => rm.wf

/-- Opcode `0x90` is NOP's row, so `XCHG AX, AX` in the short form is not a form of XCHG (R177). -/
def XchgForm.wf : XchgForm → Bool
  | .rmR8 rm _ => rm.wf
  | .rmR16 rm _ => rm.wf
  | .axR r => r != .ax

/-- The `reg` field of a ModRM byte (30_encoding.md R104). -/
def modrmReg (m : Byte) : BitVec 3 := m.extractLsb' 3 3

/-- The undocumented primary opcodes of R116. -/
def undocumentedOp (op : Byte) : Bool :=
  op.extractLsb' 4 4 == 6#4 || op == 0xC8#8 || op == 0xC9#8 || op == 0xD6#8 || op == 0xF1#8

/-- The reserved group slots of R116 and R289. -/
def reservedSlot (op modrm : Byte) : Bool :=
  ((op == 0xC0#8 || op == 0xC1#8 || op == 0xD0#8 || op == 0xD1#8 || op == 0xD2#8 || op == 0xD3#8)
      && modrmReg modrm == 6#3)
    || ((op == 0xF6#8 || op == 0xF7#8) && modrmReg modrm == 1#3)
    || (op == 0xFE#8 && decide (2 ≤ (modrmReg modrm).toNat))
    || (op == 0xFF#8 && modrmReg modrm == 7#3)

/-- The instruction has an encoding. -/
def Instr.wf : Instr → Bool
  | .add f => f.wf
  | .or f => f.wf
  | .adc f => f.wf
  | .sbb f => f.wf
  | .and f => f.wf
  | .sub f => f.wf
  | .xor f => f.wf
  | .cmp f => f.wf
  | .test f => f.wf
  | .inc f => f.wf
  | .dec f => f.wf
  | .not f => f.wf
  | .neg f => f.wf
  | .mul f => f.wf
  | .imul f => f.wf
  | .div f => f.wf
  | .idiv f => f.wf
  | .daa => true
  | .das => true
  | .aaa => true
  | .aas => true
  | .rol f => f.wf
  | .ror f => f.wf
  | .rcl f => f.wf
  | .rcr f => f.wf
  | .shl f => f.wf
  | .shr f => f.wf
  | .sar f => f.wf
  | .mov f => f.wf
  | .xchg f => f.wf
  | .push f => f.wf
  | .pop f => f.wf
  | .pushf => true
  | .popf => true
  | .lahf => true
  | .sahf => true
  | .xlat => true
  | .lea _ m => m.wf
  | .lds _ m => m.wf
  | .les _ m => m.wf
  | .cbw => true
  | .cwd => true
  | .jmp _ => true
  | .jmpFar _ _ => true
  | .jmpInd rm => rm.wf
  | .jmpFarInd m => m.wf
  | .jo _ => true
  | .jno _ => true
  | .jb _ => true
  | .jnb _ => true
  | .jz _ => true
  | .jnz _ => true
  | .jbe _ => true
  | .ja _ => true
  | .js _ => true
  | .jns _ => true
  | .jp _ => true
  | .jnp _ => true
  | .jl _ => true
  | .jge _ => true
  | .jle _ => true
  | .jg _ => true
  | .loop _ => true
  | .loopz _ => true
  | .loopnz _ => true
  | .jcxz _ => true
  | .call _ => true
  | .callFar _ _ => true
  | .callInd rm => rm.wf
  | .callFarInd m => m.wf
  | .ret _ => true
  | .retf _ => true
  | .movsb => true
  | .movsw => true
  | .cmpsb => true
  | .cmpsw => true
  | .stosb => true
  | .stosw => true
  | .lodsb => true
  | .lodsw => true
  | .scasb => true
  | .scasw => true
  | .int _ => true
  | .int3 => true
  | .iret => true
  | .hlt => true
  | .clc => true
  | .stc => true
  | .cmc => true
  | .cld => true
  | .std => true
  | .cli => true
  | .sti => true
  | .esc _ _ rm => rm.wf
  | .wait => true
  | .nop => true
  | .inPort _ => true
  | .outPort _ => true
  | .prefixEs => true
  | .prefixCs => true
  | .prefixSs => true
  | .prefixDs => true
  | .prefixLock => true
  | .prefixRepne => true
  | .prefixRep => true
  | .escape0F => true
  | .undocumented op => undocumentedOp op
  | .reserved op modrm => reservedSlot op modrm
  | .into => true
  | .aam => true
  | .aad => true
  | .leaReg _ _ => true
  | .lesReg _ _ => true
  | .ldsReg _ _ => true
  | .callFarReg _ => true
  | .jmpFarReg _ => true

end Sys2Proof
end

