-- ==== Sys2Proof/Decode.lean ====
section
/-! DEFINITION. The decoder and the encoder (30_encoding.md R101 to R128). `decode` reads ONE item of
the instruction stream (a prefix byte, an instruction, or a refused encoding) from a list of bytes and
gives the rest of the list; Machine/Run.lean strings prefixes and instruction together (R102). Every
byte list that is long enough decodes: an encoding the spec refuses decodes to the constructor of its
refused row, whose meaning is DecodeFault. -/

namespace Sys2Proof

/-! Byte order and extension (20_memory.md R73, 00_scope.md R9). -/

/-- `sext_16` of a byte. -/
def sext16 (b : Byte) : Word := b.signExtend 16

/-- `zext_16` of a byte. -/
def zext16 (b : Byte) : Word := b.setWidth 16

/-- The word whose low byte is `lo` and whose high byte is `hi` (`hi ++ lo`). -/
def mkWord (lo hi : Byte) : Word := hi ++ lo

/-- Bits 7..0 of a word. -/
def loByte (w : Word) : Byte := w.extractLsb' 0 8

/-- Bits 15..8 of a word. -/
def hiByte (w : Word) : Byte := w.extractLsb' 8 8

/-! Register numbers (10_state.md R32). -/

def Reg16.ofNum (n : BitVec 3) : Reg16 :=
  match n.toNat with
  | 0 => .ax | 1 => .cx | 2 => .dx | 3 => .bx | 4 => .sp | 5 => .bp | 6 => .si | _ => .di

def Reg16.num : Reg16 → BitVec 3
  | .ax => 0 | .cx => 1 | .dx => 2 | .bx => 3 | .sp => 4 | .bp => 5 | .si => 6 | .di => 7

def Reg8.ofNum (n : BitVec 3) : Reg8 :=
  match n.toNat with
  | 0 => .al | 1 => .cl | 2 => .dl | 3 => .bl | 4 => .ah | 5 => .ch | 6 => .dh | _ => .bh

def Reg8.num : Reg8 → BitVec 3
  | .al => 0 | .cl => 1 | .dl => 2 | .bl => 3 | .ah => 4 | .ch => 5 | .dh => 6 | .bh => 7

def SReg.ofNum (n : BitVec 2) : SReg :=
  match n.toNat with
  | 0 => .es | 1 => .cs | 2 => .ss | _ => .ds

def SReg.num : SReg → BitVec 2
  | .es => 0 | .cs => 1 | .ss => 2 | .ds => 3

/-- `Base[rm]` (30_encoding.md R109). -/
def Base.ofNum (n : BitVec 3) : Base :=
  match n.toNat with
  | 0 => .bxsi | 1 => .bxdi | 2 => .bpsi | 3 => .bpdi | 4 => .si | 5 => .di | 6 => .bp | _ => .bx

def Base.num : Base → BitVec 3
  | .bxsi => 0 | .bxdi => 1 | .bpsi => 2 | .bpdi => 3 | .si => 4 | .di => 5 | .bp => 6 | .bx => 7

/-! The ModRM byte (R104): `mod = b[7:6]`, `reg = b[5:3]`, `rm = b[2:0]`. -/

def modOf (m : Byte) : BitVec 2 := m.extractLsb' 6 2
def regOf (m : Byte) : BitVec 3 := m.extractLsb' 3 3
def rmOf (m : Byte) : BitVec 3 := m.extractLsb' 0 3

def mkModRm (mod : BitVec 2) (reg rm : BitVec 3) : Byte := mod ++ (reg ++ rm : BitVec 6)

/-- The only way decoding does not give an item: the list of bytes ends inside one. -/
inductive DecodeError where
  | truncated
  deriving DecidableEq, Repr

/-- What the decoder answers: the item and the bytes after it. -/
abbrev Decoded := Except DecodeError (Instr × List Byte)

/-- An effective-address operand before its width is known: a register number or memory. -/
inductive Ea where
  | reg (n : BitVec 3)
  | mem (m : MemRef)
  deriving DecidableEq, Repr

def Ea.rm8 : Ea → Rm8
  | .reg n => .reg (Reg8.ofNum n)
  | .mem m => .mem m

def Ea.rm16 : Ea → Rm16
  | .reg n => .reg (Reg16.ofNum n)
  | .mem m => .mem m

/-- `ResolveE` of R109: the operand that `mod` and `rm` name, its displacement taken from the bytes
after the ModRM byte. -/
def decodeEa (m : Byte) (bs : List Byte) : Except DecodeError (Ea × List Byte) :=
  match (modOf m).toNat with
  | 3 => .ok (.reg (rmOf m), bs)
  | 0 =>
    if rmOf m = 6#3 then
      match bs with
      | lo :: hi :: rest => .ok (.mem (.direct (mkWord lo hi)), rest)
      | _ => .error .truncated
    else .ok (.mem (.base0 (Base.ofNum (rmOf m))), bs)
  | 1 =>
    match bs with
    | d :: rest => .ok (.mem (.base8 (Base.ofNum (rmOf m)) d), rest)
    | _ => .error .truncated
  | _ =>
    match bs with
    | lo :: hi :: rest => .ok (.mem (.base16 (Base.ofNum (rmOf m)) (mkWord lo hi)), rest)
    | _ => .error .truncated

/-! The tails an opcode can have (R127's formats). Each takes the bytes after the opcode. -/

/-- `OP_IB`, `OP_JB`: one byte. -/
def withByte (f : Byte → Instr) : List Byte → Decoded
  | b :: rest => .ok (f b, rest)
  | [] => .error .truncated

/-- `OP_IW`, `OP_JW`, `OP_OW`: two bytes, the low one first. -/
def withWord (f : Word → Instr) : List Byte → Decoded
  | lo :: hi :: rest => .ok (f (mkWord lo hi), rest)
  | _ => .error .truncated

/-- `OP_A`: offset word, then segment word. -/
def withFar (f : Word → Word → Instr) : List Byte → Decoded
  | a :: b :: c :: d :: rest => .ok (f (mkWord a b) (mkWord c d), rest)
  | _ => .error .truncated

/-- `OP_M`, `GRP_M`: ModRM and displacement. `f` gets the `reg` field and the operand. -/
def withRm (f : BitVec 3 → Ea → Instr) : List Byte → Decoded
  | [] => .error .truncated
  | m :: bs =>
    match decodeEa m bs with
    | .ok (ea, rest) => .ok (f (regOf m) ea, rest)
    | .error e => .error e

/-- `OP_M_IB`, `GRP_M_IB`: ModRM, displacement, immediate byte (R113). -/
def withRmByte (f : BitVec 3 → Ea → Byte → Instr) : List Byte → Decoded
  | [] => .error .truncated
  | m :: bs =>
    match decodeEa m bs with
    | .ok (ea, rest) => withByte (f (regOf m) ea) rest
    | .error e => .error e

/-- `OP_M_IW`, `GRP_M_IW`: ModRM, displacement, immediate word. -/
def withRmWord (f : BitVec 3 → Ea → Word → Instr) : List Byte → Decoded
  | [] => .error .truncated
  | m :: bs =>
    match decodeEa m bs with
    | .ok (ea, rest) => withWord (f (regOf m) ea) rest
    | .error e => .error e

/-- A memory-only operand `M` (R109): `mod = 3` is refused as soon as the ModRM byte is known. -/
def withMem (f : BitVec 3 → MemRef → Instr) (refused : BitVec 3 → BitVec 3 → Instr) :
    List Byte → Decoded
  | [] => .error .truncated
  | m :: bs =>
    match decodeEa m bs with
    | .ok (.mem x, rest) => .ok (f (regOf m) x, rest)
    | .ok (.reg _, rest) => .ok (refused (regOf m) (rmOf m), rest)
    | .error e => .error e

/-- A group opcode (R106): the instruction is chosen by the `reg` field of the ModRM byte; a slot the
choice leaves empty is reserved and refused right after the ModRM byte. -/
def group (op : Byte) (choose : Nat → Option (List Byte → Decoded)) : List Byte → Decoded
  | [] => .error .truncated
  | m :: bs =>
    match choose (regOf m).toNat with
    | some d => d (m :: bs)
    | none => .ok (.reserved op m, bs)

/-- The eight operations of the ALU block and of group G1 in encoding order (R121, R226). -/
def aluOp (n : Nat) (f : AluForm) : Instr :=
  match n with
  | 0 => .add f | 1 => .or f | 2 => .adc f | 3 => .sbb f
  | 4 => .and f | 5 => .sub f | 6 => .xor f | _ => .cmp f

/-- The six forms `base+0` .. `base+5` of operation `n` (R226). -/
def decodeAlu (n k : Nat) : List Byte → Decoded :=
  match k with
  | 0 => withRm fun reg ea => aluOp n (.rmR8 ea.rm8 (Reg8.ofNum reg))
  | 1 => withRm fun reg ea => aluOp n (.rmR16 ea.rm16 (Reg16.ofNum reg))
  | 2 => withRm fun reg ea => aluOp n (.rRm8 (Reg8.ofNum reg) ea.rm8)
  | 3 => withRm fun reg ea => aluOp n (.rRm16 (Reg16.ofNum reg) ea.rm16)
  | 4 => withByte fun v => aluOp n (.alImm v)
  | _ => withWord fun v => aluOp n (.axImm v)

/-- Group G1, opcodes `80`..`83` (R121). -/
def decodeG1 (k : Nat) : List Byte → Decoded :=
  match k with
  | 0 => withRmByte fun reg ea v => aluOp reg.toNat (.rmImm8 ea.rm8 v)
  | 1 => withRmWord fun reg ea v => aluOp reg.toNat (.rmImm16 ea.rm16 v)
  | 2 => withRmByte fun reg ea v => aluOp reg.toNat (.rmImm8Alias ea.rm8 v)
  | _ => withRmByte fun reg ea v => aluOp reg.toNat (.rmImmSx ea.rm16 v)

/-- The slots of group G2 (R122): `/6` is reserved. -/
def shiftOp (n : Nat) : Option (ShiftForm → Instr) :=
  match n with
  | 0 => some .rol | 1 => some .ror | 2 => some .rcl | 3 => some .rcr
  | 4 => some .shl | 5 => some .shr | 6 => none | _ => some .sar

/-- Group G2, opcodes `C0 C1 D0 D1 D2 D3`. -/
def decodeG2 (op : Byte) (d : (ShiftForm → Instr) → List Byte → Decoded) : List Byte → Decoded :=
  group op fun n => (shiftOp n).map d

/-- The one-operand slots of group G3 (R123): `/0` is TEST and `/1` is reserved. -/
def unOp (n : Nat) (f : UnForm) : Instr :=
  match n with
  | 2 => .not f | 3 => .neg f | 4 => .mul f | 5 => .imul f | 6 => .div f | _ => .idiv f

/-- The slots of group G3B, opcode `F6`. -/
def slotsG3B (n : Nat) : Option (List Byte → Decoded) :=
  match n with
  | 0 => some (withRmByte fun _ ea v => .test (.rmImm8 ea.rm8 v))
  | 1 => none
  | n => some (withRm fun _ ea => unOp n (.rm8 ea.rm8))

def decodeG3B : List Byte → Decoded := group 0xF6 slotsG3B

/-- The slots of group G3W, opcode `F7` (R124). -/
def slotsG3W (n : Nat) : Option (List Byte → Decoded) :=
  match n with
  | 0 => some (withRmWord fun _ ea v => .test (.rmImm16 ea.rm16 v))
  | 1 => none
  | n => some (withRm fun _ ea => unOp n (.rm16 ea.rm16))

def decodeG3W : List Byte → Decoded := group 0xF7 slotsG3W

/-- The slots of group G4, opcode `FE` (R125). -/
def slotsG4 (n : Nat) : Option (List Byte → Decoded) :=
  match n with
  | 0 => some (withRm fun _ ea => .inc (.rm8 ea.rm8))
  | 1 => some (withRm fun _ ea => .dec (.rm8 ea.rm8))
  | _ => none

def decodeG4 : List Byte → Decoded := group 0xFE slotsG4

/-- The slots of group G5, opcode `FF` (R126). -/
def slotsG5 (n : Nat) : Option (List Byte → Decoded) :=
  match n with
  | 0 => some (withRm fun _ ea => .inc (.rm16 ea.rm16))
  | 1 => some (withRm fun _ ea => .dec (.rm16 ea.rm16))
  | 2 => some (withRm fun _ ea => .callInd ea.rm16)
  | 3 => some (withMem (fun _ m => .callFarInd m) fun _ rm => .callFarReg rm)
  | 4 => some (withRm fun _ ea => .jmpInd ea.rm16)
  | 5 => some (withMem (fun _ m => .jmpFarInd m) fun _ rm => .jmpFarReg rm)
  | 6 => some (withRm fun _ ea => .push (.rm ea.rm16))
  | _ => none

def decodeG5 : List Byte → Decoded := group 0xFF slotsG5

/-- The sixteen conditional jumps (44_control_transfer.md R356). -/
def jccOp (n : Nat) (d : Byte) : Instr :=
  match n with
  | 0 => .jo d | 1 => .jno d | 2 => .jb d | 3 => .jnb d
  | 4 => .jz d | 5 => .jnz d | 6 => .jbe d | 7 => .ja d
  | 8 => .js d | 9 => .jns d | 10 => .jp d | 11 => .jnp d
  | 12 => .jl d | 13 => .jge d | 14 => .jle d | _ => .jg d

/-- An opcode with nothing after it. -/
def plain (i : Instr) (bs : List Byte) : Decoded := .ok (i, bs)

/-- Opcodes `00`..`3F` (R120): operation `hi`, column `lo` of the ALU block; columns 6 and 7 hold the
segment pushes and pops, the segment prefixes and the decimal adjusts. -/
def decodeBlock0 (hi lo : Nat) : List Byte → Decoded :=
  if lo < 6 then decodeAlu hi lo
  else match hi, lo with
    | 0, 6 => plain (.push (.sreg .es))
    | 0, _ => plain (.pop (.sreg .es))
    | 1, 6 => plain (.push (.sreg .cs))
    | 1, _ => plain .escape0F
    | 2, 6 => plain (.push (.sreg .ss))
    | 2, _ => plain (.pop (.sreg .ss))
    | 3, 6 => plain (.push (.sreg .ds))
    | 3, _ => plain (.pop (.sreg .ds))
    | 4, 6 => plain .prefixEs
    | 4, _ => plain .daa
    | 5, 6 => plain .prefixCs
    | 5, _ => plain .das
    | 6, 6 => plain .prefixSs
    | 6, _ => plain .aaa
    | _, 6 => plain .prefixDs
    | _, _ => plain .aas

/-- Opcodes `80`..`8F`. -/
def decode8 (lo : Nat) : List Byte → Decoded :=
  match lo with
  | 0 => decodeG1 0
  | 1 => decodeG1 1
  | 2 => decodeG1 2
  | 3 => decodeG1 3
  | 4 => withRm fun reg ea => .test (.rmR8 ea.rm8 (Reg8.ofNum reg))
  | 5 => withRm fun reg ea => .test (.rmR16 ea.rm16 (Reg16.ofNum reg))
  | 6 => withRm fun reg ea => .xchg (.rmR8 ea.rm8 (Reg8.ofNum reg))
  | 7 => withRm fun reg ea => .xchg (.rmR16 ea.rm16 (Reg16.ofNum reg))
  | 8 => withRm fun reg ea => .mov (.rmR8 ea.rm8 (Reg8.ofNum reg))
  | 9 => withRm fun reg ea => .mov (.rmR16 ea.rm16 (Reg16.ofNum reg))
  | 10 => withRm fun reg ea => .mov (.rRm8 (Reg8.ofNum reg) ea.rm8)
  | 11 => withRm fun reg ea => .mov (.rRm16 (Reg16.ofNum reg) ea.rm16)
  | 12 => withRm fun reg ea =>
      .mov (.rmSreg (reg.extractLsb' 2 1) ea.rm16 (SReg.ofNum (reg.extractLsb' 0 2)))
  | 13 => withMem (fun reg m => .lea (Reg16.ofNum reg) m) .leaReg
  | 14 => withRm fun reg ea =>
      .mov (.sregRm (reg.extractLsb' 2 1) (SReg.ofNum (reg.extractLsb' 0 2)) ea.rm16)
  | _ => withRm fun reg ea => .pop (.rm reg ea.rm16)

/-- Opcodes `90`..`9F`. -/
def decode9 (lo : Nat) : List Byte → Decoded :=
  match lo with
  | 0 => plain .nop
  | 8 => plain .cbw
  | 9 => plain .cwd
  | 10 => withFar .callFar
  | 11 => plain .wait
  | 12 => plain .pushf
  | 13 => plain .popf
  | 14 => plain .sahf
  | 15 => plain .lahf
  | r => plain (.xchg (.axR (Reg16.ofNum (BitVec.ofNat 3 r))))

/-- Opcodes `A0`..`AF`. -/
def decodeA (lo : Nat) : List Byte → Decoded :=
  match lo with
  | 0 => withWord fun a => .mov (.alMoffs a)
  | 1 => withWord fun a => .mov (.axMoffs a)
  | 2 => withWord fun a => .mov (.moffsAl a)
  | 3 => withWord fun a => .mov (.moffsAx a)
  | 4 => plain .movsb
  | 5 => plain .movsw
  | 6 => plain .cmpsb
  | 7 => plain .cmpsw
  | 8 => withByte fun v => .test (.alImm v)
  | 9 => withWord fun v => .test (.axImm v)
  | 10 => plain .stosb
  | 11 => plain .stosw
  | 12 => plain .lodsb
  | 13 => plain .lodsw
  | 14 => plain .scasb
  | _ => plain .scasw

/-- Opcodes `C0`..`CF`. -/
def decodeC (lo : Nat) : List Byte → Decoded :=
  match lo with
  | 0 => decodeG2 0xC0 fun f => withRmByte fun _ ea n => f (.rm8 ea.rm8 (.imm n))
  | 1 => decodeG2 0xC1 fun f => withRmByte fun _ ea n => f (.rm16 ea.rm16 (.imm n))
  | 2 => withWord fun n => .ret (.imm n)
  | 3 => plain (.ret .plain)
  | 4 => withMem (fun reg m => .les (Reg16.ofNum reg) m) .lesReg
  | 5 => withMem (fun reg m => .lds (Reg16.ofNum reg) m) .ldsReg
  | 6 => withRmByte fun reg ea v => .mov (.rmImm8 reg ea.rm8 v)
  | 7 => withRmWord fun reg ea v => .mov (.rmImm16 reg ea.rm16 v)
  | 8 => plain (.undocumented 0xC8)
  | 9 => plain (.undocumented 0xC9)
  | 10 => withWord fun n => .retf (.imm n)
  | 11 => plain (.retf .plain)
  | 12 => plain .int3
  | 13 => withByte .int
  | 14 => plain .into
  | _ => plain .iret

/-- Opcodes `D0`..`DF`. -/
def decodeD (lo : Nat) : List Byte → Decoded :=
  match lo with
  | 0 => decodeG2 0xD0 fun f => withRm fun _ ea => f (.rm8 ea.rm8 .one)
  | 1 => decodeG2 0xD1 fun f => withRm fun _ ea => f (.rm16 ea.rm16 .one)
  | 2 => decodeG2 0xD2 fun f => withRm fun _ ea => f (.rm8 ea.rm8 .cl)
  | 3 => decodeG2 0xD3 fun f => withRm fun _ ea => f (.rm16 ea.rm16 .cl)
  | 4 => plain .aam
  | 5 => plain .aad
  | 6 => plain (.undocumented 0xD6)
  | 7 => plain .xlat
  | n => withRm fun reg ea => .esc (BitVec.ofNat 3 n) reg ea.rm16

/-- Opcodes `E0`..`EF`. -/
def decodeE (lo : Nat) : List Byte → Decoded :=
  match lo with
  | 0 => withByte .loopnz
  | 1 => withByte .loopz
  | 2 => withByte .loop
  | 3 => withByte .jcxz
  | 4 => withByte fun p => .inPort (.byteImm p)
  | 5 => withByte fun p => .inPort (.wordImm p)
  | 6 => withByte fun p => .outPort (.byteImm p)
  | 7 => withByte fun p => .outPort (.wordImm p)
  | 8 => withWord .call
  | 9 => withWord fun d => .jmp (.rel16 d)
  | 10 => withFar .jmpFar
  | 11 => withByte fun d => .jmp (.rel8 d)
  | 12 => plain (.inPort .byteDx)
  | 13 => plain (.inPort .wordDx)
  | 14 => plain (.outPort .byteDx)
  | _ => plain (.outPort .wordDx)

/-- Opcodes `F0`..`FF`. -/
def decodeF (lo : Nat) : List Byte → Decoded :=
  match lo with
  | 0 => plain .prefixLock
  | 1 => plain (.undocumented 0xF1)
  | 2 => plain .prefixRepne
  | 3 => plain .prefixRep
  | 4 => plain .hlt
  | 5 => plain .cmc
  | 6 => decodeG3B
  | 7 => decodeG3W
  | 8 => plain .clc
  | 9 => plain .stc
  | 10 => plain .cli
  | 11 => plain .sti
  | 12 => plain .cld
  | 13 => plain .std
  | 14 => decodeG4
  | _ => decodeG5

/-- The primary opcode map (R120), by the opcode's two hexadecimal digits. -/
def decodeOp (op : Byte) : List Byte → Decoded :=
  let lo := op.toNat % 16
  let r := BitVec.ofNat 3 lo
  match op.toNat / 16 with
  | 0 => decodeBlock0 (op.toNat / 8) (op.toNat % 8)
  | 1 => decodeBlock0 (op.toNat / 8) (op.toNat % 8)
  | 2 => decodeBlock0 (op.toNat / 8) (op.toNat % 8)
  | 3 => decodeBlock0 (op.toNat / 8) (op.toNat % 8)
  | 4 => plain (if lo < 8 then .inc (.reg (Reg16.ofNum r)) else .dec (.reg (Reg16.ofNum r)))
  | 5 => plain (if lo < 8 then .push (.reg (Reg16.ofNum r)) else .pop (.reg (Reg16.ofNum r)))
  | 6 => plain (.undocumented op)
  | 7 => withByte (jccOp lo)
  | 8 => decode8 lo
  | 9 => decode9 lo
  | 10 => decodeA lo
  | 11 =>
    if lo < 8 then withByte fun v => .mov (.r8Imm (Reg8.ofNum r) v)
    else withWord fun v => .mov (.r16Imm (Reg16.ofNum r) v)
  | 12 => decodeC lo
  | 13 => decodeD lo
  | 14 => decodeE lo
  | _ => decodeF lo

/-- One item of the instruction stream and the bytes after it. -/
def decode : List Byte → Decoded
  | [] => .error .truncated
  | op :: bs => decodeOp op bs

/-- The longest item: opcode, ModRM, two displacement bytes, two immediate bytes (R101). -/
def maxItemBytes : Nat := 6

/-- The bytes of an instruction whose bits are `w` as spec/opcode_table.json numbers them (R127: the
opcode byte in bits 15..8 of the key, the ModRM byte in bits 7..0), everything after them zero. Bits
above 15, which the table does not number, count on byte by byte. -/
def tableBytes (nbits w : Nat) : List Byte :=
  if nbits ≤ 8 ∧ w < 256 then [BitVec.ofNat 8 w, 0, 0, 0, 0, 0]
  else
    [BitVec.ofNat 8 (w / 256), BitVec.ofNat 8 w, BitVec.ofNat 8 (w / 65536),
      BitVec.ofNat 8 (w / 16777216), BitVec.ofNat 8 (w / 4294967296),
      BitVec.ofNat 8 (w / 1099511627776)]

/-- The item this decoder reads from a word of the opcode table. -/
def decodeTableWord (nbits w : Nat) : Option Instr :=
  match decode (tableBytes nbits w) with
  | .ok (i, _) => some i
  | .error _ => none

/-! ## The encoder, from the same tables -/

/-- A word in memory order: the low byte first (R73). -/
def wordBytes (w : Word) : List Byte := [loByte w, hiByte w]

/-- The ModRM byte and displacement of a memory operand (R109). -/
def encodeMem (reg : BitVec 3) : MemRef → List Byte
  | .base0 b => [mkModRm 0 reg b.num]
  | .base8 b d => [mkModRm 1 reg b.num, d]
  | .base16 b d => mkModRm 2 reg b.num :: wordBytes d
  | .direct a => mkModRm 0 reg 6 :: wordBytes a

def encodeRm8 (reg : BitVec 3) : Rm8 → List Byte
  | .reg r => [mkModRm 3 reg r.num]
  | .mem m => encodeMem reg m

def encodeRm16 (reg : BitVec 3) : Rm16 → List Byte
  | .reg r => [mkModRm 3 reg r.num]
  | .mem m => encodeMem reg m

/-- Opcode byte from a base and a register number added in its low three bits. -/
def opPlus (base : Byte) (n : BitVec 3) : Byte := base + n.setWidth 8

/-- The ALU forms of the operation with `base = 8 * n` and group slot `/n` (R226). -/
def encodeAlu (n : BitVec 3) : AluForm → List Byte
  | .rmR8 rm r => (8 * n.setWidth 8) :: encodeRm8 r.num rm
  | .rmR16 rm r => (8 * n.setWidth 8 + 1) :: encodeRm16 r.num rm
  | .rRm8 r rm => (8 * n.setWidth 8 + 2) :: encodeRm8 r.num rm
  | .rRm16 r rm => (8 * n.setWidth 8 + 3) :: encodeRm16 r.num rm
  | .alImm v => [8 * n.setWidth 8 + 4, v]
  | .axImm v => (8 * n.setWidth 8 + 5) :: wordBytes v
  | .rmImm8 rm v => 0x80 :: (encodeRm8 n rm ++ [v])
  | .rmImm16 rm v => 0x81 :: (encodeRm16 n rm ++ wordBytes v)
  | .rmImm8Alias rm v => 0x82 :: (encodeRm8 n rm ++ [v])
  | .rmImmSx rm v => 0x83 :: (encodeRm16 n rm ++ [v])

def encodeTest : TestForm → List Byte
  | .rmR8 rm r => 0x84 :: encodeRm8 r.num rm
  | .rmR16 rm r => 0x85 :: encodeRm16 r.num rm
  | .alImm v => [0xA8, v]
  | .axImm v => 0xA9 :: wordBytes v
  | .rmImm8 rm v => 0xF6 :: (encodeRm8 0 rm ++ [v])
  | .rmImm16 rm v => 0xF7 :: (encodeRm16 0 rm ++ wordBytes v)

/-- INC is slot `/0` with opcodes `40+r`, DEC slot `/1` with `48+r`. -/
def encodeInc (base : Byte) (n : BitVec 3) : IncForm → List Byte
  | .reg r => [opPlus base r.num]
  | .rm8 rm => 0xFE :: encodeRm8 n rm
  | .rm16 rm => 0xFF :: encodeRm16 n rm

def encodeUn (n : BitVec 3) : UnForm → List Byte
  | .rm8 rm => 0xF6 :: encodeRm8 n rm
  | .rm16 rm => 0xF7 :: encodeRm16 n rm

def encodeShift (n : BitVec 3) : ShiftForm → List Byte
  | .rm8 rm .one => 0xD0 :: encodeRm8 n rm
  | .rm8 rm .cl => 0xD2 :: encodeRm8 n rm
  | .rm8 rm (.imm v) => 0xC0 :: (encodeRm8 n rm ++ [v])
  | .rm16 rm .one => 0xD1 :: encodeRm16 n rm
  | .rm16 rm .cl => 0xD3 :: encodeRm16 n rm
  | .rm16 rm (.imm v) => 0xC1 :: (encodeRm16 n rm ++ [v])

def encodePush : PushForm → List Byte
  | .sreg r => [0x06 + 8 * r.num.setWidth 8]
  | .reg r => [opPlus 0x50 r.num]
  | .rm x => 0xFF :: encodeRm16 6 x

def encodePop : PopForm → List Byte
  | .sreg r => [0x07 + 8 * r.num.setWidth 8]
  | .reg r => [opPlus 0x58 r.num]
  | .rm ext x => 0x8F :: encodeRm16 ext x

def encodeMov : MovForm → List Byte
  | .rmR8 rm r => 0x88 :: encodeRm8 r.num rm
  | .rmR16 rm r => 0x89 :: encodeRm16 r.num rm
  | .rRm8 r rm => 0x8A :: encodeRm8 r.num rm
  | .rRm16 r rm => 0x8B :: encodeRm16 r.num rm
  | .rmSreg hi rm r => 0x8C :: encodeRm16 (hi ++ r.num) rm
  | .sregRm hi r rm => 0x8E :: encodeRm16 (hi ++ r.num) rm
  | .alMoffs a => 0xA0 :: wordBytes a
  | .axMoffs a => 0xA1 :: wordBytes a
  | .moffsAl a => 0xA2 :: wordBytes a
  | .moffsAx a => 0xA3 :: wordBytes a
  | .r8Imm r v => [opPlus 0xB0 r.num, v]
  | .r16Imm r v => opPlus 0xB8 r.num :: wordBytes v
  | .rmImm8 ext rm v => 0xC6 :: (encodeRm8 ext rm ++ [v])
  | .rmImm16 ext rm v => 0xC7 :: (encodeRm16 ext rm ++ wordBytes v)

def encodeXchg : XchgForm → List Byte
  | .rmR8 rm r => 0x86 :: encodeRm8 r.num rm
  | .rmR16 rm r => 0x87 :: encodeRm16 r.num rm
  | .axR r => [opPlus 0x90 r.num]

def encodeJmp : JmpForm → List Byte
  | .rel16 d => 0xE9 :: wordBytes d
  | .rel8 d => [0xEB, d]

/-- `RET` has the opcodes `C2`, `C3`, `RETF` `CA`, `CB`: `base` is the first of the pair. -/
def encodeRet (base : Byte) : RetForm → List Byte
  | .imm n => base :: wordBytes n
  | .plain => [base + 1]

/-- `IN` has the opcodes `E4 E5 EC ED`; `OUT` has each of them plus 2. -/
def encodePort (plus : Byte) : PortForm → List Byte
  | .byteImm p => [0xE4 + plus, p]
  | .wordImm p => [0xE5 + plus, p]
  | .byteDx => [0xEC + plus]
  | .wordDx => [0xED + plus]

/-- The bytes of an instruction, a prefix or a refused encoding, in memory order. -/
def encode : Instr → List Byte
  | .add f => encodeAlu 0 f
  | .or f => encodeAlu 1 f
  | .adc f => encodeAlu 2 f
  | .sbb f => encodeAlu 3 f
  | .and f => encodeAlu 4 f
  | .sub f => encodeAlu 5 f
  | .xor f => encodeAlu 6 f
  | .cmp f => encodeAlu 7 f
  | .test f => encodeTest f
  | .inc f => encodeInc 0x40 0 f
  | .dec f => encodeInc 0x48 1 f
  | .not f => encodeUn 2 f
  | .neg f => encodeUn 3 f
  | .mul f => encodeUn 4 f
  | .imul f => encodeUn 5 f
  | .div f => encodeUn 6 f
  | .idiv f => encodeUn 7 f
  | .daa => [0x27]
  | .das => [0x2F]
  | .aaa => [0x37]
  | .aas => [0x3F]
  | .rol f => encodeShift 0 f
  | .ror f => encodeShift 1 f
  | .rcl f => encodeShift 2 f
  | .rcr f => encodeShift 3 f
  | .shl f => encodeShift 4 f
  | .shr f => encodeShift 5 f
  | .sar f => encodeShift 7 f
  | .mov f => encodeMov f
  | .xchg f => encodeXchg f
  | .push f => encodePush f
  | .pop f => encodePop f
  | .pushf => [0x9C]
  | .popf => [0x9D]
  | .lahf => [0x9F]
  | .sahf => [0x9E]
  | .xlat => [0xD7]
  | .lea r m => 0x8D :: encodeMem r.num m
  | .lds r m => 0xC5 :: encodeMem r.num m
  | .les r m => 0xC4 :: encodeMem r.num m
  | .cbw => [0x98]
  | .cwd => [0x99]
  | .jmp f => encodeJmp f
  | .jmpFar off seg => 0xEA :: (wordBytes off ++ wordBytes seg)
  | .jmpInd rm => 0xFF :: encodeRm16 4 rm
  | .jmpFarInd m => 0xFF :: encodeMem 5 m
  | .jo d => [0x70, d]
  | .jno d => [0x71, d]
  | .jb d => [0x72, d]
  | .jnb d => [0x73, d]
  | .jz d => [0x74, d]
  | .jnz d => [0x75, d]
  | .jbe d => [0x76, d]
  | .ja d => [0x77, d]
  | .js d => [0x78, d]
  | .jns d => [0x79, d]
  | .jp d => [0x7A, d]
  | .jnp d => [0x7B, d]
  | .jl d => [0x7C, d]
  | .jge d => [0x7D, d]
  | .jle d => [0x7E, d]
  | .jg d => [0x7F, d]
  | .loop d => [0xE2, d]
  | .loopz d => [0xE1, d]
  | .loopnz d => [0xE0, d]
  | .jcxz d => [0xE3, d]
  | .call d => 0xE8 :: wordBytes d
  | .callFar off seg => 0x9A :: (wordBytes off ++ wordBytes seg)
  | .callInd rm => 0xFF :: encodeRm16 2 rm
  | .callFarInd m => 0xFF :: encodeMem 3 m
  | .ret f => encodeRet 0xC2 f
  | .retf f => encodeRet 0xCA f
  | .movsb => [0xA4]
  | .movsw => [0xA5]
  | .cmpsb => [0xA6]
  | .cmpsw => [0xA7]
  | .stosb => [0xAA]
  | .stosw => [0xAB]
  | .lodsb => [0xAC]
  | .lodsw => [0xAD]
  | .scasb => [0xAE]
  | .scasw => [0xAF]
  | .int n => [0xCD, n]
  | .int3 => [0xCC]
  | .iret => [0xCF]
  | .hlt => [0xF4]
  | .clc => [0xF8]
  | .stc => [0xF9]
  | .cmc => [0xF5]
  | .cld => [0xFC]
  | .std => [0xFD]
  | .cli => [0xFA]
  | .sti => [0xFB]
  | .esc op reg rm => opPlus 0xD8 op :: encodeRm16 reg rm
  | .wait => [0x9B]
  | .nop => [0x90]
  | .inPort f => encodePort 0 f
  | .outPort f => encodePort 2 f
  | .prefixEs => [0x26]
  | .prefixCs => [0x2E]
  | .prefixSs => [0x36]
  | .prefixDs => [0x3E]
  | .prefixLock => [0xF0]
  | .prefixRepne => [0xF2]
  | .prefixRep => [0xF3]
  | .escape0F => [0x0F]
  | .undocumented op => [op]
  | .reserved op modrm => [op, modrm]
  | .into => [0xCE]
  | .aam => [0xD4]
  | .aad => [0xD5]
  | .leaReg reg rm => [0x8D, mkModRm 3 reg rm]
  | .lesReg reg rm => [0xC4, mkModRm 3 reg rm]
  | .ldsReg reg rm => [0xC5, mkModRm 3 reg rm]
  | .callFarReg rm => [0xFF, mkModRm 3 3 rm]
  | .jmpFarReg rm => [0xFF, mkModRm 3 5 rm]

end Sys2Proof
end

