-- ==== Sys2Proof/Config.lean ====
section
/-! DEFINITION. What the machine is given and what the spec leaves open: the types of the launch
parameters (their values stand in `State.params`, so that every statement holds for all of them) and
the free values, each an opaque constant about which nothing can be proved. -/

namespace Sys2Proof

/-- The `UNDEF_FLAGS` parameter (00_scope.md R8, 41_alu.md R225): what becomes of a flag that the
8086 reference leaves undefined and the document does not assign. -/
inductive UndefPolicy where
  | unchanged   -- the flag keeps its value (the spec's default)
  | draw        -- the flag takes an unconstrained bit
  deriving DecidableEq, Repr

/-- The launch parameters the spec leaves OPEN (R8) that instructions read. -/
structure Params where
  /-- `UNDEF_FLAGS` (R225). -/
  undef : UndefPolicy
  /-- `PIC_MASTER_CMD` (60_exceptions.md R530). -/
  masterCmd : Byte
  /-- `PIC_MASTER_DATA`. -/
  masterData : Byte
  /-- `PIC_SLAVE_CMD`. -/
  slaveCmd : Byte
  /-- `PIC_SLAVE_DATA`. -/
  slaveData : Byte
  deriving DecidableEq, Repr

/-- What a port device may do to the interrupt request lines during a port access (47_io.md R462,
60_exceptions.md R521, R526, R527). A device names only the sixteen lines that exist (log entry 7). -/
inductive LineCall where
  | request (line : Fin 16)            -- RequestInterrupt
  | ack (line : Fin 16)                -- AckInterrupt
  | level (line : Fin 16) (v : Bool)   -- the request predicate's new answer
  deriving DecidableEq, Repr

/-- The clock-cost tuple of an instruction (70_reset_and_hazards.md R631). -/
structure CostTuple where
  base : Nat
  noJump : Nat
  transfers : Nat
  eaFlag : Bool
  deriving DecidableEq, Repr, Inhabited

namespace Config

/-- `draw_1()` (00_scope.md R14): the n-th unconstrained bit, used only under `UNDEF_FLAGS = draw`. -/
opaque drawBit : Nat → Bool

/-- The byte that a device other than the controllers returns at the n-th free value (R462, U17). -/
opaque deviceByte : Nat → Byte

/-- The word that a device with wide access returns at the n-th free value (R462, U17). -/
opaque deviceWord : Nat → Word

/-- The calls on the interrupt lines that a device makes during a port access, at the n-th free value
(R462, U17). -/
opaque deviceLines : Nat → List LineCall

/-- `CostTuple(instr)`: OPEN (R631, 92_eei_decisions.md D25). -/
opaque costTuple : Instr → CostTuple

/-- Whether the direct-offset operands of opcodes `A0`..`A3` count as carrying a displacement: "not
stated" (R631). -/
opaque directOffsetHasEa : Bool

/-- The clock count of a step that vectors a controller interrupt: not in the document (R631). -/
opaque vectorClocks : BitVec 32

end Config

end Sys2Proof
end

