-- ==== Sys2Proof/Machine/State.lean ====
section
/-! DEFINITION. The state of the machine as plain data (spec 10_state.md; INVENTORY.md, section State,
lists every field with its rule), the fault and refusal reasons, and the state after reset. -/

namespace Sys2Proof.Machine

/-- The eight general registers (10_state.md R30); the byte halves are views of them (R31). -/
structure Regs where
  ax : Word
  cx : Word
  dx : Word
  bx : Word
  sp : Word
  bp : Word
  si : Word
  di : Word
  deriving DecidableEq, Repr

/-- The four segment registers (R34). -/
structure Segs where
  es : Word
  cs : Word
  ss : Word
  ds : Word
  deriving DecidableEq, Repr

/-- The nine tracked flags (R36). The 16-bit word a program sees is computed from them
(Machine/Flags.lean, R37); the untracked bits are not stored. -/
structure Flags where
  CF : Bool
  PF : Bool
  AF : Bool
  ZF : Bool
  SF : Bool
  TF : Bool
  IF : Bool
  DF : Bool
  OF : Bool
  deriving DecidableEq, Repr

/-- `init_step` of a controller (R41): 0, waiting for ICW2, ICW3, ICW4, and 4 = initialized. -/
inductive InitStep where
  | never
  | waitIcw2
  | waitIcw3
  | waitIcw4
  | ready
  deriving DecidableEq, Repr

/-- One interrupt controller instance (R41). `vbase`, `cascade_mask`, `cascade_line` and `aeoi` are
`icw[2]`, `icw[3]`, its lowest set bit and `icw[4][1]`: stored once, computed in Machine/Pic.lean.
`level` is the present answer of the eight request predicates, an input from the environment. -/
structure Pic where
  imr : Byte
  irr : Byte
  isr : Byte
  level : Byte
  initStep : InitStep
  icw1 : Byte
  icw2 : Byte
  icw3 : Byte
  icw4 : Byte
  readIsr : Bool
  deriving DecidableEq, Repr

/-- Which controller instance. -/
inductive Ctl where
  | master
  | slave
  deriving DecidableEq, Repr

/-- A port device (47_io.md R462): one of the two controllers, or a device of the platform. `wide`
says whether that device models wide access. -/
inductive Device where
  | pic (c : Ctl)
  | external (id : Nat) (wide : Bool)
  deriving DecidableEq, Repr

/-- A call made on a device of the platform (R462), as the environment sees it. -/
inductive PortCall where
  | readByte (id port : Nat)
  | readWord (id port : Nat)
  | writeByte (id port : Nat) (v : Byte)
  | writeWord (id port : Nat) (v : Word)
  deriving DecidableEq, Repr

/-- The repeat/lock prefix byte of the instruction being decoded (R40): 0, `F0`, `F2`, `F3`. -/
inductive RepPrefix where
  | none
  | lock
  | repne
  | rep
  deriving DecidableEq, Repr

/-- Memory: address and byte pairs, addresses strictly rising, no pair equal to what an unlisted
address reads as (Machine/Memory.lean gives the form and that value). -/
abbrev Memory := List Host.Cell

/-- The whole machine: registers, memory, controllers, port table and parameters; the decoder's
transient prefix record, which every step begins and ends with empty (R40, R102); and the model's own
fields: the free-value counter, the log of device calls, the clock count the last step returned. -/
structure State where
  regs : Regs
  segs : Segs
  ip : Word
  flags : Flags
  mem : Memory
  master : Pic
  slave : Pic
  ports : List (Nat × Device)
  params : Params
  segOverride : Option SReg
  rep : RepPrefix
  free : Nat
  portLog : List PortCall
  clocks : BitVec 32
  deriving DecidableEq, Repr

/-- Why the machine stops. All of them are fatal conditions of 60_exceptions.md R560 (no next state)
but the last, which is a machine that never finishes its step. -/
inductive Fault where
  /-- `DecodeFault`: a refused primary opcode (`modrm = none`) or a refused group slot or register
  form (R116, R118, R103, R289). Raised by the meanings of the refused rows. Safe: the spec's own
  outcome. -/
  | decodeFault (op : Byte) (modrm : Option Byte)
  /-- `PortFault`: IN or OUT to a port with no device, or above 255 (47_io.md R469). Raised by
  Machine/Ports.lean. Safe: the spec's own outcome. -/
  | portFault (port : Nat) (write : Bool)
  /-- `ConfigFault` (port conflict): a device claims an occupied port at attach time (R464). Raised
  by `attach` in Machine/Env.lean, never by a step. Safe: the spec's own outcome. -/
  | configPort (port : Nat)
  /-- `ConfigFault` (line): a line above 15 given to RequestInterrupt, AckInterrupt, GetVectorBase
  or GetVectorSize (R545). Raised by the environment's calls in Machine/Env.lean, never by a step.
  Safe: the spec's own outcome. -/
  | configLine (line : Nat)
  /-- The code segment holds nothing but prefix bytes, so decoding never ends (R102: "a hang, not a
  fault"). Raised by Machine/Run.lean. Safe: the model stops where the machine goes on without ever
  completing the step. -/
  | decodeHang
  deriving DecidableEq, Repr

/-- Why the model gives no meaning. -/
inductive Refusal where
  /-- The instruction has no meaning in this model yet. Raised by exec's arms only. Safe: it stops
  where the machine goes on. -/
  | notModelled (mnemonic : String)
  deriving DecidableEq, Repr

/-- A controller after reset (10_state.md R51); no predicate answers true (log entry 3). -/
def Pic.reset : Pic where
  imr := 0
  irr := 0
  isr := 0
  level := 0
  initStep := .never
  icw1 := 0
  icw2 := 0
  icw3 := 0
  icw4 := 0
  readIsr := false

/-- The machine right after reset (R50 to R53, 70_reset_and_hazards.md R600). The general registers
are unspecified there; the zeros are log entry 1. The port table holds the two controllers at the
Z-100 port numbers (log entry 4), memory lists nothing (log entry 2). -/
def State.reset : State where
  regs := ⟨0, 0, 0, 0, 0, 0, 0, 0⟩
  segs := ⟨0, 0xFFFF, 0, 0⟩
  ip := 0
  flags := ⟨false, false, false, false, false, false, false, false, false⟩
  mem := []
  master := Pic.reset
  slave := Pic.reset
  ports := [(0xF0, .pic .slave), (0xF1, .pic .slave), (0xF2, .pic .master), (0xF3, .pic .master)]
  params := ⟨.unchanged, 0xF2, 0xF3, 0xF0, 0xF1⟩
  segOverride := none
  rep := .none
  free := 0
  portLog := []
  clocks := 0

end Sys2Proof.Machine
end

