-- ==== Sys2Proof/Machine/Flags.lean ====
section
/-! DEFINITION. The FLAGS word (10_state.md R36, R37) and every flag derivation of the spec
(41_alu.md R220 to R225, 42_shift_rotate.md R281, 44_control_transfer.md R356). -/

namespace Sys2Proof.Machine

/-- The names of the nine tracked flags. -/
inductive Flag where
  | CF | PF | AF | ZF | SF | TF | IF | DF | OF
  deriving DecidableEq, Repr

def Flags.get (f : Flags) : Flag → Bool
  | .CF => f.CF | .PF => f.PF | .AF => f.AF | .ZF => f.ZF | .SF => f.SF
  | .TF => f.TF | .IF => f.IF | .DF => f.DF | .OF => f.OF

def Flags.set (f : Flags) (k : Flag) (v : Bool) : Flags :=
  match k with
  | .CF => { f with CF := v }
  | .PF => { f with PF := v }
  | .AF => { f with AF := v }
  | .ZF => { f with ZF := v }
  | .SF => { f with SF := v }
  | .TF => { f with TF := v }
  | .IF => { f with IF := v }
  | .DF => { f with DF := v }
  | .OF => { f with OF := v }

/-- A bit as a one-bit vector. -/
def bit (b : Bool) : BitVec 1 := BitVec.ofBool b

/-- `FLAGS_ALWAYS_ONE` (R37): bits 15..12 and bit 1. -/
def flagsAlwaysOne : Word := 0xF002

/-- The tracked bits at their positions (R36). -/
def Flags.tracked (f : Flags) : Word :=
  (0#4 ++ bit f.OF ++ bit f.DF ++ bit f.IF ++ bit f.TF : BitVec 8)
    ++ (bit f.SF ++ bit f.ZF ++ 0#1 ++ bit f.AF ++ 0#1 ++ bit f.PF ++ 0#1 ++ bit f.CF : BitVec 8)

/-- `ReadFLAGS()` (R37). -/
def Flags.word (f : Flags) : Word := f.tracked ||| flagsAlwaysOne

/-- `WriteFLAGS(v)` (R37): only the tracked bits are kept. -/
def Flags.ofWord (v : Word) : Flags where
  CF := v.getLsbD 0
  PF := v.getLsbD 2
  AF := v.getLsbD 4
  ZF := v.getLsbD 6
  SF := v.getLsbD 7
  TF := v.getLsbD 8
  IF := v.getLsbD 9
  DF := v.getLsbD 10
  OF := v.getLsbD 11

/-- `Parity(r)` (R220): the number of 1 bits of the byte is even. -/
def parity (b : Byte) : Bool :=
  !(b.getLsbD 0 ^^ b.getLsbD 1 ^^ b.getLsbD 2 ^^ b.getLsbD 3
    ^^ b.getLsbD 4 ^^ b.getLsbD 5 ^^ b.getLsbD 6 ^^ b.getLsbD 7)

/-- `SetSZP(w, r)` (R221). -/
def setSZP {n : Nat} (r : BitVec n) (f : Flags) : Flags :=
  { f with ZF := r == 0#n, SF := r.msb, PF := parity (r.setWidth 8) }

/-- `FlagsAdd(w, a, b, raw)` (R222); `raw` is the untruncated sum (or, for MUL and IMUL, product). -/
def flagsAdd {n : Nat} (a b : BitVec n) (raw : Nat) (f : Flags) : Flags :=
  { setSZP (BitVec.ofNat n raw) f with
    CF := decide (2 ^ n ≤ raw)
    OF := (a.msb == b.msb) && (raw.testBit (n - 1) != a.msb)
    AF := a.getLsbD 4 ^^ b.getLsbD 4 ^^ raw.testBit 4 }

/-- `FlagsSub(w, a, b, raw)` (R223); `raw` is the untruncated difference, `r` its low `w` bits. -/
def flagsSub {n : Nat} (a b : BitVec n) (raw : Int) (f : Flags) : Flags :=
  let r := BitVec.ofInt n raw
  { setSZP r f with
    CF := decide (raw < 0)
    OF := ((r ^^^ a) &&& (a ^^^ b)).msb
    AF := a.getLsbD 4 ^^ b.getLsbD 4 ^^ r.getLsbD 4 }

/-- `FlagsLogic(w, r)` (R224) without its `Undef(AF)`, which draws from the state. -/
def flagsLogic {n : Nat} (r : BitVec n) (f : Flags) : Flags :=
  { setSZP r f with CF := false, OF := false }

/-- The overflow expression of ROL, RCL and SHL with count 1 (R281). -/
def ovfLeft {n : Nat} (v : BitVec n) (c : Bool) : Bool := c ^^ v.msb

/-- The overflow expression of ROR, RCR, SHR and SAR with count 1 (R281). -/
def ovfRight {n : Nat} (v : BitVec n) (_c : Bool) : Bool := v.msb ^^ v.getLsbD (n - 2)

/-! The conditions of the sixteen conditional jumps (R356); an odd opcode negates the even one. -/

def condO (f : Flags) : Bool := f.OF
def condB (f : Flags) : Bool := f.CF
def condZ (f : Flags) : Bool := f.ZF
def condBE (f : Flags) : Bool := f.CF || f.ZF
def condS (f : Flags) : Bool := f.SF
def condP (f : Flags) : Bool := f.PF
def condL (f : Flags) : Bool := f.SF != f.OF
def condLE (f : Flags) : Bool := f.ZF || (f.SF != f.OF)

/-- The state with its flags changed by `g`. -/
def State.mapFlags (g : Flags → Flags) (s : State) : State := { s with flags := g s.flags }

/-- `Undef(F)` (R225): unchanged, or a bit about which nothing is known (log entry 5). -/
def State.undef (k : Flag) (s : State) : State :=
  match s.params.undef with
  | .unchanged => s
  | .draw => { s with flags := s.flags.set k (Config.drawBit s.free), free := s.free + 1 }

/-- `Undef` of several flags, in order. -/
def State.undefs (ks : List Flag) (s : State) : State := ks.foldl (fun t k => t.undef k) s

end Sys2Proof.Machine
end

