-- ==== Sys2Proof/Machine/Memory.lean ====
section
/-! DEFINITION. Memory as a list of cells in one canonical form, and the physical address
(20_memory.md R71, R72). Every one of the 2^20 addresses can be read and written; no access fails. -/

namespace Sys2Proof.Machine

/-- What an address that the list does not hold reads as. The spec leaves the contents after reset to
the platform (10_state.md R52). DESIGN CHOICE, unsafe: log entry 2. -/
def Memory.unlisted : Byte := 0

/-- `MemRead(a, 1)` (R71). -/
def Memory.read (a : Nat) : Memory → Byte
  | [] => Memory.unlisted
  | (b, v) :: m => if b = a then v else Memory.read a m

/-- `MemWrite(a, 1, v)` (R71), keeping the canonical form. -/
def Memory.write (a : Nat) (v : Byte) : Memory → Memory
  | [] => if v = Memory.unlisted then [] else [(a, v)]
  | (b, w) :: m =>
    if a < b then (if v = Memory.unlisted then (b, w) :: m else (a, v) :: (b, w) :: m)
    else if a = b then (if v = Memory.unlisted then m else (a, v) :: m)
    else (b, w) :: Memory.write a v m

/-- The canonical form from address `lo` upward: addresses strictly rising below 2^20, and no cell
equal to what an unlisted address reads as. -/
def Memory.wfFrom (lo : Nat) : Memory → Bool
  | [] => true
  | (b, v) :: m =>
    decide (lo ≤ b) && decide (b < 2 ^ 20) && v != Memory.unlisted && Memory.wfFrom (b + 1) m

/-- The canonical form. -/
def Memory.wf (m : Memory) : Bool := Memory.wfFrom 0 m

/-- `Phys(seg, off) = (seg * 16 + off) mod 2^20` (R72). -/
def phys (seg off : Word) : Nat := (seg.toNat * 16 + off.toNat) % 2 ^ 20

end Sys2Proof.Machine
end

