-- ==== Sys2Proof/Machine/Pic.lean ====
section
/-! DEFINITION. The interrupt controller: views of its stored bytes (10_state.md R41), the arbiter
(60_exceptions.md R520 to R524), request, acknowledge and service (R526 to R529), and the programming
protocol (R530 to R541). -/

namespace Sys2Proof.Machine

/-- `vbase` = ICW2, no bits masked off (R505, R533). -/
def Pic.vbase (c : Pic) : Byte := c.icw2

/-- `cascade_mask` = ICW3. -/
def Pic.cascadeMask (c : Pic) : Byte := c.icw3

/-- `aeoi` = bit 1 of ICW4. -/
def Pic.aeoi (c : Pic) : Bool := c.icw4.getLsbD 1

/-- The number of the lowest set bit of a byte among the given bit numbers, if any. -/
def lowestOf (b : Byte) : List Nat → Option Nat
  | [] => none
  | i :: is => if b.getLsbD i then some i else lowestOf b is

/-- The number of the lowest set bit of a byte, or none when it is zero. -/
def lowestSet (b : Byte) : Option Nat := lowestOf b [0, 1, 2, 3, 4, 5, 6, 7]

/-- `cascade_line` of the master (R41, R533). The slave has none. -/
def Pic.cascadeLine (c : Pic) : Option Nat := lowestSet c.cascadeMask

/-- The byte with bit `i` set. -/
def setBit (b : Byte) (i : Nat) : Byte := b ||| (1#8 <<< i)

/-- The byte with bit `i` cleared. -/
def clearBit (b : Byte) (i : Nat) : Byte := b &&& ~~~(1#8 <<< i)

/-- `req(c, i)` (R521). -/
def Pic.req (c : Pic) (i : Nat) : Bool := c.irr.getLsbD i || c.level.getLsbD i

/-- The scan of the arbiter over lines in priority order (R524): an in-service bit locks out its own
line and every later one; a masked line is skipped. -/
def Pic.scan (c : Pic) : List Nat → Option Nat
  | [] => none
  | i :: is =>
    if c.isr.getLsbD i then none
    else if !c.imr.getLsbD i && c.req i then some i
    else c.scan is

/-- The line of this instance that it would deliver: none before it is initialized (R42, R524). -/
def Pic.pick (c : Pic) : Option Nat :=
  match c.initStep with
  | .ready => c.scan [0, 1, 2, 3, 4, 5, 6, 7]
  | _ => none

/-- `GetNextInterrupt()` = `Next(master)` (R524): where the master's line is the cascade line the
answer is the slave's, none included. -/
def getNextInterrupt (master slave : Pic) : Option Nat :=
  match master.pick with
  | none => none
  | some i => if master.cascadeLine = some i then slave.pick.map (8 + ·) else some i

/-- `RequestService(c, i)` (R529). -/
def Pic.requestService (c : Pic) (i : Nat) : Pic :=
  if c.aeoi then c else { c with isr := setBit c.isr i }

/-- `AckService(c, i)` (R529). -/
def Pic.ackService (c : Pic) (i : Nat) : Pic := { c with isr := clearBit c.isr i }

/-- `ICW1(c, v)` (R532): starts the sequence; ICW2 to ICW4 keep their old bytes until overwritten. -/
def Pic.writeIcw1 (c : Pic) (v : Byte) : Pic :=
  { c with icw1 := v, initStep := .waitIcw2, imr := 0, irr := 0, isr := 0, readIsr := false }

/-- `OCW2(c, v)` (R535): every such byte is a non-specific end of interrupt. -/
def Pic.writeOcw2 (c : Pic) : Pic :=
  match lowestSet c.isr with
  | some i => c.ackService i
  | none => c

/-- `OCW3(c, v)` (R536). -/
def Pic.writeOcw3 (c : Pic) (v : Byte) : Pic :=
  if v.getLsbD 1 then { c with readIsr := v.getLsbD 0 } else c

/-- `WriteCommand(c, v)` (R531). -/
def Pic.writeCommand (c : Pic) (v : Byte) : Pic :=
  if v.getLsbD 4 then c.writeIcw1 v
  else match c.initStep with
    | .ready => if v.getLsbD 3 then c.writeOcw3 v else c.writeOcw2
    | _ => c

/-- `WriteData(c, v)` (R533, R534). -/
def Pic.writeData (c : Pic) (v : Byte) : Pic :=
  match c.initStep with
  | .never => c
  | .waitIcw2 => { c with icw2 := v, initStep := .waitIcw3 }
  | .waitIcw3 => { c with icw3 := v, initStep := .waitIcw4 }
  | .waitIcw4 => { c with icw4 := v, initStep := .ready }
  | .ready => { c with imr := v }

/-- `ReadCommand(c)` (R540). -/
def Pic.readCommand (c : Pic) : Byte := if c.readIsr then c.isr else c.irr ||| c.level

/-- `ReadData(c)` (R540). -/
def Pic.readData (c : Pic) : Byte := c.imr

/-- The instance. -/
def State.pic (s : State) : Ctl → Pic
  | .master => s.master
  | .slave => s.slave

/-- The state with the instance replaced. -/
def State.setPic (s : State) (k : Ctl) (c : Pic) : State :=
  match k with
  | .master => { s with master := c }
  | .slave => { s with slave := c }

/-- The master's cascade request bit changed by `g`, when the master has a cascade line. -/
def State.onCascade (g : Byte → Nat → Byte) (s : State) : State :=
  match s.master.cascadeLine with
  | some k => { s with master := { s.master with irr := g s.master.irr k } }
  | none => s

/-- `RequestInterrupt(line)` for a line 0..15 (R526). -/
def State.requestLine (line : Nat) (s : State) : State :=
  if line ≤ 7 then { s with master := { s.master with irr := setBit s.master.irr line } }
  else
    { s with slave := { s.slave with irr := setBit s.slave.irr (line - 8) } }.onCascade setBit

/-- `AckInterrupt(line)` for a line 0..15 (R527). -/
def State.ackLine (line : Nat) (s : State) : State :=
  if line ≤ 7 then { s with master := { s.master with irr := clearBit s.master.irr line } }
  else
    { s with slave := { s.slave with irr := clearBit s.slave.irr (line - 8) } }.onCascade clearBit

/-- The request predicate of a line 0..15 now answers `v` (R521). -/
def State.setLevel (line : Nat) (v : Bool) (s : State) : State :=
  let g := fun (b : Byte) (i : Nat) => if v then setBit b i else clearBit b i
  if line ≤ 7 then { s with master := { s.master with level := g s.master.level line } }
  else { s with slave := { s.slave with level := g s.slave.level (line - 8) } }

/-- `Deliver(line)` (R528). -/
def State.deliver (line : Nat) (s : State) : State :=
  let t := s.ackLine line
  if line ≤ 7 then { t with master := t.master.requestService line }
  else
    let u := { t with slave := t.slave.requestService (line - 8) }
    match u.master.cascadeLine with
    | some k => { u with master := u.master.requestService k }
    | none => u

/-- `GetNextInterrupt()` of the state. -/
def State.nextInterrupt (s : State) : Option Nat := getNextInterrupt s.master s.slave

/-- `vsize` of an instance, the constant `VECTOR_SIZE` (10_state.md R41, 00_scope.md R8). -/
def Pic.vsize (_c : Pic) : Nat := 4

/-- `VECTOR_DEFAULT_BASE` (00_scope.md R8). -/
def vectorDefaultBase : Nat := 0

/-- `VECTOR_DEFAULT_SIZE` (00_scope.md R8). -/
def vectorDefaultSize : Nat := 4

/-- `VectorNumber(n)` (R505). -/
def vectorNumber (master slave : Pic) (n : Nat) : Nat :=
  if n ≤ 7 then master.vbase.toNat + n
  else if n ≤ 15 then slave.vbase.toNat + (n - 8)
  else vectorDefaultBase + n

/-- `VectorSize(n)` (R505). -/
def vectorSize (master slave : Pic) (n : Nat) : Nat :=
  if n ≤ 7 then master.vsize
  else if n ≤ 15 then slave.vsize
  else vectorDefaultSize

/-- `VectorAddress(n)` (R505), not reduced. -/
def vectorAddress (master slave : Pic) (n : Nat) : Nat :=
  vectorNumber master slave n * vectorSize master slave n

end Sys2Proof.Machine
end

