-- ==== Sys2Proof/Machine/Ops.lean ====
section
/-! DEFINITION. The named operations over registers and memory (10_state.md R30 to R37, 20_memory.md
R72 to R78), instruction fetch, and taking an interrupt and returning from one (60_exceptions.md R504,
46_system.md R424). -/

namespace Sys2Proof

/-- The 16-bit register that a byte register is half of (R31). -/
def Reg8.owner : Reg8 → Reg16
  | .al => .ax | .cl => .cx | .dl => .dx | .bl => .bx
  | .ah => .ax | .ch => .cx | .dh => .dx | .bh => .bx

/-- The byte register is the high half. -/
def Reg8.isHigh : Reg8 → Bool
  | .al => false | .cl => false | .dl => false | .bl => false
  | .ah => true | .ch => true | .dh => true | .bh => true

end Sys2Proof

namespace Sys2Proof.Machine

/-- What a meaning answers. -/
abbrev Out := Host.Outcome State Fault Refusal

/-! Registers. -/

def State.reg16 (s : State) : Reg16 → Word
  | .ax => s.regs.ax | .cx => s.regs.cx | .dx => s.regs.dx | .bx => s.regs.bx
  | .sp => s.regs.sp | .bp => s.regs.bp | .si => s.regs.si | .di => s.regs.di

def Regs.set (g : Regs) (r : Reg16) (v : Word) : Regs :=
  match r with
  | .ax => { g with ax := v }
  | .cx => { g with cx := v }
  | .dx => { g with dx := v }
  | .bx => { g with bx := v }
  | .sp => { g with sp := v }
  | .bp => { g with bp := v }
  | .si => { g with si := v }
  | .di => { g with di := v }

def State.setReg16 (s : State) (r : Reg16) (v : Word) : State := { s with regs := s.regs.set r v }

def State.reg8 (s : State) (r : Reg8) : Byte :=
  if r.isHigh then hiByte (s.reg16 r.owner) else loByte (s.reg16 r.owner)

/-- A write to a half leaves the other half (R31). -/
def State.setReg8 (s : State) (r : Reg8) (v : Byte) : State :=
  let w := s.reg16 r.owner
  s.setReg16 r.owner (if r.isHigh then mkWord (loByte w) v else mkWord v (hiByte w))

def State.sreg (s : State) : SReg → Word
  | .es => s.segs.es | .cs => s.segs.cs | .ss => s.segs.ss | .ds => s.segs.ds

def Segs.set (g : Segs) (r : SReg) (v : Word) : Segs :=
  match r with
  | .es => { g with es := v }
  | .cs => { g with cs := v }
  | .ss => { g with ss := v }
  | .ds => { g with ds := v }

def State.setSreg (s : State) (r : SReg) (v : Word) : State := { s with segs := s.segs.set r v }

def State.setIp (s : State) (v : Word) : State := { s with ip := v }

/-! Memory (R74, R11). -/

def State.read8 (s : State) (seg off : Word) : Byte := s.mem.read (phys seg off)

def State.write8 (s : State) (seg off : Word) (v : Byte) : State :=
  { s with mem := s.mem.write (phys seg off) v }

/-- The second byte is at the next offset of the same segment, modulo 2^16. -/
def State.read16 (s : State) (seg off : Word) : Word :=
  mkWord (s.read8 seg off) (s.read8 seg (off + 1))

def State.write16 (s : State) (seg off : Word) (v : Word) : State :=
  (s.write8 seg off (loByte v)).write8 seg (off + 1) (hiByte v)

/-- `MemRead(a, 2)` (R11), used for the vector table only. -/
def State.readPhys16 (s : State) (a : Nat) : Word :=
  mkWord (s.mem.read (a % 2 ^ 20)) (s.mem.read ((a + 1) % 2 ^ 20))

/-! The stack (R77). -/

def State.push16 (v : Word) (s : State) : State :=
  let t := s.setReg16 .sp (s.regs.sp - 2)
  t.write16 t.segs.ss t.regs.sp v

/-- The word that `Pop16()` returns. -/
def State.top16 (s : State) : Word := s.read16 s.segs.ss s.regs.sp

/-- What `Pop16()` leaves. -/
def State.drop16 (s : State) : State := s.setReg16 .sp (s.regs.sp + 2)

/-! Instruction fetch (R78). The bytes are read ahead as a list; only as many count as the decoder
uses, and reading memory has no effect (R71). -/

/-- The byte `k` places after `CS:ip`. -/
def State.codeByte (s : State) (k : Nat) : Byte := s.read8 s.segs.cs (s.ip + BitVec.ofNat 16 k)

/-- The next six bytes of the instruction stream. -/
def State.window (s : State) : List Byte :=
  [s.codeByte 0, s.codeByte 1, s.codeByte 2, s.codeByte 3, s.codeByte 4, s.codeByte 5]

/-- `ip` moved past `n` fetched bytes. -/
def State.advance (n : Nat) (s : State) : State := { s with ip := s.ip + BitVec.ofNat 16 n }

/-- The item at `CS:ip` and how many bytes it has (R119). -/
def State.fetch (s : State) : Except DecodeError (Instr × Nat) :=
  match decode s.window with
  | .ok (i, rest) => .ok (i, maxItemBytes - rest.length)
  | .error e => .error e

/-! Interrupt entry and return. -/

/-- Who raised the interrupt (R504). -/
inductive VectorKind where
  | software
  | hardware
  deriving DecidableEq, Repr

/-- `Vector(n, kind)` (R504): push FLAGS, CS, ip; read the new ip and CS from the vector table; a
controller interrupt also clears IF. -/
def State.vector (n : Nat) (kind : VectorKind) (s : State) : State :=
  let t := ((s.push16 s.flags.word).push16 s.segs.cs).push16 s.ip
  let a := vectorAddress t.master t.slave n
  let newIp := t.readPhys16 a
  let newCs := t.readPhys16 ((a + 2) % 2 ^ 20)
  let u : State :=
    match kind with
    | .hardware => { t with flags := { t.flags with IF := false } }
    | .software => t
  (u.setIp newIp).setSreg .cs newCs

/-- The return of IRET (R424): pop ip, CS and FLAGS. -/
def State.returnFromInterrupt (s : State) : State :=
  let t := s.drop16.setIp s.top16
  let u := t.drop16.setSreg .cs t.top16
  { u.drop16 with flags := Flags.ofWord u.top16 }

end Sys2Proof.Machine
end

