-- ==== Sys2Proof/Machine/Operands.lean ====
section
/-! DEFINITION. Resolved operands: effective offset and segment (30_encoding.md R111), reading and
writing at either width (R112), and the two operands of every form (R107, R226). -/

namespace Sys2Proof

/-- The base uses BP, whose default segment is SS (R76, R111). -/
def Base.usesBp : Base → Bool
  | .bpsi => true
  | .bpdi => true
  | .bp => true
  | .bxsi => false
  | .bxdi => false
  | .si => false
  | .di => false
  | .bx => false

/-- The default segment register of a memory operand (R76). -/
def MemRef.defaultSeg : MemRef → SReg
  | .base0 b => if b.usesBp then .ss else .ds
  | .base8 b _ => if b.usesBp then .ss else .ds
  | .base16 b _ => if b.usesBp then .ss else .ds
  | .direct _ => .ds

/-- A resolved operand of width 8 (R110). -/
inductive Op8 where
  | reg (r : Reg8)
  | mem (m : MemRef)
  | imm (v : Byte)
  deriving DecidableEq, Repr

/-- A resolved operand of width 16 (R110). -/
inductive Op16 where
  | reg (r : Reg16)
  | sreg (r : SReg)
  | flags
  | mem (m : MemRef)
  | imm (v : Word)
  deriving DecidableEq, Repr

def Op8.ofRm : Rm8 → Op8
  | .reg r => .reg r
  | .mem m => .mem m

def Op16.ofRm : Rm16 → Op16
  | .reg r => .reg r
  | .mem m => .mem m

/-- Operand 1 and operand 2 of a two-operand form, at the form's width. -/
inductive Pair where
  | b (op1 op2 : Op8)
  | w (op1 op2 : Op16)
  deriving DecidableEq, Repr

/-- Operand 1 of a one-operand form. -/
inductive Single where
  | b (op1 : Op8)
  | w (op1 : Op16)
  deriving DecidableEq, Repr

def AluForm.ops : AluForm → Pair
  | .rmR8 rm r => .b (.ofRm rm) (.reg r)
  | .rmR16 rm r => .w (.ofRm rm) (.reg r)
  | .rRm8 r rm => .b (.reg r) (.ofRm rm)
  | .rRm16 r rm => .w (.reg r) (.ofRm rm)
  | .alImm v => .b (.reg .al) (.imm v)
  | .axImm v => .w (.reg .ax) (.imm v)
  | .rmImm8 rm v => .b (.ofRm rm) (.imm v)
  | .rmImm16 rm v => .w (.ofRm rm) (.imm v)
  | .rmImm8Alias rm v => .b (.ofRm rm) (.imm v)
  | .rmImmSx rm v => .w (.ofRm rm) (.imm (sext16 v))

def TestForm.ops : TestForm → Pair
  | .rmR8 rm r => .b (.ofRm rm) (.reg r)
  | .rmR16 rm r => .w (.ofRm rm) (.reg r)
  | .alImm v => .b (.reg .al) (.imm v)
  | .axImm v => .w (.reg .ax) (.imm v)
  | .rmImm8 rm v => .b (.ofRm rm) (.imm v)
  | .rmImm16 rm v => .w (.ofRm rm) (.imm v)

def IncForm.op : IncForm → Single
  | .reg r => .w (.reg r)
  | .rm8 rm => .b (.ofRm rm)
  | .rm16 rm => .w (.ofRm rm)

def UnForm.op : UnForm → Single
  | .rm8 rm => .b (.ofRm rm)
  | .rm16 rm => .w (.ofRm rm)

def MovForm.ops : MovForm → Pair
  | .rmR8 rm r => .b (.ofRm rm) (.reg r)
  | .rmR16 rm r => .w (.ofRm rm) (.reg r)
  | .rRm8 r rm => .b (.reg r) (.ofRm rm)
  | .rRm16 r rm => .w (.reg r) (.ofRm rm)
  | .rmSreg _ rm r => .w (.ofRm rm) (.sreg r)
  | .sregRm _ r rm => .w (.sreg r) (.ofRm rm)
  | .alMoffs a => .b (.reg .al) (.mem (.direct a))
  | .axMoffs a => .w (.reg .ax) (.mem (.direct a))
  | .moffsAl a => .b (.mem (.direct a)) (.reg .al)
  | .moffsAx a => .w (.mem (.direct a)) (.reg .ax)
  | .r8Imm r v => .b (.reg r) (.imm v)
  | .r16Imm r v => .w (.reg r) (.imm v)
  | .rmImm8 _ rm v => .b (.ofRm rm) (.imm v)
  | .rmImm16 _ rm v => .w (.ofRm rm) (.imm v)

def XchgForm.ops : XchgForm → Pair
  | .rmR8 rm r => .b (.ofRm rm) (.reg r)
  | .rmR16 rm r => .w (.ofRm rm) (.reg r)
  | .axR r => .w (.reg .ax) (.reg r)

def PushForm.op : PushForm → Op16
  | .sreg r => .sreg r
  | .reg r => .reg r
  | .rm x => .ofRm x

def PopForm.op : PopForm → Op16
  | .sreg r => .sreg r
  | .reg r => .reg r
  | .rm _ x => .ofRm x

end Sys2Proof

namespace Sys2Proof.Machine

/-- `BaseValue(base)` (R111). -/
def State.baseValue (s : State) : Base → Word
  | .bxsi => s.regs.bx + s.regs.si
  | .bxdi => s.regs.bx + s.regs.di
  | .bpsi => s.regs.bp + s.regs.si
  | .bpdi => s.regs.bp + s.regs.di
  | .si => s.regs.si
  | .di => s.regs.di
  | .bp => s.regs.bp
  | .bx => s.regs.bx

/-- `EAoff` (R111), modulo 2^16. -/
def State.eaOff (s : State) : MemRef → Word
  | .base0 b => s.baseValue b
  | .base8 b d => s.baseValue b + sext16 d
  | .base16 b d => s.baseValue b + d
  | .direct a => a

/-- The segment override where there is one, else the given default (R102, R111, R390). -/
def State.segOr (s : State) (dflt : SReg) : Word := s.sreg (s.segOverride.getD dflt)

/-- `EAseg` (R111). -/
def State.eaSeg (s : State) (m : MemRef) : Word := s.segOr (m.defaultSeg)

/-- `ReadOp(op, 8)` (R112). -/
def State.get8 (s : State) : Op8 → Byte
  | .reg r => s.reg8 r
  | .mem m => s.read8 (s.eaSeg m) (s.eaOff m)
  | .imm v => v

/-- `ReadOp(op, 16)` (R112). -/
def State.get16 (s : State) : Op16 → Word
  | .reg r => s.reg16 r
  | .sreg r => s.sreg r
  | .flags => s.flags.word
  | .mem m => s.read16 (s.eaSeg m) (s.eaOff m)
  | .imm v => v

/-- `WriteOp(op, 8, v)` (R112). An immediate is not writable (R110); no form has one as operand 1
where it writes. -/
def State.put8 (o : Op8) (v : Byte) (s : State) : State :=
  match o with
  | .reg r => s.setReg8 r v
  | .mem m => s.write8 (s.eaSeg m) (s.eaOff m) v
  | .imm _ => s

/-- `WriteOp(op, 16, v)` (R112). -/
def State.put16 (o : Op16) (v : Word) (s : State) : State :=
  match o with
  | .reg r => s.setReg16 r v
  | .sreg r => s.setSreg r v
  | .flags => { s with flags := Flags.ofWord v }
  | .mem m => s.write16 (s.eaSeg m) (s.eaOff m) v
  | .imm _ => s

/-- The count of a shift or rotate (42_shift_rotate.md R280): the full byte, not masked. -/
def State.count (s : State) : Count → Nat
  | .one => 1
  | .cl => (s.reg8 .cl).toNat
  | .imm n => n.toNat

/-- The far pointer that a memory operand points to (R192, R355): offset word, then segment word. -/
def State.farPtr (s : State) (m : MemRef) : Word × Word :=
  (s.read16 (s.eaSeg m) (s.eaOff m), s.read16 (s.eaSeg m) (s.eaOff m + 2))

end Sys2Proof.Machine
end

