-- ==== Sys2Proof/Machine/Control.lean ====
section
/-! DEFINITION. Jumps, loops, calls and returns (44_control_transfer.md R350 to R368). `ip` is past
the instruction when a meaning runs. -/

namespace Sys2Proof.Machine

/-- A relative transfer (R350). -/
def State.jumpRel (d : Word) (s : State) : State := s.setIp (s.ip + d)

/-- A short transfer under a condition (R356). -/
def State.jumpIf (c : Bool) (d : Byte) (s : State) : State :=
  if c then s.jumpRel (sext16 d) else s

/-- A far transfer: CS and ip. -/
def State.jumpFar (off seg : Word) (s : State) : State := (s.setIp off).setSreg .cs seg

/-- The pushes of a far call: CS, then ip (R363). -/
def State.pushFar (s : State) : State := (s.push16 s.segs.cs).push16 s.ip

/-- The pops of a far return: ip, then CS (R367). -/
def State.popFar (s : State) : State :=
  let t := s.drop16.setIp s.top16
  t.drop16.setSreg .cs t.top16

/-- `SP <- SP + n` (R366, R368). -/
def State.release (n : Word) (s : State) : State := s.setReg16 .sp (s.regs.sp + n)

/-- The delta of the near direct JMP (R351, R352). -/
def jmpDelta : JmpForm → Word
  | .rel16 d => d
  | .rel8 d => sext16 d

/-- The parameter bytes that a return releases. -/
def retRelease : RetForm → Word
  | .imm n => n
  | .plain => 0

def execJmp (f : JmpForm) (s : State) : Out := .next (s.jumpRel (jmpDelta f))
/-- `JMP far` (R354). -/
def execJmpFar (off seg : Word) (s : State) : Out := .next (s.jumpFar off seg)
/-- `JMP r/m16` (R353). -/
def execJmpInd (rm : Rm16) (s : State) : Out := .next (s.setIp (s.get16 (.ofRm rm)))
/-- `JMP far [m]` (R355). -/
def execJmpFarInd (m : MemRef) (s : State) : Out :=
  .next (s.jumpFar (s.farPtr m).1 (s.farPtr m).2)

/-! The conditional jumps (R356). -/

def execJo (d : Byte) (s : State) : Out := .next (s.jumpIf (condO s.flags) d)
def execJno (d : Byte) (s : State) : Out := .next (s.jumpIf (!condO s.flags) d)
def execJb (d : Byte) (s : State) : Out := .next (s.jumpIf (condB s.flags) d)
def execJnb (d : Byte) (s : State) : Out := .next (s.jumpIf (!condB s.flags) d)
def execJz (d : Byte) (s : State) : Out := .next (s.jumpIf (condZ s.flags) d)
def execJnz (d : Byte) (s : State) : Out := .next (s.jumpIf (!condZ s.flags) d)
def execJbe (d : Byte) (s : State) : Out := .next (s.jumpIf (condBE s.flags) d)
def execJa (d : Byte) (s : State) : Out := .next (s.jumpIf (!condBE s.flags) d)
def execJs (d : Byte) (s : State) : Out := .next (s.jumpIf (condS s.flags) d)
def execJns (d : Byte) (s : State) : Out := .next (s.jumpIf (!condS s.flags) d)
def execJp (d : Byte) (s : State) : Out := .next (s.jumpIf (condP s.flags) d)
def execJnp (d : Byte) (s : State) : Out := .next (s.jumpIf (!condP s.flags) d)
def execJl (d : Byte) (s : State) : Out := .next (s.jumpIf (condL s.flags) d)
def execJge (d : Byte) (s : State) : Out := .next (s.jumpIf (!condL s.flags) d)
def execJle (d : Byte) (s : State) : Out := .next (s.jumpIf (condLE s.flags) d)
def execJg (d : Byte) (s : State) : Out := .next (s.jumpIf (!condLE s.flags) d)

/-- `CX <- CX - 1`, no flag (R357 to R359, R391). -/
def State.countDown (s : State) : State := s.setReg16 .cx (s.regs.cx - 1)

/-- Whether LOOP, LOOPZ, LOOPNZ take their jump, from the state before the decrement. -/
def loopTaken (s : State) : Bool := s.regs.cx - 1 != 0
def loopzTaken (s : State) : Bool := loopTaken s && condZ s.flags
def loopnzTaken (s : State) : Bool := loopTaken s && !condZ s.flags

/-- Whether JCXZ takes its jump (R360). -/
def jcxzTaken (s : State) : Bool := s.regs.cx == 0

def execLoop (d : Byte) (s : State) : Out := .next (s.countDown.jumpIf (loopTaken s) d)
def execLoopz (d : Byte) (s : State) : Out := .next (s.countDown.jumpIf (loopzTaken s) d)
def execLoopnz (d : Byte) (s : State) : Out := .next (s.countDown.jumpIf (loopnzTaken s) d)
def execJcxz (d : Byte) (s : State) : Out := .next (s.jumpIf (jcxzTaken s) d)

/-- `CALL rel16` (R361). -/
def execCall (d : Word) (s : State) : Out := .next ((s.push16 s.ip).setIp (s.ip + d))
/-- `CALL far` (R363). -/
def execCallFar (off seg : Word) (s : State) : Out := .next (s.pushFar.jumpFar off seg)
/-- `CALL r/m16` (R362): the target is read before the push. -/
def execCallInd (rm : Rm16) (s : State) : Out :=
  .next ((s.push16 s.ip).setIp (s.get16 (.ofRm rm)))
/-- `CALL far [m]` (R364): the pointer is read before the pushes. -/
def execCallFarInd (m : MemRef) (s : State) : Out :=
  .next (s.pushFar.jumpFar (s.farPtr m).1 (s.farPtr m).2)

/-- `RET` (R365, R366). -/
def execRet (f : RetForm) (s : State) : Out :=
  .next ((s.drop16.setIp s.top16).release (retRelease f))
/-- `RETF` (R367, R368). -/
def execRetf (f : RetForm) (s : State) : Out := .next (s.popFar.release (retRelease f))

end Sys2Proof.Machine
end

