-- ==== Sys2Proof/Machine/Shift.lean ====
section
/-! DEFINITION. The shift and rotate group (42_shift_rotate.md R280 to R288): each operation is its
one-bit step, repeated. -/

namespace Sys2Proof

/-- The operand and the count of a form (R280). -/
def ShiftForm.op : ShiftForm → Single × Count
  | .rm8 rm n => (.b (.ofRm rm), n)
  | .rm16 rm n => (.w (.ofRm rm), n)

end Sys2Proof

namespace Sys2Proof.Machine

/-- A bit as a value of width `n`. -/
def wide (n : Nat) (b : Bool) : BitVec n := (BitVec.ofBool b).setWidth n

/-- A one-bit step: the value and CF before, the value and CF after. -/
abbrev ShiftStep := {n : Nat} → BitVec n → Bool → BitVec n × Bool

def rolStep : ShiftStep := fun {n} v _ => (v <<< 1 ||| wide n v.msb, v.msb)
def rorStep : ShiftStep := fun {n} v _ =>
  (v >>> 1 ||| wide n (v.getLsbD 0) <<< (n - 1), v.getLsbD 0)
def rclStep : ShiftStep := fun {n} v c => (v <<< 1 ||| wide n c, v.msb)
def rcrStep : ShiftStep := fun {n} v c => (v >>> 1 ||| wide n c <<< (n - 1), v.getLsbD 0)
def shlStep : ShiftStep := fun v _ => (v <<< 1, v.msb)
def shrStep : ShiftStep := fun v _ => (v >>> 1, v.getLsbD 0)
def sarStep : ShiftStep := fun {n} v _ =>
  (v >>> 1 ||| wide n v.msb <<< (n - 1), v.getLsbD 0)

/-- `repeat n times` (R281). -/
def shiftLoop (step : ShiftStep) {n : Nat} : Nat → BitVec n → Bool → BitVec n × Bool
  | 0, v, c => (v, c)
  | k + 1, v, c => shiftLoop step k (step v c).1 (step v c).2

/-- One operation of the group: its step, its overflow expression, and whether it also writes SF, ZF,
PF (the shifts do, the rotates do not). -/
structure ShiftOp where
  step : ShiftStep
  ovf : {n : Nat} → BitVec n → Bool → Bool
  szp : Bool

def rolOp : ShiftOp := ⟨rolStep, ovfLeft, false⟩
def rorOp : ShiftOp := ⟨rorStep, ovfRight, false⟩
def rclOp : ShiftOp := ⟨rclStep, ovfLeft, false⟩
def rcrOp : ShiftOp := ⟨rcrStep, ovfRight, false⟩
def shlOp : ShiftOp := ⟨shlStep, ovfLeft, true⟩
def shrOp : ShiftOp := ⟨shrStep, ovfRight, true⟩
def sarOp : ShiftOp := ⟨sarStep, ovfRight, true⟩

/-- The flags after a shift by `k ≥ 1` whose result is `v` and last carry `c` (R281). -/
def State.shiftFlags (op : ShiftOp) (k : Nat) {n : Nat} (v : BitVec n) (c : Bool) (s : State) :
    State :=
  let t := s.mapFlags fun f => { f with CF := c }
  let u := if k = 1 then t.mapFlags fun f => { f with OF := op.ovf v c } else t.undef .OF
  if op.szp then (u.mapFlags (setSZP v)).undef .AF else u

/-- The common skeleton (R281): a count of zero writes nothing. The count is read first. -/
def State.shift (op : ShiftOp) (f : ShiftForm) (s : State) : State :=
  let k := s.count f.op.2
  if k = 0 then s
  else match f.op.1 with
    | .b o =>
      let r := shiftLoop op.step k (s.get8 o) s.flags.CF
      (s.put8 o r.1).shiftFlags op k r.1 r.2
    | .w o =>
      let r := shiftLoop op.step k (s.get16 o) s.flags.CF
      (s.put16 o r.1).shiftFlags op k r.1 r.2

def execRol (f : ShiftForm) (s : State) : Out := .next (s.shift rolOp f)
def execRor (f : ShiftForm) (s : State) : Out := .next (s.shift rorOp f)
def execRcl (f : ShiftForm) (s : State) : Out := .next (s.shift rclOp f)
def execRcr (f : ShiftForm) (s : State) : Out := .next (s.shift rcrOp f)
def execShl (f : ShiftForm) (s : State) : Out := .next (s.shift shlOp f)
def execShr (f : ShiftForm) (s : State) : Out := .next (s.shift shrOp f)
def execSar (f : ShiftForm) (s : State) : Out := .next (s.shift sarOp f)

end Sys2Proof.Machine
end

