-- ==== Sys2Proof/Machine/Clock.lean ====
section
/-! DEFINITION. The clock count that a step returns (70_reset_and_hazards.md R630, R631): an output that
no instruction reads. The cost tuples are free values (Config.costTuple); the structure is the
spec's. -/

namespace Sys2Proof

/-- A memory operand that "carries a displacement" (R631). -/
def MemRef.hasEa : MemRef → Bool
  | .base0 _ => false
  | .base8 _ _ => true
  | .base16 _ _ => true
  | .direct _ => true

def Op8.hasEa : Op8 → Bool
  | .mem m => m.hasEa
  | .reg _ => false
  | .imm _ => false

def Op16.hasEa : Op16 → Bool
  | .mem m => m.hasEa
  | .reg _ => false
  | .sreg _ => false
  | .flags => false
  | .imm _ => false

def Pair.hasEa : Pair → Bool
  | .b o1 o2 => o1.hasEa || o2.hasEa
  | .w o1 o2 => o1.hasEa || o2.hasEa

def Single.hasEa : Single → Bool
  | .b o => o.hasEa
  | .w o => o.hasEa

def Pair.isByte : Pair → Bool
  | .b _ _ => true
  | .w _ _ => false

def Single.isByte : Single → Bool
  | .b _ => true
  | .w _ => false

/-- The direct-offset forms are the ones the spec leaves unsettled. -/
def MovForm.hasEa (f : MovForm) : Bool :=
  match f with
  | .alMoffs _ => Config.directOffsetHasEa
  | .axMoffs _ => Config.directOffsetHasEa
  | .moffsAl _ => Config.directOffsetHasEa
  | .moffsAx _ => Config.directOffsetHasEa
  | _ => f.ops.hasEa

def PortForm.isByte : PortForm → Bool
  | .byteImm _ => true
  | .byteDx => true
  | .wordImm _ => false
  | .wordDx => false

/-- The number of operands with `has_ea = 1`: no instruction has more than one memory operand. -/
def Instr.eaOperands (i : Instr) : Nat :=
  let one (b : Bool) : Nat := if b then 1 else 0
  match i with
  | .add f | .or f | .adc f | .sbb f | .and f | .sub f | .xor f | .cmp f => one f.ops.hasEa
  | .test f => one f.ops.hasEa
  | .inc f | .dec f => one f.op.hasEa
  | .not f | .neg f | .mul f | .imul f | .div f | .idiv f => one f.op.hasEa
  | .rol f | .ror f | .rcl f | .rcr f | .shl f | .shr f | .sar f => one f.op.1.hasEa
  | .mov f => one f.hasEa
  | .xchg f => one f.ops.hasEa
  | .push f => one f.op.hasEa
  | .pop f => one f.op.hasEa
  | .lea _ m | .lds _ m | .les _ m | .jmpFarInd m | .callFarInd m => one m.hasEa
  | .jmpInd rm | .callInd rm | .esc _ _ rm => one (Op16.ofRm rm).hasEa
  | _ => 0

/-- The width that spec/opcode_table.json gives the row is 8. -/
def Instr.isByte (i : Instr) : Bool :=
  match i with
  | .add f | .or f | .adc f | .sbb f | .and f | .sub f | .xor f | .cmp f => f.ops.isByte
  | .test f => f.ops.isByte
  | .inc f | .dec f => f.op.isByte
  | .not f | .neg f | .mul f | .imul f | .div f | .idiv f => f.op.isByte
  | .rol f | .ror f | .rcl f | .rcr f | .shl f | .shr f | .sar f => f.op.1.isByte
  | .mov f => f.ops.isByte
  | .xchg f => f.ops.isByte
  | .inPort f | .outPort f => f.isByte
  | .daa | .das | .aaa | .aas | .cbw | .sahf | .lahf | .xlat => true
  | .movsb | .cmpsb | .stosb | .lodsb | .scasb => true
  | .jo _ | .jno _ | .jb _ | .jnb _ | .jz _ | .jnz _ | .jbe _ | .ja _ => true
  | .js _ | .jns _ | .jp _ | .jnp _ | .jl _ | .jge _ | .jle _ | .jg _ => true
  | _ => false

end Sys2Proof

namespace Sys2Proof.Machine

/-- The instruction is a conditional transfer that is not taken from state `s`. -/
def State.notTaken (s : State) (i : Instr) : Bool :=
  match i with
  | .jo _ => !condO s.flags
  | .jno _ => condO s.flags
  | .jb _ => !condB s.flags
  | .jnb _ => condB s.flags
  | .jz _ => !condZ s.flags
  | .jnz _ => condZ s.flags
  | .jbe _ => !condBE s.flags
  | .ja _ => condBE s.flags
  | .js _ => !condS s.flags
  | .jns _ => condS s.flags
  | .jp _ => !condP s.flags
  | .jnp _ => condP s.flags
  | .jl _ => !condL s.flags
  | .jge _ => condL s.flags
  | .jle _ => !condLE s.flags
  | .jg _ => condLE s.flags
  | .loop _ => !loopTaken s
  | .loopz _ => !loopzTaken s
  | .loopnz _ => !loopnzTaken s
  | .jcxz _ => !jcxzTaken s
  | _ => false

/-- `ClockCost(instr)` (R631), as the 32-bit count of R6; `s` is the state that the instruction runs
from. -/
def clockCost (i : Instr) (s : State) : BitVec 32 :=
  let t := Config.costTuple i
  let base := if s.notTaken i then t.noJump else t.base
  let ea := if t.eaFlag then 12 * i.eaOperands else 0
  BitVec.ofNat 32 (base + t.transfers * (if i.isByte then 4 else 8) + ea)

end Sys2Proof.Machine
end

