-- ==== Sys2Proof/Machine/Alu.lean ====
section
/-! DEFINITION. Two-operand arithmetic and logic, INC, DEC, NEG, NOT (41_alu.md R226 to R243). -/

namespace Sys2Proof.Machine

/-- What a two-operand operation computes at width `n`: the result, and the state with its flags. -/
abbrev BinaryOp := {n : Nat} → BitVec n → BitVec n → State → BitVec n × State

/-- What a one-operand operation computes. -/
abbrev UnaryOp := {n : Nat} → BitVec n → State → BitVec n × State

/-- `ADD` (R230). -/
def addOp : BinaryOp := fun {n} a b s =>
  let raw := a.toNat + b.toNat
  (BitVec.ofNat n raw, s.mapFlags (flagsAdd a b raw))

/-- `ADC` (R232): the carry-in is added and is not part of `b`. -/
def adcOp : BinaryOp := fun {n} a b s =>
  let raw := a.toNat + b.toNat + s.flags.CF.toNat
  (BitVec.ofNat n raw, s.mapFlags (flagsAdd a b raw))

/-- `SUB` and `CMP` (R235, R237). -/
def subOp : BinaryOp := fun {n} a b s =>
  let raw : Int := a.toNat - b.toNat
  (BitVec.ofInt n raw, s.mapFlags (flagsSub a b raw))

/-- `SBB` (R233). -/
def sbbOp : BinaryOp := fun {n} a b s =>
  let raw : Int := a.toNat - b.toNat - s.flags.CF.toNat
  (BitVec.ofInt n raw, s.mapFlags (flagsSub a b raw))

/-- The flags and the result of a bitwise operation (R224), `Undef(AF)` included. -/
def logicResult {n : Nat} (r : BitVec n) (s : State) : BitVec n × State :=
  (r, (s.mapFlags (flagsLogic r)).undef .AF)

/-- `AND` and `TEST` (R234, R238). -/
def andOp : BinaryOp := fun a b s => logicResult (a &&& b) s

/-- `OR` (R231). -/
def orOp : BinaryOp := fun a b s => logicResult (a ||| b) s

/-- `XOR` (R236). -/
def xorOp : BinaryOp := fun a b s => logicResult (a ^^^ b) s

/-- `INC` (R240): the add family's flags, but CF keeps its value. -/
def incOp : UnaryOp := fun {n} a s =>
  let raw := a.toNat + 1
  (BitVec.ofNat n raw, s.mapFlags fun f => { flagsAdd a 1#n raw f with CF := f.CF })

/-- `DEC` (R241). -/
def decOp : UnaryOp := fun {n} a s =>
  let raw : Int := a.toNat - 1
  (BitVec.ofInt n raw, s.mapFlags fun f => { flagsSub a 1#n raw f with CF := f.CF })

/-- `NEG` (R242): zero minus the operand. -/
def negOp : UnaryOp := fun {n} b s =>
  let raw : Int := 0 - b.toNat
  (BitVec.ofInt n raw, s.mapFlags (flagsSub 0#n b raw))

/-- `NOT` (R243): no flag. -/
def notOp : UnaryOp := fun a s => (~~~a, s)

/-- The common skeleton (R226): read both operands, compute, write back to operand 1. -/
def State.binary (f : BinaryOp) (p : Pair) (s : State) : State :=
  match p with
  | .b o1 o2 => (f (s.get8 o1) (s.get8 o2) s).2.put8 o1 (f (s.get8 o1) (s.get8 o2) s).1
  | .w o1 o2 => (f (s.get16 o1) (s.get16 o2) s).2.put16 o1 (f (s.get16 o1) (s.get16 o2) s).1

/-- The skeleton with the write-back suppressed (CMP, TEST). -/
def State.compare (f : BinaryOp) (p : Pair) (s : State) : State :=
  match p with
  | .b o1 o2 => (f (s.get8 o1) (s.get8 o2) s).2
  | .w o1 o2 => (f (s.get16 o1) (s.get16 o2) s).2

/-- The skeleton of the one-operand operations. -/
def State.unary (f : UnaryOp) (o : Single) (s : State) : State :=
  match o with
  | .b o1 => (f (s.get8 o1) s).2.put8 o1 (f (s.get8 o1) s).1
  | .w o1 => (f (s.get16 o1) s).2.put16 o1 (f (s.get16 o1) s).1

def execAdd (f : AluForm) (s : State) : Out := .next (s.binary addOp f.ops)
def execOr (f : AluForm) (s : State) : Out := .next (s.binary orOp f.ops)
def execAdc (f : AluForm) (s : State) : Out := .next (s.binary adcOp f.ops)
def execSbb (f : AluForm) (s : State) : Out := .next (s.binary sbbOp f.ops)
def execAnd (f : AluForm) (s : State) : Out := .next (s.binary andOp f.ops)
def execSub (f : AluForm) (s : State) : Out := .next (s.binary subOp f.ops)
def execXor (f : AluForm) (s : State) : Out := .next (s.binary xorOp f.ops)
def execCmp (f : AluForm) (s : State) : Out := .next (s.compare subOp f.ops)
def execTest (f : TestForm) (s : State) : Out := .next (s.compare andOp f.ops)
def execInc (f : IncForm) (s : State) : Out := .next (s.unary incOp f.op)
def execDec (f : IncForm) (s : State) : Out := .next (s.unary decOp f.op)
def execNeg (f : UnForm) (s : State) : Out := .next (s.unary negOp f.op)
def execNot (f : UnForm) (s : State) : Out := .next (s.unary notOp f.op)

end Sys2Proof.Machine
end

