-- ==== Sys2Proof/Machine/MulDiv.lean ====
section
/-! DEFINITION. Multiply, divide, the divide error, and the decimal and ASCII adjusts
(43_muldiv_bcd.md R310 to R323). -/

namespace Sys2Proof.Machine

/-- A product of width 8 goes to AX; the flags see it unsplit (R310). -/
def State.product8 (a b : Byte) (raw : Nat) (s : State) : State :=
  (s.setReg16 .ax (BitVec.ofNat 16 raw)).mapFlags (flagsAdd a b raw)

/-- A product of width 16 goes to DX and AX. -/
def State.product16 (a b : Word) (raw : Nat) (s : State) : State :=
  ((s.setReg16 .ax (BitVec.ofNat 16 raw)).setReg16 .dx (BitVec.ofNat 16 (raw / 2 ^ 16))).mapFlags
    (flagsAdd a b raw)

/-- The unsigned product. -/
def mulU {n : Nat} (a b : BitVec n) : Nat := a.toNat * b.toNat

/-- The signed product as the unsigned pattern of width `2n` (R311). -/
def mulS {n : Nat} (a b : BitVec n) : Nat := (BitVec.ofInt (2 * n) (a.toInt * b.toInt)).toNat

/-- `MUL` (R310). -/
def execMul (f : UnForm) (s : State) : Out :=
  match f.op with
  | .b o => .next (s.product8 (s.reg8 .al) (s.get8 o) (mulU (s.reg8 .al) (s.get8 o)))
  | .w o => .next (s.product16 s.regs.ax (s.get16 o) (mulU s.regs.ax (s.get16 o)))

/-- `IMUL` (R311). -/
def execImul (f : UnForm) (s : State) : Out :=
  match f.op with
  | .b o => .next (s.product8 (s.reg8 .al) (s.get8 o) (mulS (s.reg8 .al) (s.get8 o)))
  | .w o => .next (s.product16 s.regs.ax (s.get16 o) (mulS s.regs.ax (s.get16 o)))

/-- The six flags that the reference leaves undefined after a division that completes (R312). -/
def divFlags : List Flag := [.CF, .OF, .AF, .ZF, .SF, .PF]

/-- `DivideError()` (R314). -/
def State.divideError (s : State) : State := s.vector 0 .software

/-- Unsigned quotient and remainder at width `w`, unless the divisor is zero or the quotient does not
fit (R312). -/
def divU (w : Nat) (n d : Nat) : Option (Nat × Nat) :=
  if d = 0 then none
  else if 2 ^ w ≤ n / d then none
  else some (n / d, n % d)

/-- Signed quotient, rounded toward zero, and remainder at width `w`, unless the divisor is zero or
the quotient is outside `-2^(w-1) .. 2^(w-1) - 1` (R313). -/
def divS (w : Nat) (n d : Int) : Option (Int × Int) :=
  if d = 0 then none
  else if n.tdiv d < -(2 ^ (w - 1) : Int) ∨ (2 ^ (w - 1) : Int) - 1 < n.tdiv d then none
  else some (n.tdiv d, n.tmod d)

/-- AL takes the quotient and AH the remainder; the flags become undefined. -/
def State.quotient8 (q r : Byte) (s : State) : State :=
  (s.setReg16 .ax (mkWord q r)).undefs divFlags

/-- AX takes the quotient and DX the remainder. -/
def State.quotient16 (q r : Word) (s : State) : State :=
  ((s.setReg16 .ax q).setReg16 .dx r).undefs divFlags

/-- The 32-bit dividend `DX ++ AX`. -/
def State.dividend (s : State) : BitVec 32 := s.regs.dx ++ s.regs.ax

/-- `DIV` (R312). -/
def execDiv (f : UnForm) (s : State) : Out :=
  match f.op with
  | .b o =>
    match divU 8 s.regs.ax.toNat (s.get8 o).toNat with
    | some (q, r) => .next (s.quotient8 (BitVec.ofNat 8 q) (BitVec.ofNat 8 r))
    | none => .next s.divideError
  | .w o =>
    match divU 16 s.dividend.toNat (s.get16 o).toNat with
    | some (q, r) => .next (s.quotient16 (BitVec.ofNat 16 q) (BitVec.ofNat 16 r))
    | none => .next s.divideError

/-- `IDIV` (R313). -/
def execIdiv (f : UnForm) (s : State) : Out :=
  match f.op with
  | .b o =>
    match divS 8 s.regs.ax.toInt (s.get8 o).toInt with
    | some (q, r) => .next (s.quotient8 (BitVec.ofInt 8 q) (BitVec.ofInt 8 r))
    | none => .next s.divideError
  | .w o =>
    match divS 16 s.dividend.toInt (s.get16 o).toInt with
    | some (q, r) => .next (s.quotient16 (BitVec.ofInt 16 q) (BitVec.ofInt 16 r))
    | none => .next s.divideError

/-- `(AL and 0x0F) > 9 or AF = 1`: the low digit needs the adjustment (R320 to R323). -/
def lowAdjust (al : Byte) (f : Flags) : Bool := decide (9 < (al &&& 0x0F#8).toNat) || f.AF

/-- `old_AL > 0x99 or old_CF = 1`: the high digit needs it (R320, R321). -/
def highAdjust (al : Byte) (f : Flags) : Bool := decide (0x99 < al.toNat) || f.CF

/-- AL, AF, CF, SF, ZF, PF after DAA or DAS; OF is undefined. -/
def State.decimalResult (al : Byte) (af cf : Bool) (s : State) : State :=
  ((s.setReg8 .al al).mapFlags fun f => setSZP al { f with AF := af, CF := cf }).undef .OF

/-- `DAA` (R320). -/
def execDaa (s : State) : Out :=
  let al := s.reg8 .al
  let low := lowAdjust al s.flags
  let high := highAdjust al s.flags
  let a1 := if low then al + 0x06#8 else al
  let a2 := if high then a1 + 0x60#8 else a1
  .next (s.decimalResult a2 low high)

/-- `DAS` (R321): the borrow of the first step also sets CF. -/
def execDas (s : State) : Out :=
  let al := s.reg8 .al
  let low := lowAdjust al s.flags
  let high := highAdjust al s.flags
  let a1 := if low then al - 0x06#8 else al
  let a2 := if high then a1 - 0x60#8 else a1
  let cf := high || (low && (s.flags.CF || decide (al.toNat < 0x06)))
  .next (s.decimalResult a2 low cf)

/-- AL's low digit, AH, AF and CF after AAA or AAS; OF, SF, ZF, PF are undefined. -/
def State.asciiResult (al ah : Byte) (c : Bool) (s : State) : State :=
  (((s.setReg16 .ax (mkWord (al &&& 0x0F#8) ah)).mapFlags fun f => { f with AF := c, CF := c })).undefs
    [.OF, .SF, .ZF, .PF]

/-- `AAA` (R322): AL and AH are adjusted separately. -/
def execAaa (s : State) : Out :=
  let al := s.reg8 .al
  let ah := s.reg8 .ah
  if lowAdjust al s.flags then .next (s.asciiResult (al + 6#8) (ah + 1#8) true)
  else .next (s.asciiResult al ah false)

/-- `AAS` (R323). -/
def execAas (s : State) : Out :=
  let al := s.reg8 .al
  let ah := s.reg8 .ah
  if lowAdjust al s.flags then .next (s.asciiResult (al - 6#8) (ah - 1#8) true)
  else .next (s.asciiResult al ah false)

end Sys2Proof.Machine
end

