-- ==== Sys2Proof/Machine/Ports.lean ====
section
/-! DEFINITION. The port bus, the two controllers and the platform's devices on it, and IN and OUT
(47_io.md R460 to R469, 60_exceptions.md R530, R540, R541). -/

namespace Sys2Proof.Machine

/-- The device that owns slot `p`. -/
def portLookup (p : Nat) : List (Nat × Device) → Option Device
  | [] => none
  | (q, d) :: t => if q = p then some d else portLookup p t

/-- `PortTable[p]`; a number above 255 has no slot (R460). -/
def State.portDevice (s : State) (p : Nat) : Option Device :=
  if 255 < p then none else portLookup p s.ports

/-- The command port of a controller (R530). -/
def Params.cmdPort (g : Params) : Ctl → Byte
  | .master => g.masterCmd
  | .slave => g.slaveCmd

/-- The data port of a controller (R530). -/
def Params.dataPort (g : Params) : Ctl → Byte
  | .master => g.masterData
  | .slave => g.slaveData

/-- `ReadByte` of a controller (R541): a port it does not own returns `0xFF`. -/
def State.ctlRead (s : State) (c : Ctl) (p : Nat) : Byte :=
  if p = (Params.cmdPort s.params c).toNat then (s.pic c).readCommand
  else if p = (Params.dataPort s.params c).toNat then (s.pic c).readData
  else 0xFF

/-- `WriteByte` of a controller (R541): a port it does not own ignores the write. -/
def State.ctlWrite (c : Ctl) (p : Nat) (v : Byte) (s : State) : State :=
  if p = (Params.cmdPort s.params c).toNat then s.setPic c ((s.pic c).writeCommand v)
  else if p = (Params.dataPort s.params c).toNat then s.setPic c ((s.pic c).writeData v)
  else s

/-- A call that a device makes on an interrupt line (R526, R527, R521). -/
def State.lineCall (s : State) : LineCall → State
  | .request l => s.requestLine l.val
  | .ack l => s.ackLine l.val
  | .level l v => s.setLevel l.val v

/-- A call made on a device of the platform: it is logged (newest first), and the device may drive the
interrupt lines; what it does is not known (log entry 6). -/
def State.deviceCall (c : PortCall) (s : State) : State :=
  (Config.deviceLines s.free).foldl State.lineCall
    { s with portLog := c :: s.portLog, free := s.free + 1 }

/-- `d.ReadByte(p)`. -/
def State.devReadByte (d : Device) (p : Nat) (s : State) : Byte × State :=
  match d with
  | .pic c => (s.ctlRead c p, s)
  | .external id _ => (Config.deviceByte s.free, s.deviceCall (.readByte id p))

/-- `d.WriteByte(p, v)`. -/
def State.devWriteByte (d : Device) (p : Nat) (v : Byte) (s : State) : State :=
  match d with
  | .pic c => s.ctlWrite c p v
  | .external id _ => s.deviceCall (.writeByte id p v)

/-- The default `ReadWord(p)` (R462): two byte calls to the same device, low byte first. -/
def State.devReadTwice (d : Device) (p : Nat) (s : State) : Word × State :=
  let lo := s.devReadByte d p
  let hi := lo.2.devReadByte d (p + 1)
  (mkWord lo.1 hi.1, hi.2)

/-- The default `WriteWord(p, v)` (R462). -/
def State.devWriteTwice (d : Device) (p : Nat) (v : Word) (s : State) : State :=
  (s.devWriteByte d p (loByte v)).devWriteByte d (p + 1) (hiByte v)

/-- `d.ReadWord(p)`. -/
def State.devReadWord (d : Device) (p : Nat) (s : State) : Word × State :=
  match d with
  | .external id true => (Config.deviceWord s.free, s.deviceCall (.readWord id p))
  | .external _ false => s.devReadTwice d p
  | .pic _ => s.devReadTwice d p

/-- `d.WriteWord(p, v)`. -/
def State.devWriteWord (d : Device) (p : Nat) (v : Word) (s : State) : State :=
  match d with
  | .external id true => s.deviceCall (.writeWord id p v)
  | .external _ false => s.devWriteTwice d p v
  | .pic _ => s.devWriteTwice d p v

/-- `AL <- PortRead(p, 8)` (R461). -/
def State.inByte (p : Nat) (s : State) : Out :=
  match s.portDevice p with
  | some d => .next ((s.devReadByte d p).2.setReg8 .al (s.devReadByte d p).1)
  | none => .fault (.portFault p false)

/-- `AX <- PortRead(p, 16)` (R461). -/
def State.inWord (p : Nat) (s : State) : Out :=
  match s.portDevice p with
  | some d => .next ((s.devReadWord d p).2.setReg16 .ax (s.devReadWord d p).1)
  | none => .fault (.portFault p false)

/-- `PortWrite(p, 8, AL)` (R463). -/
def State.outByte (p : Nat) (s : State) : Out :=
  match s.portDevice p with
  | some d => .next (s.devWriteByte d p (s.reg8 .al))
  | none => .fault (.portFault p true)

/-- `PortWrite(p, 16, AX)` (R463). -/
def State.outWord (p : Nat) (s : State) : Out :=
  match s.portDevice p with
  | some d => .next (s.devWriteWord d p s.regs.ax)
  | none => .fault (.portFault p true)

/-- The port number of a form: the immediate byte or DX (R465 to R468). -/
def State.portNumber (s : State) : PortForm → Nat
  | .byteImm p => p.toNat
  | .wordImm p => p.toNat
  | .byteDx => s.regs.dx.toNat
  | .wordDx => s.regs.dx.toNat

/-- `IN` (R465, R466). -/
def execIn (f : PortForm) (s : State) : Out :=
  match f with
  | .byteImm _ => s.inByte (s.portNumber f)
  | .wordImm _ => s.inWord (s.portNumber f)
  | .byteDx => s.inByte (s.portNumber f)
  | .wordDx => s.inWord (s.portNumber f)

/-- `OUT` (R467, R468). -/
def execOut (f : PortForm) (s : State) : Out :=
  match f with
  | .byteImm _ => s.outByte (s.portNumber f)
  | .wordImm _ => s.outWord (s.portNumber f)
  | .byteDx => s.outByte (s.portNumber f)
  | .wordDx => s.outWord (s.portNumber f)

end Sys2Proof.Machine
end

