-- ==== Sys2Proof/Machine/Refused.lean ====
section
/-! DEFINITION. The refused encodings (30_encoding.md R103, R116, R118; 42_shift_rotate.md R289): each
raises `DecodeFault`, naming the offending byte or bytes. There is no invalid-opcode interrupt. -/

namespace Sys2Proof.Machine

/-- `raise DecodeFault` (R116, 60_exceptions.md R560). -/
def refuse (op : Byte) (modrm : Option Byte) : Out := .fault (.decodeFault op modrm)

/-- `0F` (R103). -/
def execEscape0F (_s : State) : Out := refuse 0x0F none
/-- The undocumented primary opcodes (R116). -/
def execUndocumented (op : Byte) (_s : State) : Out := refuse op none
/-- The reserved group slots (R116, R289). -/
def execReserved (op modrm : Byte) (_s : State) : Out := refuse op (some modrm)
/-- `INTO` (R118, R422). -/
def execInto (_s : State) : Out := refuse 0xCE none
/-- `AAM` (R118, R324). -/
def execAam (_s : State) : Out := refuse 0xD4 none
/-- `AAD` (R118, R325). -/
def execAad (_s : State) : Out := refuse 0xD5 none

/-! The register forms of the memory-only operands (R109). -/

def execLeaReg (reg rm : BitVec 3) (_s : State) : Out := refuse 0x8D (some (mkModRm 3 reg rm))
def execLesReg (reg rm : BitVec 3) (_s : State) : Out := refuse 0xC4 (some (mkModRm 3 reg rm))
def execLdsReg (reg rm : BitVec 3) (_s : State) : Out := refuse 0xC5 (some (mkModRm 3 reg rm))
def execCallFarReg (rm : BitVec 3) (_s : State) : Out := refuse 0xFF (some (mkModRm 3 3 rm))
def execJmpFarReg (rm : BitVec 3) (_s : State) : Out := refuse 0xFF (some (mkModRm 3 5 rm))

end Sys2Proof.Machine
end

