-- ==== Sys2Proof/Machine/Strings.lean ====
section
/-! DEFINITION. String instructions and the repeat loop (45_string.md R390 to R396). -/

namespace Sys2Proof.Machine

/-- `delta` for elements of `k` bytes (R390). -/
def State.delta (s : State) (k : Word) : Word := if s.flags.DF then -k else k

def State.advSi (k : Word) (s : State) : State := s.setReg16 .si (s.regs.si + s.delta k)
def State.advDi (k : Word) (s : State) : State := s.setReg16 .di (s.regs.di + s.delta k)

/-! The source is `seg_override or DS : SI`, the destination always `ES:DI`. -/

def State.src8 (s : State) : Byte := s.read8 (s.segOr .ds) s.regs.si
def State.src16 (s : State) : Word := s.read16 (s.segOr .ds) s.regs.si
def State.dst8 (s : State) : Byte := s.read8 s.segs.es s.regs.di
def State.dst16 (s : State) : Word := s.read16 s.segs.es s.regs.di

/-! One iteration of each instruction (R392 to R396). -/

def movsIter8 (s : State) : State := ((s.write8 s.segs.es s.regs.di s.src8).advSi 1).advDi 1
def movsIter16 (s : State) : State := ((s.write16 s.segs.es s.regs.di s.src16).advSi 2).advDi 2
def cmpsIter8 (s : State) : State := ((subOp s.src8 s.dst8 s).2.advSi 1).advDi 1
def cmpsIter16 (s : State) : State := ((subOp s.src16 s.dst16 s).2.advSi 2).advDi 2
def stosIter8 (s : State) : State := (s.write8 s.segs.es s.regs.di (s.reg8 .al)).advDi 1
def stosIter16 (s : State) : State := (s.write16 s.segs.es s.regs.di s.regs.ax).advDi 2
def lodsIter8 (s : State) : State := (s.setReg8 .al s.src8).advSi 1
def lodsIter16 (s : State) : State := (s.setReg16 .ax s.src16).advSi 2
def scasIter8 (s : State) : State := (subOp (s.reg8 .al) s.dst8 s).2.advDi 1
def scasIter16 (s : State) : State := (subOp s.regs.ax s.dst16 s).2.advDi 2

/-- The ZF test that ends the loop of a comparing instruction (R391). -/
def repStops (compares : Bool) (r : RepPrefix) (zf : Bool) : Bool :=
  match r with
  | .rep => compares && !zf
  | .repne => compares && zf
  | .none => false
  | .lock => false

/-- The loop of R391. The fuel is CX at entry: no iteration changes CX, so the loop test `CX != 0` is
the fuel test. -/
def repLoop (iter : State → State) (compares : Bool) : Nat → State → State
  | 0, s => s
  | k + 1, s =>
    let t := (iter s).countDown
    if repStops compares t.rep t.flags.ZF then t else repLoop iter compares k t

/-- `ExecString` (R391): `F2` and `F3` repeat; `F0` and no prefix do not. -/
def State.string (iter : State → State) (compares : Bool) (s : State) : State :=
  match s.rep with
  | .none => iter s
  | .lock => iter s
  | .repne => repLoop iter compares s.regs.cx.toNat s
  | .rep => repLoop iter compares s.regs.cx.toNat s

def execMovsb (s : State) : Out := .next (s.string movsIter8 false)
def execMovsw (s : State) : Out := .next (s.string movsIter16 false)
def execCmpsb (s : State) : Out := .next (s.string cmpsIter8 true)
def execCmpsw (s : State) : Out := .next (s.string cmpsIter16 true)
def execStosb (s : State) : Out := .next (s.string stosIter8 false)
def execStosw (s : State) : Out := .next (s.string stosIter16 false)
def execLodsb (s : State) : Out := .next (s.string lodsIter8 false)
def execLodsw (s : State) : Out := .next (s.string lodsIter16 false)
def execScasb (s : State) : Out := .next (s.string scasIter8 true)
def execScasw (s : State) : Out := .next (s.string scasIter16 true)

end Sys2Proof.Machine
end

