-- ==== Sys2Proof/Machine/System.lean ====
section
/-! DEFINITION. Software interrupts, interrupt return, halt, flag control, ESC, WAIT, NOP, and the
prefix bytes (46_system.md R420 to R437, 30_encoding.md R102). -/

namespace Sys2Proof.Machine

/-- `INT n` (R420). -/
def execInt (n : Byte) (s : State) : Out := .next (s.vector n.toNat .software)
/-- `INT3` (R421). -/
def execInt3 (s : State) : Out := .next (s.vector 3 .software)
/-- `IRET` (R424). -/
def execIret (s : State) : Out := .next s.returnFromInterrupt
/-- `HLT` (R426): ip points at the HLT byte again; there is no halted latch. -/
def execHlt (s : State) : Out := .next (s.setIp (s.ip - 1))

def execClc (s : State) : Out := .next (s.mapFlags fun f => { f with CF := false })
def execStc (s : State) : Out := .next (s.mapFlags fun f => { f with CF := true })
def execCmc (s : State) : Out := .next (s.mapFlags fun f => { f with CF := !f.CF })
def execCld (s : State) : Out := .next (s.mapFlags fun f => { f with DF := false })
def execStd (s : State) : Out := .next (s.mapFlags fun f => { f with DF := true })
def execCli (s : State) : Out := .next (s.mapFlags fun f => { f with IF := false })
def execSti (s : State) : Out := .next (s.mapFlags fun f => { f with IF := true })

/-- `ESC` (R432): no memory read, no effect; there is no coprocessor. -/
def execEsc (_op _reg : BitVec 3) (_rm : Rm16) (s : State) : Out := .next s
/-- `WAIT` (R435): never stalls. -/
def execWait (s : State) : Out := .next s
/-- `NOP` (R437). -/
def execNop (s : State) : Out := .next s

/-! A prefix byte records itself and decoding goes on (R102): a later prefix of the same class
replaces an earlier one. -/

def execPrefixEs (s : State) : Out := .next { s with segOverride := some .es }
def execPrefixCs (s : State) : Out := .next { s with segOverride := some .cs }
def execPrefixSs (s : State) : Out := .next { s with segOverride := some .ss }
def execPrefixDs (s : State) : Out := .next { s with segOverride := some .ds }
/-- `LOCK` (R436). -/
def execPrefixLock (s : State) : Out := .next { s with rep := .lock }
def execPrefixRepne (s : State) : Out := .next { s with rep := .repne }
def execPrefixRep (s : State) : Out := .next { s with rep := .rep }

end Sys2Proof.Machine
end

