-- ==== Sys2Proof/Machine/Transfer.lean ====
section
/-! DEFINITION. Data transfer (40_data_transfer.md R170 to R195). No flag is written but by SAHF and
POPF. -/

namespace Sys2Proof.Machine

/-- `MOV` (R170 to R175). -/
def execMov (f : MovForm) (s : State) : Out :=
  match f.ops with
  | .b o1 o2 => .next (s.put8 o1 (s.get8 o2))
  | .w o1 o2 => .next (s.put16 o1 (s.get16 o2))

/-- `XCHG` (R176, R177): both operands are read before either is written; operand 2 is always a
register. -/
def execXchg (f : XchgForm) (s : State) : Out :=
  match f.ops with
  | .b o1 o2 => .next ((s.put8 o1 (s.get8 o2)).put8 o2 (s.get8 o1))
  | .w o1 o2 => .next ((s.put16 o1 (s.get16 o2)).put16 o2 (s.get16 o1))

/-- `PUSH` (R180 to R182): the operand is read before SP changes. -/
def execPush (f : PushForm) (s : State) : Out := .next (s.push16 (s.get16 f.op))

/-- `POP` (R183 to R185): the operand is written after SP changes. No addressing mode uses SP, so the
address is the one evaluated before. -/
def execPop (f : PopForm) (s : State) : Out := .next (s.drop16.put16 f.op s.top16)

/-- `PUSHF` (R186). -/
def execPushf (s : State) : Out := .next (s.push16 (s.get16 .flags))

/-- `POPF` (R187). -/
def execPopf (s : State) : Out := .next (s.drop16.put16 .flags s.top16)

/-- `LAHF` (R188). -/
def execLahf (s : State) : Out := .next (s.setReg8 .ah (loByte s.flags.word))

/-- `SAHF` (R190). -/
def execSahf (s : State) : Out :=
  .next (s.mapFlags fun f => Flags.ofWord ((f.word &&& 0xFF00#16) ||| zext16 (s.reg8 .ah)))

/-- `XLAT` (R189). -/
def execXlat (s : State) : Out :=
  .next (s.setReg8 .al (s.read8 (s.segOr .ds) (s.regs.bx + zext16 (s.reg8 .al))))

/-- `LEA` (R191): no memory access, no segment. -/
def execLea (r : Reg16) (m : MemRef) (s : State) : Out := .next (s.setReg16 r (s.eaOff m))

/-- `LDS` (R192): both words are read before either register is written. -/
def execLds (r : Reg16) (m : MemRef) (s : State) : Out :=
  .next ((s.setReg16 r (s.farPtr m).1).setSreg .ds (s.farPtr m).2)

/-- `LES` (R193). -/
def execLes (r : Reg16) (m : MemRef) (s : State) : Out :=
  .next ((s.setReg16 r (s.farPtr m).1).setSreg .es (s.farPtr m).2)

/-- `CBW` (R194). -/
def execCbw (s : State) : Out := .next (s.setReg16 .ax (sext16 (s.reg8 .al)))

/-- `CWD` (R195). -/
def execCwd (s : State) : Out :=
  .next (s.setReg16 .dx (if s.regs.ax.msb then 0xFFFF#16 else 0#16))

end Sys2Proof.Machine
end

