-- ==== Sys2Proof/Machine/Dispatch.lean ====
section
/-! DEFINITION. The meaning of every instruction: one arm per constructor. -/

namespace Sys2Proof.Machine

def exec (i : Instr) (s : State) : Host.Outcome State Fault Refusal :=
  match i with
  -- two-operand arithmetic and logic (41_alu.md)
  | .add f => Sys2Proof.Machine.execAdd f s
  | .or f => Sys2Proof.Machine.execOr f s
  | .adc f => Sys2Proof.Machine.execAdc f s
  | .sbb f => Sys2Proof.Machine.execSbb f s
  | .and f => Sys2Proof.Machine.execAnd f s
  | .sub f => Sys2Proof.Machine.execSub f s
  | .xor f => Sys2Proof.Machine.execXor f s
  | .cmp f => Sys2Proof.Machine.execCmp f s
  | .test f => Sys2Proof.Machine.execTest f s
  | .inc f => Sys2Proof.Machine.execInc f s
  | .dec f => Sys2Proof.Machine.execDec f s
  | .not f => Sys2Proof.Machine.execNot f s
  | .neg f => Sys2Proof.Machine.execNeg f s
  -- multiply, divide, decimal adjust (43_muldiv_bcd.md)
  | .mul f => Sys2Proof.Machine.execMul f s
  | .imul f => Sys2Proof.Machine.execImul f s
  | .div f => Sys2Proof.Machine.execDiv f s
  | .idiv f => Sys2Proof.Machine.execIdiv f s
  | .daa => Sys2Proof.Machine.execDaa s
  | .das => Sys2Proof.Machine.execDas s
  | .aaa => Sys2Proof.Machine.execAaa s
  | .aas => Sys2Proof.Machine.execAas s
  -- shifts and rotates (42_shift_rotate.md)
  | .rol f => Sys2Proof.Machine.execRol f s
  | .ror f => Sys2Proof.Machine.execRor f s
  | .rcl f => Sys2Proof.Machine.execRcl f s
  | .rcr f => Sys2Proof.Machine.execRcr f s
  | .shl f => Sys2Proof.Machine.execShl f s
  | .shr f => Sys2Proof.Machine.execShr f s
  | .sar f => Sys2Proof.Machine.execSar f s
  -- data transfer (40_data_transfer.md)
  | .mov f => Sys2Proof.Machine.execMov f s
  | .xchg f => Sys2Proof.Machine.execXchg f s
  | .push f => Sys2Proof.Machine.execPush f s
  | .pop f => Sys2Proof.Machine.execPop f s
  | .pushf => Sys2Proof.Machine.execPushf s
  | .popf => Sys2Proof.Machine.execPopf s
  | .lahf => Sys2Proof.Machine.execLahf s
  | .sahf => Sys2Proof.Machine.execSahf s
  | .xlat => Sys2Proof.Machine.execXlat s
  | .lea r m => Sys2Proof.Machine.execLea r m s
  | .lds r m => Sys2Proof.Machine.execLds r m s
  | .les r m => Sys2Proof.Machine.execLes r m s
  | .cbw => Sys2Proof.Machine.execCbw s
  | .cwd => Sys2Proof.Machine.execCwd s
  -- control transfer (44_control_transfer.md)
  | .jmp f => Sys2Proof.Machine.execJmp f s
  | .jmpFar off seg => Sys2Proof.Machine.execJmpFar off seg s
  | .jmpInd rm => Sys2Proof.Machine.execJmpInd rm s
  | .jmpFarInd m => Sys2Proof.Machine.execJmpFarInd m s
  | .jo d => Sys2Proof.Machine.execJo d s
  | .jno d => Sys2Proof.Machine.execJno d s
  | .jb d => Sys2Proof.Machine.execJb d s
  | .jnb d => Sys2Proof.Machine.execJnb d s
  | .jz d => Sys2Proof.Machine.execJz d s
  | .jnz d => Sys2Proof.Machine.execJnz d s
  | .jbe d => Sys2Proof.Machine.execJbe d s
  | .ja d => Sys2Proof.Machine.execJa d s
  | .js d => Sys2Proof.Machine.execJs d s
  | .jns d => Sys2Proof.Machine.execJns d s
  | .jp d => Sys2Proof.Machine.execJp d s
  | .jnp d => Sys2Proof.Machine.execJnp d s
  | .jl d => Sys2Proof.Machine.execJl d s
  | .jge d => Sys2Proof.Machine.execJge d s
  | .jle d => Sys2Proof.Machine.execJle d s
  | .jg d => Sys2Proof.Machine.execJg d s
  | .loop d => Sys2Proof.Machine.execLoop d s
  | .loopz d => Sys2Proof.Machine.execLoopz d s
  | .loopnz d => Sys2Proof.Machine.execLoopnz d s
  | .jcxz d => Sys2Proof.Machine.execJcxz d s
  | .call d => Sys2Proof.Machine.execCall d s
  | .callFar off seg => Sys2Proof.Machine.execCallFar off seg s
  | .callInd rm => Sys2Proof.Machine.execCallInd rm s
  | .callFarInd m => Sys2Proof.Machine.execCallFarInd m s
  | .ret f => Sys2Proof.Machine.execRet f s
  | .retf f => Sys2Proof.Machine.execRetf f s
  -- strings (45_string.md)
  | .movsb => Sys2Proof.Machine.execMovsb s
  | .movsw => Sys2Proof.Machine.execMovsw s
  | .cmpsb => Sys2Proof.Machine.execCmpsb s
  | .cmpsw => Sys2Proof.Machine.execCmpsw s
  | .stosb => Sys2Proof.Machine.execStosb s
  | .stosw => Sys2Proof.Machine.execStosw s
  | .lodsb => Sys2Proof.Machine.execLodsb s
  | .lodsw => Sys2Proof.Machine.execLodsw s
  | .scasb => Sys2Proof.Machine.execScasb s
  | .scasw => Sys2Proof.Machine.execScasw s
  -- system (46_system.md)
  | .int n => Sys2Proof.Machine.execInt n s
  | .int3 => Sys2Proof.Machine.execInt3 s
  | .iret => Sys2Proof.Machine.execIret s
  | .hlt => Sys2Proof.Machine.execHlt s
  | .clc => Sys2Proof.Machine.execClc s
  | .stc => Sys2Proof.Machine.execStc s
  | .cmc => Sys2Proof.Machine.execCmc s
  | .cld => Sys2Proof.Machine.execCld s
  | .std => Sys2Proof.Machine.execStd s
  | .cli => Sys2Proof.Machine.execCli s
  | .sti => Sys2Proof.Machine.execSti s
  | .esc op reg rm => Sys2Proof.Machine.execEsc op reg rm s
  | .wait => Sys2Proof.Machine.execWait s
  | .nop => Sys2Proof.Machine.execNop s
  -- port input and output (47_io.md)
  | .inPort f => Sys2Proof.Machine.execIn f s
  | .outPort f => Sys2Proof.Machine.execOut f s
  -- prefix bytes (30_encoding.md R102)
  | .prefixEs => Sys2Proof.Machine.execPrefixEs s
  | .prefixCs => Sys2Proof.Machine.execPrefixCs s
  | .prefixSs => Sys2Proof.Machine.execPrefixSs s
  | .prefixDs => Sys2Proof.Machine.execPrefixDs s
  | .prefixLock => Sys2Proof.Machine.execPrefixLock s
  | .prefixRepne => Sys2Proof.Machine.execPrefixRepne s
  | .prefixRep => Sys2Proof.Machine.execPrefixRep s
  -- refused encodings (R103, R116, R118, 42_shift_rotate.md R289): each raises DecodeFault
  | .escape0F => Sys2Proof.Machine.execEscape0F s
  | .undocumented op => Sys2Proof.Machine.execUndocumented op s
  | .reserved op modrm => Sys2Proof.Machine.execReserved op modrm s
  | .into => Sys2Proof.Machine.execInto s
  | .aam => Sys2Proof.Machine.execAam s
  | .aad => Sys2Proof.Machine.execAad s
  | .leaReg reg rm => Sys2Proof.Machine.execLeaReg reg rm s
  | .lesReg reg rm => Sys2Proof.Machine.execLesReg reg rm s
  | .ldsReg reg rm => Sys2Proof.Machine.execLdsReg reg rm s
  | .callFarReg rm => Sys2Proof.Machine.execCallFarReg rm s
  | .jmpFarReg rm => Sys2Proof.Machine.execJmpFarReg rm s

end Sys2Proof.Machine
end

