-- ==== Sys2Proof/Machine/Run.lean ====
section
/-! DEFINITION. One step of the core (30_encoding.md R100): the interrupt check, the prefix walk (R102),
the instruction, the clock count. -/

namespace Sys2Proof.Machine

/-- The decoder's prefix record is empty (R102, R40): a step starts and ends so. -/
def State.noPrefix (s : State) : State := { s with segOverride := none, rep := .none }

/-- `ReturnClockCost`: the prefix record is discarded and the clock count returned. -/
def State.retire (clocks : BitVec 32) (s : State) : State :=
  { s with segOverride := none, rep := .none, clocks := clocks }

/-- What a step makes of its instruction's outcome. -/
def finish (clocks : BitVec 32) (o : Out) : Out :=
  match o with
  | .next t => .next (t.retire clocks)
  | .fault f => .fault f
  | .refused r => .refused r

/-- The state in which an item of `n` bytes runs: `ip` is past it (R113). -/
def runItem (i : Instr) (n : Nat) (s : State) : Out := exec i (s.advance n)

/-- Fetch items until one is not a prefix, and run it (R102). `fuel` bounds the number of items: with
2^16 of them all prefixes, the code segment holds nothing else and decoding never ends. -/
def runItems : Nat → State → Out
  | 0, _ => .fault .decodeHang
  | fuel + 1, s =>
    match s.fetch with
    | .error _ => .fault .decodeHang
    | .ok (i, n) =>
      if i.isPrefix then
        match runItem i n s with
        | .next t => runItems fuel t
        | .fault f => .fault f
        | .refused r => .refused r
      else finish (clockCost i (s.advance n)) (runItem i n s)

/-- The number of bytes in a code segment. -/
def segmentBytes : Nat := 2 ^ 16

/-- The interrupt to take now (60_exceptions.md R502): the arbiter's line, if IF is set. -/
def State.interruptTaken (s : State) : Option Nat := if s.flags.IF then s.nextInterrupt else none

/-- `Deliver(line)`, then `Vector(line, hardware)`: no instruction runs in this step. -/
def State.takeInterrupt (line : Nat) (s : State) : State :=
  ((s.deliver line).vector line .hardware).retire Config.vectorClocks

/-- One step. -/
def stepCore (s : State) : Out :=
  match s.interruptTaken with
  | some line => .next (s.takeInterrupt line)
  | none => runItems segmentBytes s.noPrefix

/-- The bytes `bs` stored from offset `off` of segment `seg` upward. -/
def State.storeBytes (seg off : Word) : List Byte → State → State
  | [], s => s
  | b :: bs, s => State.storeBytes seg (off + 1) bs (s.write8 seg off b)

end Sys2Proof.Machine
end

