-- ==== Sys2Proof/Machine/Step.lean ====
section
/-! DEFINITION. The step of the machine and the placing of one instruction where the step fetches. -/

namespace Sys2Proof.Machine

/-- One step (30_encoding.md R100). -/
def step (s : State) : Host.Outcome State Fault Refusal := stepCore s

/-- The instruction whose bits, numbered as spec/opcode_table.json numbers them, are `w`, stored at
`CS:ip` (log entry 13). -/
def State.withFetchWord (s : State) (nbits w : Nat) : State :=
  s.storeBytes s.segs.cs s.ip (tableBytes nbits w)

end Sys2Proof.Machine
end

