-- ==== Sys2Proof/Machine/Env.lean ====
section
/-! DEFINITION. What the environment may do (00_scope.md R5, 20_memory.md R87): attach devices before
the first step (47_io.md R464), and, between two steps, drive the interrupt lines (60_exceptions.md
R526, R527, R521) and write memory. None of it is part of a step. -/

namespace Sys2Proof.Machine

/-- One thing that the environment does between two steps. -/
inductive EnvEvent where
  | request (line : Nat)               -- RequestInterrupt
  | ack (line : Nat)                   -- AckInterrupt
  | level (line : Fin 16) (v : Bool)   -- a request predicate's new answer
  | store (a : BitVec 20) (v : Byte)   -- a memory byte changes
  deriving DecidableEq, Repr

/-- The event's effect; a line above 15 is `ConfigFault` (R545). The environment never changes the
registers or flags (R5). -/
def State.environ (e : EnvEvent) (s : State) : Out :=
  match e with
  | .request l => if 15 < l then .fault (.configLine l) else .next (s.requestLine l)
  | .ack l => if 15 < l then .fault (.configLine l) else .next (s.ackLine l)
  | .level l v => .next (s.setLevel l.val v)
  | .store a v => .next { s with mem := s.mem.write a.toNat v }

/-- The instance that the master routes a call on `line` to; a line above 15 is `ConfigFault`
(60_exceptions.md R520, R545). -/
def State.lineOwner (line : Nat) (s : State) : Except Fault Pic :=
  if line ≤ 7 then .ok s.master
  else if line ≤ 15 then .ok s.slave
  else .error (.configLine line)

/-- `GetVectorBase(line)` of the master (R505, R545). -/
def State.getVectorBase (line : Nat) (s : State) : Except Fault Byte :=
  (s.lineOwner line).map Pic.vbase

/-- `GetVectorSize(line)` of the master (R505, R545). -/
def State.getVectorSize (line : Nat) (s : State) : Except Fault Nat :=
  (s.lineOwner line).map Pic.vsize

/-- The table with slot `p` given to `d`, in slot order; an occupied slot is `ConfigFault` (R464). -/
def portClaim (d : Device) (p : Nat) : List (Nat × Device) → Except Fault (List (Nat × Device))
  | [] => .ok [(p, d)]
  | (q, e) :: t =>
    if q = p then .error (.configPort p)
    else if p < q then .ok ((p, d) :: (q, e) :: t)
    else match portClaim d p t with
      | .ok u => .ok ((q, e) :: u)
      | .error f => .error f

/-- `AttachPortDevice(d)` for a device that declares the ports `ps` (R464). -/
def State.attach (d : Device) : List Byte → State → Out
  | [], s => .next s
  | p :: ps, s =>
    match portClaim d p.toNat s.ports with
    | .ok t => State.attach d ps { s with ports := t }
    | .error f => .fault f

end Sys2Proof.Machine
end

