-- ==== Sys2Proof/Safety.lean ====
section
/-! DEFINITION. The terms that statements use: what a state may differ in after an instruction (its
frame), the flag rules of the spec as relations, the invariant that every step keeps, and safe runs. -/

namespace Sys2Proof.Machine

/-! ## Frames -/

/-- The places that an instruction may change. A byte register is named alone, so that its other half
is covered by the frame. -/
structure Changes where
  regs : List Reg16 := []
  bytes : List Reg8 := []
  sregs : List SReg := []
  flags : List Flag := []
  cells : List Nat := []
  ip : Bool := false
  free : Bool := false
  deriving DecidableEq, Repr

/-- Both lists of places. -/
def Changes.join (c d : Changes) : Changes where
  regs := c.regs ++ d.regs
  bytes := c.bytes ++ d.bytes
  sregs := c.sregs ++ d.sregs
  flags := c.flags ++ d.flags
  cells := c.cells ++ d.cells
  ip := c.ip || d.ip
  free := c.free || d.free

/-- From `s` to `t` nothing changes but the places of `c`: every other general register, byte half,
segment register, flag and byte of memory, `ip` unless named, both controllers, the port table, the
parameters, the prefix record, the log of device calls and the clock count are as they were. -/
structure Only (c : Changes) (s t : State) : Prop where
  regs : ∀ r : Reg16, r ∉ c.regs → (∀ b ∈ c.bytes, b.owner ≠ r) → t.reg16 r = s.reg16 r
  bytes : ∀ b : Reg8, b ∉ c.bytes → b.owner ∉ c.regs → t.reg8 b = s.reg8 b
  sregs : ∀ r : SReg, r ∉ c.sregs → t.sreg r = s.sreg r
  flags : ∀ k : Flag, k ∉ c.flags → t.flags.get k = s.flags.get k
  cells : ∀ a : Nat, a ∉ c.cells → t.mem.read a = s.mem.read a
  ip : c.ip = false → t.ip = s.ip
  free : c.free = false → t.free = s.free
  master : t.master = s.master
  slave : t.slave = s.slave
  ports : t.ports = s.ports
  params : t.params = s.params
  segOverride : t.segOverride = s.segOverride
  rep : t.rep = s.rep
  portLog : t.portLog = s.portLog
  clocks : t.clocks = s.clocks

/-- The two bytes of the word at `seg:off` (20_memory.md R74). -/
def wordCells (seg off : Word) : List Nat := [phys seg off, phys seg (off + 1)]

/-- The place that a write to an 8-bit operand changes. -/
def State.place8 (s : State) : Op8 → Changes
  | .reg r => { bytes := [r] }
  | .mem m => { cells := [phys (s.eaSeg m) (s.eaOff m)] }
  | .imm _ => {}

/-- The place that a write to a 16-bit operand changes. -/
def State.place16 (s : State) : Op16 → Changes
  | .reg r => { regs := [r] }
  | .sreg r => { sregs := [r] }
  | .flags => { flags := [.CF, .PF, .AF, .ZF, .SF, .TF, .IF, .DF, .OF] }
  | .mem m => { cells := wordCells (s.eaSeg m) (s.eaOff m) }
  | .imm _ => {}

/-- The place of operand 1 of a two-operand form. -/
def State.placePair (s : State) : Pair → Changes
  | .b o _ => s.place8 o
  | .w o _ => s.place16 o

/-- The place of operand 2 of a two-operand form. -/
def State.placeSecond (s : State) : Pair → Changes
  | .b _ o => s.place8 o
  | .w _ o => s.place16 o

/-- The place of the operand of a one-operand form. -/
def State.placeSingle (s : State) : Single → Changes
  | .b o => s.place8 o
  | .w o => s.place16 o

/-- The six flags that an arithmetic result sets. -/
def aluFlags : List Flag := [.CF, .PF, .AF, .ZF, .SF, .OF]

/-! ## Flag rules as relations -/

/-- The number of one bits of a byte. -/
def oneBits (b : Byte) : Nat := (List.range 8).countP fun i => b.getLsbD i

/-- `SetSZP` (41_alu.md R220, R221). -/
structure SzpRule {n : Nat} (r : BitVec n) (f : Flags) : Prop where
  ZF : f.ZF = true ↔ r = 0#n
  SF : f.SF = r.getLsbD (n - 1)
  PF : f.PF = true ↔ oneBits (r.setWidth 8) % 2 = 0

/-- `FlagsAdd` (R222) for operands `a`, `b` and the untruncated result `raw`. -/
structure AddRule {n : Nat} (a b : BitVec n) (raw : Nat) (f : Flags) : Prop where
  CF : f.CF = true ↔ 2 ^ n - 1 < raw
  OF : f.OF = true ↔ a.getLsbD (n - 1) = b.getLsbD (n - 1) ∧ raw.testBit (n - 1) ≠ a.getLsbD (n - 1)
  AF : f.AF = (a.toNat ^^^ b.toNat ^^^ raw).testBit 4
  szp : SzpRule (BitVec.ofNat n raw) f

/-- `FlagsSub` (R223) for the minuend `a`, the subtrahend `b` and the untruncated difference `raw`. -/
structure SubRule {n : Nat} (a b : BitVec n) (raw : Int) (f : Flags) : Prop where
  CF : f.CF = true ↔ raw < 0
  OF : f.OF = ((BitVec.ofInt n raw ^^^ a) &&& (a ^^^ b)).getLsbD (n - 1)
  AF : f.AF = (a ^^^ b ^^^ BitVec.ofInt n raw).getLsbD 4
  szp : SzpRule (BitVec.ofInt n raw) f

/-- `FlagsLogic` (R224) without its AF. -/
structure LogicRule {n : Nat} (r : BitVec n) (f : Flags) : Prop where
  CF : f.CF = false
  OF : f.OF = false
  szp : SzpRule r f

/-- `Undef(k)` (R225): under the policy `unchanged` the flag keeps its value. Under `draw` nothing is
said of it. -/
def UndefRule (ks : List Flag) (s t : State) : Prop :=
  s.params.undef = .unchanged → ∀ k ∈ ks, t.flags.get k = s.flags.get k

/-! ## What an instruction does to its operands -/

/-- In `t`, the contents of the place that an 8-bit operand named in `s`: the address is the one that
`s` computes. -/
def State.look8 (s t : State) : Op8 → Byte
  | .reg r => t.reg8 r
  | .mem m => t.read8 (s.eaSeg m) (s.eaOff m)
  | .imm v => v

/-- In `t`, the contents of the place that a 16-bit operand named in `s`. -/
def State.look16 (s t : State) : Op16 → Word
  | .reg r => t.reg16 r
  | .sreg r => t.sreg r
  | .flags => t.flags.word
  | .mem m => t.read16 (s.eaSeg m) (s.eaOff m)
  | .imm v => v

/-- The outcome `o` of a two-operand instruction from `s` (41_alu.md R226): a next state in which
operand 1 holds `res` of the two operands, the flags obey `rule`, and nothing changes but operand 1
and the flags `ks` (and the free-value counter, if `fr`). -/
def ComputesPair (o : Out) (s : State) (p : Pair) (ks : List Flag) (fr : Bool)
    (res : {n : Nat} → BitVec n → BitVec n → BitVec n)
    (rule : {n : Nat} → BitVec n → BitVec n → Flags → Prop) : Prop :=
  ∃ t, o = .next t ∧ Only ((s.placePair p).join { flags := ks, free := fr }) s t ∧
    match p with
    | .b o1 o2 => s.look8 t o1 = res (s.get8 o1) (s.get8 o2) ∧ rule (s.get8 o1) (s.get8 o2) t.flags
    | .w o1 o2 =>
      s.look16 t o1 = res (s.get16 o1) (s.get16 o2) ∧ rule (s.get16 o1) (s.get16 o2) t.flags

/-- As `ComputesPair` with the write-back suppressed: only flags change. -/
def ComparesPair (o : Out) (s : State) (p : Pair) (ks : List Flag) (fr : Bool)
    (rule : {n : Nat} → BitVec n → BitVec n → Flags → Prop) : Prop :=
  ∃ t, o = .next t ∧ Only { flags := ks, free := fr } s t ∧
    match p with
    | .b o1 o2 => rule (s.get8 o1) (s.get8 o2) t.flags
    | .w o1 o2 => rule (s.get16 o1) (s.get16 o2) t.flags

/-- The outcome of a one-operand instruction. -/
def ComputesSingle (o : Out) (s : State) (p : Single) (ks : List Flag)
    (res : {n : Nat} → BitVec n → BitVec n)
    (rule : {n : Nat} → BitVec n → Flags → Prop) : Prop :=
  ∃ t, o = .next t ∧ Only ((s.placeSingle p).join { flags := ks }) s t ∧
    match p with
    | .b o1 => s.look8 t o1 = res (s.get8 o1) ∧ rule (s.get8 o1) t.flags
    | .w o1 => s.look16 t o1 = res (s.get16 o1) ∧ rule (s.get16 o1) t.flags

/-- What a shift or rotate says of its count, the value and carry before, the value and carry after. -/
abbrev ShiftRule := {n : Nat} → Nat → BitVec n → Bool → BitVec n → Bool → Prop

/-- The outcome of a shift or rotate whose count is not zero (42_shift_rotate.md R281): `rule` relates
value and carry before and after; with count 1 OF is `ovf` of the value and carry after, with another
count it is undefined; with `szp` SF, ZF, PF come from the value and AF is undefined, without it those
four are as before. -/
def Shifts (o : Out) (s : State) (f : ShiftForm) (rule : ShiftRule)
    (ovf : {n : Nat} → BitVec n → Bool → Bool) (szp : Bool) : Prop :=
  ∃ t, o = .next t ∧
    Only ((s.placeSingle f.op.1).join
      { flags := if szp then aluFlags else [.CF, .OF], free := true }) s t ∧
    (s.count f.op.2 ≠ 1 → UndefRule [.OF] s t) ∧ UndefRule [.AF] s t ∧
    match f.op.1 with
    | .b o1 =>
      rule (s.count f.op.2) (s.get8 o1) s.flags.CF (s.look8 t o1) t.flags.CF ∧
        (s.count f.op.2 = 1 → t.flags.OF = ovf (s.look8 t o1) t.flags.CF) ∧
        (szp = true → SzpRule (s.look8 t o1) t.flags)
    | .w o1 =>
      rule (s.count f.op.2) (s.get16 o1) s.flags.CF (s.look16 t o1) t.flags.CF ∧
        (s.count f.op.2 = 1 → t.flags.OF = ovf (s.look16 t o1) t.flags.CF) ∧
        (szp = true → SzpRule (s.look16 t o1) t.flags)

/-! ## Interrupts -/

/-- The physical address of the table entry of vector `n` (60_exceptions.md R505), from the ICW2 bytes
of the two controllers. -/
def entryAddress (s : State) (n : Nat) : Nat :=
  if n ≤ 7 then (s.master.icw2.toNat + n) * 4
  else if n ≤ 15 then (s.slave.icw2.toNat + (n - 8)) * 4
  else n * 4

/-- `t` is `s` after interrupt entry through vector `n` (R504): FLAGS, CS and `ip` stand on the stack
in that order, `ip` and CS are the two words of the table entry, IF is cleared by a controller
interrupt and kept by a software one, and nothing else changes. -/
structure Entry (n : Nat) (hardware : Bool) (s t : State) : Prop where
  only : Only
    { regs := [.sp], sregs := [.cs], flags := if hardware then [.IF] else [], ip := true,
      cells := wordCells s.segs.ss (s.regs.sp - 2) ++ wordCells s.segs.ss (s.regs.sp - 4)
        ++ wordCells s.segs.ss (s.regs.sp - 6) } s t
  sp : t.regs.sp = s.regs.sp - 6
  flags : t.read16 s.segs.ss (s.regs.sp - 2) = s.flags.word
  cs : t.read16 s.segs.ss (s.regs.sp - 4) = s.segs.cs
  ip : t.read16 s.segs.ss (s.regs.sp - 6) = s.ip
  newIp : t.ip = mkWord (t.mem.read (entryAddress s n)) (t.mem.read (entryAddress s n + 1))
  newCs : t.segs.cs = mkWord (t.mem.read (entryAddress s n + 2)) (t.mem.read (entryAddress s n + 3))
  masks : hardware = true → t.flags.IF = false

/-- Line `i` of an instance is the one that its arbiter picks (R522, R524): initialized, line `i`
unmasked and requested, no line at or above its priority in service, and no line of higher priority
both unmasked and requested. -/
structure Picks (c : Pic) (i : Nat) : Prop where
  ready : c.initStep = .ready
  line : i < 8
  unmasked : c.imr.getLsbD i = false
  requested : (c.irr.getLsbD i || c.level.getLsbD i) = true
  free : ∀ j ≤ i, c.isr.getLsbD j = false
  first : ∀ j < i, c.imr.getLsbD j = true ∨ (c.irr.getLsbD j || c.level.getLsbD j) = false

/-- `CX <- CX - 1` and a short jump, or not (44_control_transfer.md R357 to R359). -/
def looped (s : State) (taken : Bool) (d : Byte) : State :=
  { s with regs := { s.regs with cx := s.regs.cx - 1 },
           ip := if taken then s.ip + sext16 d else s.ip }

/-- A short jump, or not (R356, R360). -/
def jumped (s : State) (taken : Bool) (d : Byte) : State :=
  { s with ip := if taken then s.ip + sext16 d else s.ip }

/-! ## Encodings -/

/-- The primary opcodes that R116 refuses (30_encoding.md). -/
def refusedOp (op : Byte) : Bool :=
  op ∈ [0x0F#8, 0x60#8, 0x61#8, 0x62#8, 0x63#8, 0x64#8, 0x65#8, 0x66#8, 0x67#8, 0x68#8, 0x69#8,
    0x6A#8, 0x6B#8, 0x6C#8, 0x6D#8, 0x6E#8, 0x6F#8, 0xC8#8, 0xC9#8, 0xCE#8, 0xD4#8, 0xD5#8, 0xD6#8,
    0xF1#8]

/-- The opcode and ModRM byte that R116 refuses: reserved group slots, and register forms of the
memory-only operands. -/
def refusedModRm (op m : Byte) : Bool :=
  let reg := (m.extractLsb' 3 3).toNat
  let mod3 := m.extractLsb' 6 2 == 3#2
  (op ∈ [0xC0#8, 0xC1#8, 0xD0#8, 0xD1#8, 0xD2#8, 0xD3#8] && reg == 6)
    || (op ∈ [0xF6#8, 0xF7#8] && reg == 1)
    || (op == 0xFE#8 && reg ≥ 2)
    || (op == 0xFF#8 && reg == 7)
    || (op == 0xFF#8 && (reg == 3 || reg == 5) && mod3)
    || (op ∈ [0x8D#8, 0xC4#8, 0xC5#8] && mod3)

/-- What a prefix byte makes of the segment override and the repeat byte (R102). -/
def afterPrefix (p : Option SReg × RepPrefix) (i : Instr) : Option SReg × RepPrefix :=
  match i with
  | .prefixEs => (some .es, p.2)
  | .prefixCs => (some .cs, p.2)
  | .prefixSs => (some .ss, p.2)
  | .prefixDs => (some .ds, p.2)
  | .prefixLock => (p.1, .lock)
  | .prefixRepne => (p.1, .repne)
  | .prefixRep => (p.1, .rep)
  | _ => p

/-- The state in which an instruction of `n` bytes, its prefixes `ps` included, runs (R102, R113). -/
def runsFrom (s : State) (ps : List Instr) (n : Nat) : State :=
  { s with segOverride := (ps.foldl afterPrefix (none, .none)).1,
           rep := (ps.foldl afterPrefix (none, .none)).2,
           ip := s.ip + BitVec.ofNat 16 n }

/-- What a step answers when its instruction answers `o` (R100): the prefix record is discarded and the
clock count returned. -/
def stepOf (clocks : BitVec 32) (o : Out) : Out :=
  match o with
  | .next t => .next { t with segOverride := none, rep := .none, clocks := clocks }
  | .fault f => .fault f
  | .refused r => .refused r

/-- No controller interrupt is taken by the next step (60_exceptions.md R502). -/
def NoInterrupt (s : State) : Prop := s.flags.IF = false ∨ getNextInterrupt s.master s.slave = none

/-! ## Ports -/

/-- A call on a device of the platform leaves alone everything but the accumulator, the request and
level bits of the controllers, the log and the free-value counter (47_io.md R462). -/
structure DeviceKeeps (s t : State) : Prop where
  regs : ∀ r, r ≠ Reg16.ax → t.reg16 r = s.reg16 r
  segs : t.segs = s.segs
  ip : t.ip = s.ip
  flags : t.flags = s.flags
  mem : t.mem = s.mem
  ports : t.ports = s.ports
  params : t.params = s.params
  segOverride : t.segOverride = s.segOverride
  rep : t.rep = s.rep
  clocks : t.clocks = s.clocks
  master : { t.master with irr := s.master.irr, level := s.master.level } = s.master
  slave : { t.slave with irr := s.slave.irr, level := s.slave.level } = s.slave

/-! ## The invariant -/

/-- The slots are in rising order below 256, each named once (10_state.md R43). -/
def portsFrom (lo : Nat) : List (Nat × Device) → Prop
  | [] => True
  | (p, _) :: t => lo ≤ p ∧ p < 256 ∧ portsFrom (p + 1) t

/-- A line is in service only in a controller that is initialized and not in auto-EOI mode
(60_exceptions.md R524, R528, R529, R532). -/
def Pic.Inv (c : Pic) : Prop := c.isr ≠ 0#8 → c.initStep = .ready ∧ c.aeoi = false

/-- What every step keeps: memory in its canonical form, the prefix record empty, the port table well
formed, the controllers' in-service bits as above. -/
structure State.Inv (s : State) : Prop where
  mem : s.mem.wf = true
  segOverride : s.segOverride = none
  rep : s.rep = .none
  ports : portsFrom 0 s.ports
  master : s.master.Inv
  slave : s.slave.Inv

/-! ## Runs -/

/-- The next `n` steps all answer a next state. -/
def SafeFor : Nat → State → Prop
  | 0, _ => True
  | n + 1, s => ∃ t, step s = .next t ∧ SafeFor n t

/-- The machine stops at `s` with the fault `f`. -/
def StopsWith (f : Fault) (s : State) : Prop := step s = .fault f

end Sys2Proof.Machine
end

