-- ==== Sys2Proof/Certificates/Slice0/Obligations.lean ====
section
/-! DEFINITION. The statements for the provers, in the terms of Safety.lean. -/

open Sys2Proof Sys2Proof.Machine

/-! ## Encoding and decoding -/

/-- Decoding an encoded well-formed item gives the item back and leaves the bytes after it
(30_encoding.md R101 to R114). -/
def Obligations.DecodeOfEncode : Prop :=
  ∀ i : Instr, i.wf = true → ∀ rest, decode (encode i ++ rest) = .ok (i, rest)

/-- Six bytes or more always decode, and to an item whose encoding is exactly the bytes consumed: no
bit is dropped and no byte list has two readings (R119, R128). -/
def Obligations.EveryByteStringDecodes : Prop :=
  ∀ bs : List Byte, 6 ≤ bs.length →
    ∃ i rest, decode bs = .ok (i, rest) ∧ i.wf = true ∧ encode i ++ rest = bs

/-- Words that the spec writes out in its examples decode to the instruction that they stand for. -/
def Obligations.DecodesSpecWords : Prop :=
  decode [0xB8, 0x34, 0x12] = .ok (.mov (.r16Imm .ax 0x1234), []) ∧
  decode [0xC6, 0x47, 0x04, 0x12] = .ok (.mov (.rmImm8 0 (.mem (.base8 .bx 4)) 0x12), []) ∧
  decode [0x04, 0x01] = .ok (.add (.alImm 1), []) ∧
  decode [0xF7, 0xE3] = .ok (.mul (.rm16 (.reg .bx)), []) ∧
  decode [0xC1, 0xE8, 0x04] = .ok (.shr (.rm16 (.reg .ax) (.imm 4)), []) ∧
  decode [0xC5, 0x37] = .ok (.lds .si (.base0 .bx), []) ∧
  decode [0xFF, 0x36, 0x00, 0x20] = .ok (.push (.rm (.mem (.direct 0x2000))), []) ∧
  decode [0x9A, 0x00, 0x01, 0x00, 0xF0] = .ok (.callFar 0x0100 0xF000, []) ∧
  decode [0x74, 0x02] = .ok (.jz 2, []) ∧
  decode [0xA4] = .ok (.movsb, []) ∧
  decode [0xCD, 0x21] = .ok (.int 0x21, []) ∧
  decode [0xE4, 0xF3] = .ok (.inPort (.byteImm 0xF3), [])

/-- Exactly the encodings of R116 raise `DecodeFault`: after the opcode byte for a primary opcode,
after the ModRM byte for a group or memory-only combination; every other first two bytes never do. -/
def Obligations.RefusedEncodings : Prop :=
  ∀ (op m : Byte) (tail : List Byte) (s : State), 4 ≤ tail.length →
    ∃ i rest, decode (op :: m :: tail) = .ok (i, rest) ∧
      (refusedOp op = true → rest = m :: tail ∧ exec i s = .fault (.decodeFault op none)) ∧
      (refusedModRm op m = true → rest = tail ∧ exec i s = .fault (.decodeFault op (some m))) ∧
      (refusedOp op = false → refusedModRm op m = false →
        ∀ o r, exec i s ≠ .fault (.decodeFault o r))

/-- The meaning of every refused row of the opcode table is `DecodeFault` with the offending bytes, and
`0F`, INTO, AAM, AAD and the reserved slot of the shift group take no byte after the offending one
(R103, R116, R118, 42_shift_rotate.md R289). -/
def Obligations.RefusedRowsFault : Prop :=
  (∀ rest, decode (0x0F :: rest) = .ok (.escape0F, rest) ∧ decode (0xCE :: rest) = .ok (.into, rest) ∧
    decode (0xD4 :: rest) = .ok (.aam, rest) ∧ decode (0xD5 :: rest) = .ok (.aad, rest)) ∧
  (∀ op ∈ [0xC0#8, 0xC1#8, 0xD0#8, 0xD1#8, 0xD2#8, 0xD3#8], ∀ (mod : BitVec 2) (rm : BitVec 3) rest,
    decode (op :: (mod ++ (6#3 ++ rm)) :: rest) = .ok (.reserved op (mod ++ (6#3 ++ rm)), rest)) ∧
  ∀ s : State,
    exec .escape0F s = .fault (.decodeFault 0x0F none) ∧
    (∀ op, exec (.undocumented op) s = .fault (.decodeFault op none)) ∧
    (∀ op m, exec (.reserved op m) s = .fault (.decodeFault op (some m))) ∧
    exec .into s = .fault (.decodeFault 0xCE none) ∧
    exec .aam s = .fault (.decodeFault 0xD4 none) ∧
    exec .aad s = .fault (.decodeFault 0xD5 none) ∧
    (∀ reg rm, exec (.leaReg reg rm) s = .fault (.decodeFault 0x8D (some (3#2 ++ (reg ++ rm))))) ∧
    (∀ reg rm, exec (.lesReg reg rm) s = .fault (.decodeFault 0xC4 (some (3#2 ++ (reg ++ rm))))) ∧
    (∀ reg rm, exec (.ldsReg reg rm) s = .fault (.decodeFault 0xC5 (some (3#2 ++ (reg ++ rm))))) ∧
    (∀ rm, exec (.callFarReg rm) s = .fault (.decodeFault 0xFF (some (3#2 ++ (3#3 ++ rm))))) ∧
    (∀ rm, exec (.jmpFarReg rm) s = .fault (.decodeFault 0xFF (some (3#2 ++ (5#3 ++ rm)))))

/-! ## The step -/

/-- When no interrupt is taken and the bytes at `CS:ip` decode to an instruction, the step is that
instruction run from the state with an empty prefix record and `ip` past its bytes (R100, R113). -/
def Obligations.StepRunsDecodedInstruction : Prop :=
  ∀ (s : State) (i : Instr) (rest : List Byte), NoInterrupt s →
    decode s.window = .ok (i, rest) → i.isPrefix = false →
    step s = stepOf (clockCost i (runsFrom s [] (6 - rest.length)))
      (exec i (runsFrom s [] (6 - rest.length)))

/-- When no interrupt is taken and the bytes from `CS:ip` on are any number of prefixes and one
instruction, one step runs the instruction with the override and the repeat byte of the last prefix of
each class and `ip` past all the bytes (R100, R101, R102, R113). -/
def Obligations.StepRunsPrefixedBytes : Prop :=
  ∀ (s : State) (ps : List Instr) (i : Instr), NoInterrupt s →
    (∀ p ∈ ps, p.isPrefix = true) → i.isPrefix = false → i.wf = true →
    (ps.flatMap encode ++ encode i).length ≤ 2 ^ 16 →
    (∀ k b, (ps.flatMap encode ++ encode i)[k]? = some b → s.codeByte k = b) →
    step s =
      stepOf (clockCost i (runsFrom s ps (ps.flatMap encode ++ encode i).length))
        (exec i (runsFrom s ps (ps.flatMap encode ++ encode i).length))

/-- With IF set and a line that the arbiter gives, the step delivers that line and vectors through it,
and runs no instruction (60_exceptions.md R502). -/
def Obligations.StepTakesInterrupt : Prop :=
  ∀ (s : State) (line : Nat), s.mem.wf = true → s.flags.IF = true →
    getNextInterrupt s.master s.slave = some line →
    ∃ u, step s = stepOf Config.vectorClocks (.next u) ∧ Entry line true (s.deliver line) u

/-- A step never refuses, and it stops only by `DecodeFault`, by `PortFault`, or by the model's own
`decodeHang`, which needs a code segment of nothing but prefix bytes (R102, R560). That an endless
prefix walk is written as a fault is the model's choice (log entry 12): R102 says that it is "a hang,
not a fault". -/
def Obligations.StepOutcomes : Prop :=
  ∀ s : State,
    (∃ t, step s = .next t) ∨
    (∃ op m, step s = .fault (.decodeFault op m)) ∨
    (∃ p w, step s = .fault (.portFault p w)) ∨
    (step s = .fault .decodeHang ∧
      ∀ k, s.codeByte k ∈ [0x26#8, 0x2E#8, 0x36#8, 0x3E#8, 0xF0#8, 0xF2#8, 0xF3#8])

/-! ## Reset and the invariant -/

/-- CPU and controller state after reset, as far as the spec gives values (10_state.md R50, R51). -/
def Obligations.ResetValues : Prop :=
  (State.reset.segs.cs = 0xFFFF ∧ State.reset.ip = 0 ∧
    phys State.reset.segs.cs State.reset.ip = 0xFFFF0 ∧
    State.reset.segs.ds = 0 ∧ State.reset.segs.es = 0 ∧ State.reset.segs.ss = 0 ∧
    (∀ k, State.reset.flags.get k = false) ∧ State.reset.flags.word = 0xF002 ∧
    State.reset.segOverride = none ∧ State.reset.rep = .none) ∧
  (∀ k, (State.reset.pic k).initStep = .never ∧ (State.reset.pic k).imr = 0 ∧
    (State.reset.pic k).irr = 0 ∧ (State.reset.pic k).isr = 0 ∧ (State.reset.pic k).icw1 = 0 ∧
    (State.reset.pic k).icw2 = 0 ∧ (State.reset.pic k).icw3 = 0 ∧ (State.reset.pic k).icw4 = 0 ∧
    (State.reset.pic k).vbase = 0 ∧ (State.reset.pic k).cascadeMask = 0 ∧
    (State.reset.pic k).cascadeLine = none ∧ (State.reset.pic k).aeoi = false ∧
    (State.reset.pic k).readIsr = false) ∧
  getNextInterrupt State.reset.master State.reset.slave = none

/-- The invariant holds after reset. -/
def Obligations.ResetInv : Prop := State.reset.Inv

/-- Every step keeps the invariant: memory canonical, prefix record empty, port table well formed,
lines in service only in an initialized controller without auto-EOI. -/
def Obligations.StepKeepsInv : Prop := ∀ s t : State, s.Inv → step s = .next t → t.Inv

/-- What the environment does, between steps or at attach time, keeps the invariant (00_scope.md R5,
47_io.md R464). -/
def Obligations.EnvironmentKeepsInv : Prop :=
  (∀ (s t : State) (e : EnvEvent), s.Inv → s.environ e = .next t → t.Inv) ∧
  (∀ (s t : State) (d : Device) (ps : List Byte), s.Inv → s.attach d ps = .next t → t.Inv)

/-- Whole-machine rules: no instruction changes the port table or a parameter (47_io.md R464); only
IN and OUT reach the controllers or a device; only the instructions named here write TF, DF, IF
(10_state.md R38) and CS (R34). -/
def Obligations.WhoWritesWhat : Prop :=
  ∀ (i : Instr) (s t : State), i.wf = true → exec i s = .next t →
    t.ports = s.ports ∧ t.params = s.params ∧
    ((∀ f, i ≠ .inPort f) → (∀ f, i ≠ .outPort f) →
      t.master = s.master ∧ t.slave = s.slave ∧ t.portLog = s.portLog) ∧
    (i ∉ [.popf, .iret] → t.flags.TF = s.flags.TF) ∧
    (i ∉ [.popf, .iret, .cld, .std] → t.flags.DF = s.flags.DF) ∧
    (i ∉ [.popf, .iret, .cli, .sti] → t.flags.IF = s.flags.IF) ∧
    ((∀ h rm, i ≠ .mov (.sregRm h .cs rm)) → (∀ o g, i ≠ .jmpFar o g) →
      (∀ m, i ≠ .jmpFarInd m) → (∀ o g, i ≠ .callFar o g) → (∀ m, i ≠ .callFarInd m) →
      (∀ f, i ≠ .retf f) → (∀ n, i ≠ .int n) → i ≠ .int3 → i ≠ .iret →
      (∀ f, i ≠ .div f) → (∀ f, i ≠ .idiv f) → t.segs.cs = s.segs.cs)

/-! ## Registers and memory -/

/-- Byte halves: reads and writes go through the owning register, and writing a half leaves the other
(R31). -/
def Obligations.ByteHalves : Prop :=
  ∀ (s : State) (v : Byte),
    (s.reg8 .al = s.regs.ax.extractLsb' 0 8 ∧ s.reg8 .ah = s.regs.ax.extractLsb' 8 8 ∧
      s.reg8 .bl = s.regs.bx.extractLsb' 0 8 ∧ s.reg8 .bh = s.regs.bx.extractLsb' 8 8 ∧
      s.reg8 .cl = s.regs.cx.extractLsb' 0 8 ∧ s.reg8 .ch = s.regs.cx.extractLsb' 8 8 ∧
      s.reg8 .dl = s.regs.dx.extractLsb' 0 8 ∧ s.reg8 .dh = s.regs.dx.extractLsb' 8 8) ∧
    (∀ r, (s.setReg8 r v).reg8 r = v ∧ Only { bytes := [r] } s (s.setReg8 r v))

/-- FLAGS reads as the tracked bits with the always-one bits set, and a write keeps the tracked bits
only (R36, R37). -/
def Obligations.FlagsWord : Prop :=
  (∀ f : Flags, f.word.getLsbD 0 = f.CF ∧ f.word.getLsbD 2 = f.PF ∧ f.word.getLsbD 4 = f.AF ∧
    f.word.getLsbD 6 = f.ZF ∧ f.word.getLsbD 7 = f.SF ∧ f.word.getLsbD 8 = f.TF ∧
    f.word.getLsbD 9 = f.IF ∧ f.word.getLsbD 10 = f.DF ∧ f.word.getLsbD 11 = f.OF) ∧
  (∀ f : Flags, f.word &&& ~~~0x0FD5#16 = 0xF002#16) ∧
  (∀ v : Word, (Flags.ofWord v).word = (v &&& 0x0FD5#16) ||| 0xF002#16) ∧
  (∀ f : Flags, Flags.ofWord f.word = f)

/-- Memory: a byte written is read back, every other byte is as before, the canonical form is kept, and
two canonical memories that read alike everywhere are equal data (20_memory.md R71). -/
def Obligations.MemoryReadsBackWrites : Prop :=
  (∀ (m : Memory) (a : Nat) (v : Byte), m.wf = true → a < 2 ^ 20 →
    (m.write a v).wf = true ∧ (m.write a v).read a = v ∧
    ∀ b, b ≠ a → (m.write a v).read b = m.read b) ∧
  ∀ m n : Memory, m.wf = true → n.wf = true → (∀ a, m.read a = n.read a) → m = n

/-- A word is two bytes, the low one at the given offset and the high one at the next offset of the
same segment, modulo 2^16; nothing else is written (R72, R73, R74). -/
def Obligations.WordAccess : Prop :=
  ∀ (s : State) (seg off v : Word) (b : Byte), s.mem.wf = true →
    s.read8 seg off = s.mem.read ((seg.toNat * 16 + off.toNat) % 2 ^ 20) ∧
    (s.write8 seg off b).read8 seg off = b ∧
    Only { cells := [(seg.toNat * 16 + off.toNat) % 2 ^ 20] } s (s.write8 seg off b) ∧
    s.read16 seg off = s.read8 seg (off + 1) ++ s.read8 seg off ∧
    (s.write16 seg off v).read8 seg off = v.extractLsb' 0 8 ∧
    (s.write16 seg off v).read8 seg (off + 1) = v.extractLsb' 8 8 ∧
    (s.write16 seg off v).read16 seg off = v ∧
    Only { cells := [phys seg off, phys seg (off + 1)] } s (s.write16 seg off v)

/-- Push and pop: SP moves by 2 modulo 2^16, the word stands at the new `SS:SP`, and a pop takes it
back (R77). -/
def Obligations.StackWords : Prop :=
  ∀ (s : State) (v : Word), s.mem.wf = true →
    (s.push16 v).regs.sp = s.regs.sp - 2 ∧
    (s.push16 v).read16 s.segs.ss (s.regs.sp - 2) = v ∧
    Only { regs := [.sp], cells := wordCells s.segs.ss (s.regs.sp - 2) } s (s.push16 v) ∧
    s.top16 = s.read16 s.segs.ss s.regs.sp ∧
    s.drop16 = { s with regs := { s.regs with sp := s.regs.sp + 2 } } ∧
    (s.push16 v).top16 = v ∧ (s.push16 v).drop16.regs = s.regs

/-- The effective offset and segment of a memory operand (R76, 30_encoding.md R111). -/
def Obligations.EffectiveAddress : Prop :=
  ∀ (s : State) (b : Base) (d8 : Byte) (d a : Word),
    (s.baseValue .bxsi = s.regs.bx + s.regs.si ∧ s.baseValue .bxdi = s.regs.bx + s.regs.di ∧
      s.baseValue .bpsi = s.regs.bp + s.regs.si ∧ s.baseValue .bpdi = s.regs.bp + s.regs.di ∧
      s.baseValue .si = s.regs.si ∧ s.baseValue .di = s.regs.di ∧
      s.baseValue .bp = s.regs.bp ∧ s.baseValue .bx = s.regs.bx) ∧
    (s.eaOff (.base0 b) = s.baseValue b ∧ s.eaOff (.base8 b d8) = s.baseValue b + d8.signExtend 16 ∧
      s.eaOff (.base16 b d) = s.baseValue b + d ∧ s.eaOff (.direct a) = a) ∧
    (∀ r m, s.segOverride = some r → s.eaSeg m = s.sreg r) ∧
    (s.segOverride = none →
      s.eaSeg (.direct a) = s.segs.ds ∧
      ∀ m ∈ [MemRef.base0 b, .base8 b d8, .base16 b d],
        s.eaSeg m = if b ∈ [Base.bpsi, .bpdi, .bp] then s.segs.ss else s.segs.ds)

/-! ## Arithmetic and logic -/

/-- ADD and ADC, every form (41_alu.md R222, R226, R230, R232). -/
def Obligations.AddAdc : Prop :=
  ∀ (f : AluForm) (s : State), s.mem.wf = true →
    ComputesPair (exec (.add f) s) s f.ops aluFlags false
      (fun {n} a b => BitVec.ofNat n (a.toNat + b.toNat))
      (fun a b => AddRule a b (a.toNat + b.toNat)) ∧
    ComputesPair (exec (.adc f) s) s f.ops aluFlags false
      (fun {n} a b => BitVec.ofNat n (a.toNat + b.toNat + s.flags.CF.toNat))
      (fun a b => AddRule a b (a.toNat + b.toNat + s.flags.CF.toNat))

/-- SUB and SBB, every form (R223, R226, R233, R235). -/
def Obligations.SubSbb : Prop :=
  ∀ (f : AluForm) (s : State), s.mem.wf = true →
    ComputesPair (exec (.sub f) s) s f.ops aluFlags false
      (fun {n} a b => BitVec.ofInt n (a.toNat - b.toNat))
      (fun a b => SubRule a b (a.toNat - b.toNat)) ∧
    ComputesPair (exec (.sbb f) s) s f.ops aluFlags false
      (fun {n} a b => BitVec.ofInt n (a.toNat - b.toNat - s.flags.CF.toNat))
      (fun a b => SubRule a b (a.toNat - b.toNat - s.flags.CF.toNat))

/-- OR, AND and XOR, every form: CF and OF clear, AF under `UNDEF_FLAGS` (R224, R225, R226, R231,
R234, R236). -/
def Obligations.OrAndXor : Prop :=
  ∀ (f : AluForm) (s : State), s.mem.wf = true →
    (ComputesPair (exec (.or f) s) s f.ops aluFlags true (fun a b => a ||| b)
      (fun a b => LogicRule (a ||| b)) ∧
    ComputesPair (exec (.and f) s) s f.ops aluFlags true (fun a b => a &&& b)
      (fun a b => LogicRule (a &&& b)) ∧
    ComputesPair (exec (.xor f) s) s f.ops aluFlags true (fun a b => a ^^^ b)
      (fun a b => LogicRule (a ^^^ b))) ∧
    ∀ i ∈ [Instr.or f, .and f, .xor f], ∀ t, exec i s = .next t → UndefRule [.AF] s t

/-- CMP and TEST, every form: the flags of SUB and AND, and no operand written (R226, R237, R238). -/
def Obligations.CmpTest : Prop :=
  ∀ s : State,
    (∀ f : AluForm, ComparesPair (exec (.cmp f) s) s f.ops aluFlags false
      (fun a b => SubRule a b (a.toNat - b.toNat))) ∧
    (∀ f : TestForm, ComparesPair (exec (.test f) s) s f.ops aluFlags true
      (fun a b => LogicRule (a &&& b)) ∧ ∀ t, exec (.test f) s = .next t → UndefRule [.AF] s t)

/-- INC and DEC, every form: the flags of adding or subtracting 1, but CF is as before (R240, R241). -/
def Obligations.IncDec : Prop :=
  ∀ (f : IncForm) (s : State), s.mem.wf = true →
    ComputesSingle (exec (.inc f) s) s f.op [.PF, .AF, .ZF, .SF, .OF] (fun a => a + 1)
      (fun {n} a g => AddRule a 1#n (a.toNat + 1) { g with CF := decide (2 ^ n - 1 < a.toNat + 1) }) ∧
    ComputesSingle (exec (.dec f) s) s f.op [.PF, .AF, .ZF, .SF, .OF] (fun a => a - 1)
      (fun {n} a g => SubRule a 1#n (a.toNat - 1) { g with CF := decide ((a.toNat : Int) - 1 < 0) })

/-- NEG subtracts its operand from zero; NOT inverts it and writes no flag (R242, R243). -/
def Obligations.NegNot : Prop :=
  ∀ (f : UnForm) (s : State), s.mem.wf = true →
    ComputesSingle (exec (.neg f) s) s f.op aluFlags (fun a => -a)
      (fun {n} a g => SubRule 0#n a (0 - a.toNat) g ∧ (g.CF = true ↔ a ≠ 0#n) ∧
        (g.OF = true ↔ a.toNat = 2 ^ (n - 1)) ∧ (g.AF = true ↔ a.toNat % 16 ≠ 0)) ∧
    ComputesSingle (exec (.not f) s) s f.op [] (fun a => ~~~a) (fun _ _ => True)

/-- What the flags mean (R227): after ADD and SUB, OF says that the signed result does not fit; after
CMP, CF is unsigned less, ZF equal, and SF different from OF signed less. -/
def Obligations.FlagsReportOrder : Prop :=
  ∀ (f : AluForm) (s : State), s.mem.wf = true →
    ComputesPair (exec (.add f) s) s f.ops aluFlags false (fun a b => a + b)
      (fun {n} a b g => g.OF = true ↔
        a.toInt + b.toInt < -2 ^ (n - 1) ∨ (2 ^ (n - 1) : Int) ≤ a.toInt + b.toInt) ∧
    ComputesPair (exec (.sub f) s) s f.ops aluFlags false (fun a b => a - b)
      (fun {n} a b g => g.OF = true ↔
        a.toInt - b.toInt < -2 ^ (n - 1) ∨ (2 ^ (n - 1) : Int) ≤ a.toInt - b.toInt) ∧
    ComparesPair (exec (.cmp f) s) s f.ops aluFlags false
      (fun a b g => (g.CF = true ↔ a.toNat < b.toNat) ∧ (g.ZF = true ↔ a = b) ∧
        (g.SF ≠ g.OF ↔ a.toInt < b.toInt))

/-! ## Shifts and rotates -/

/-- A count of zero writes nothing, whichever the operation and form (42_shift_rotate.md R281). -/
def Obligations.ShiftByZero : Prop :=
  ∀ (f : ShiftForm) (s : State), s.count f.op.2 = 0 →
    ∀ i ∈ [Instr.rol f, .ror f, .rcl f, .rcr f, .shl f, .shr f, .sar f], exec i s = .next s

/-- ROL and ROR in closed form, for every count that is not zero (R280 to R283). -/
def Obligations.RotatesClosedForm : Prop :=
  ∀ (f : ShiftForm) (s : State), s.mem.wf = true → s.count f.op.2 ≠ 0 →
    Shifts (exec (.rol f) s) s f
      (fun k v _ v' c' => v' = v.rotateLeft k ∧ c' = v'.getLsbD 0)
      (fun {n} v c => c ^^ v.getLsbD (n - 1)) false ∧
    Shifts (exec (.ror f) s) s f
      (fun {n} k v _ v' c' => v' = v.rotateRight k ∧ c' = v'.getLsbD (n - 1))
      (fun {n} v _ => v.getLsbD (n - 1) ^^ v.getLsbD (n - 2)) false

/-- RCL and RCR in closed form: the value with CF above it, rotated (R284, R285). -/
def Obligations.CarryRotatesClosedForm : Prop :=
  ∀ (f : ShiftForm) (s : State), s.mem.wf = true → s.count f.op.2 ≠ 0 →
    Shifts (exec (.rcl f) s) s f
      (fun k v c v' c' => BitVec.ofBool c' ++ v' = (BitVec.ofBool c ++ v).rotateLeft k)
      (fun {n} v c => c ^^ v.getLsbD (n - 1)) false ∧
    Shifts (exec (.rcr f) s) s f
      (fun k v c v' c' => BitVec.ofBool c' ++ v' = (BitVec.ofBool c ++ v).rotateRight k)
      (fun {n} v _ => v.getLsbD (n - 1) ^^ v.getLsbD (n - 2)) false

/-- SHL, SHR and SAR in closed form, for every count that is not zero, larger than the width too (R286
to R288). -/
def Obligations.ShiftsClosedForm : Prop :=
  ∀ (f : ShiftForm) (s : State), s.mem.wf = true → s.count f.op.2 ≠ 0 →
    Shifts (exec (.shl f) s) s f
      (fun {n} k v _ v' c' => v' = v <<< k ∧ c' = (decide (k ≤ n) && v.getLsbD (n - k)))
      (fun {n} v c => c ^^ v.getLsbD (n - 1)) true ∧
    Shifts (exec (.shr f) s) s f
      (fun k v _ v' c' => v' = v >>> k ∧ c' = v.getLsbD (k - 1))
      (fun {n} v _ => v.getLsbD (n - 1) ^^ v.getLsbD (n - 2)) true ∧
    Shifts (exec (.sar f) s) s f
      (fun {n} k v _ v' c' => v' = v.sshiftRight k ∧ c' = v.getLsbD (min k n - 1))
      (fun {n} v _ => v.getLsbD (n - 1) ^^ v.getLsbD (n - 2)) true

/-! ## Multiply, divide, adjust -/

/-- MUL and IMUL: the whole product in AX or DX and AX, flags by the add family on the unsplit product
(43_muldiv_bcd.md R310, R311). -/
def Obligations.MulImul : Prop :=
  ∀ s : State,
    (∀ (i : Instr) (rm : Rm8) (raw : Nat),
      i = .mul (.rm8 rm) ∧ raw = (s.reg8 .al).toNat * (s.get8 (.ofRm rm)).toNat ∨
      i = .imul (.rm8 rm) ∧
        raw = (BitVec.ofInt 16 ((s.reg8 .al).toInt * (s.get8 (.ofRm rm)).toInt)).toNat →
      ∃ t, exec i s = .next t ∧ Only { regs := [.ax], flags := aluFlags } s t ∧
        t.regs.ax.toNat = raw ∧ AddRule (s.reg8 .al) (s.get8 (.ofRm rm)) raw t.flags) ∧
    (∀ (i : Instr) (rm : Rm16) (raw : Nat),
      i = .mul (.rm16 rm) ∧ raw = s.regs.ax.toNat * (s.get16 (.ofRm rm)).toNat ∨
      i = .imul (.rm16 rm) ∧
        raw = (BitVec.ofInt 32 (s.regs.ax.toInt * (s.get16 (.ofRm rm)).toInt)).toNat →
      ∃ t, exec i s = .next t ∧ Only { regs := [.ax, .dx], flags := aluFlags } s t ∧
        (t.regs.dx ++ t.regs.ax : BitVec 32).toNat = raw ∧
        AddRule s.regs.ax (s.get16 (.ofRm rm)) raw t.flags)

/-- DIV and IDIV complete when the divisor is not zero and the quotient (for IDIV rounded toward zero)
fits: quotient and remainder, which for IDIV has the sign of the dividend; no flag is written but what
`UNDEF_FLAGS` allows (R312, R313). -/
def Obligations.DivIdivComplete : Prop :=
  ∀ s : State,
    (∀ rm : Rm8, let d := (s.get8 (.ofRm rm)).toNat
      d ≠ 0 → s.regs.ax.toNat / d < 2 ^ 8 →
      ∃ t, exec (.div (.rm8 rm)) s = .next t ∧
        Only { regs := [.ax], flags := aluFlags, free := true } s t ∧ UndefRule aluFlags s t ∧
        (t.reg8 .al).toNat = s.regs.ax.toNat / d ∧ (t.reg8 .ah).toNat = s.regs.ax.toNat % d) ∧
    (∀ rm : Rm16, let d := (s.get16 (.ofRm rm)).toNat
      let n := s.regs.dx.toNat * 2 ^ 16 + s.regs.ax.toNat
      d ≠ 0 → n / d < 2 ^ 16 →
      ∃ t, exec (.div (.rm16 rm)) s = .next t ∧
        Only { regs := [.ax, .dx], flags := aluFlags, free := true } s t ∧
        UndefRule aluFlags s t ∧ t.regs.ax.toNat = n / d ∧ t.regs.dx.toNat = n % d) ∧
    (∀ rm : Rm8, let d := (s.get8 (.ofRm rm)).toInt
      let n := s.regs.ax.toInt
      d ≠ 0 → -128 ≤ n.tdiv d → n.tdiv d ≤ 127 →
      ∃ t, exec (.idiv (.rm8 rm)) s = .next t ∧
        Only { regs := [.ax], flags := aluFlags, free := true } s t ∧ UndefRule aluFlags s t ∧
        (t.reg8 .al).toInt = n.tdiv d ∧ (t.reg8 .ah).toInt = n - n.tdiv d * d) ∧
    (∀ rm : Rm16, let d := (s.get16 (.ofRm rm)).toInt
      let n := (s.regs.dx ++ s.regs.ax : BitVec 32).toInt
      d ≠ 0 → -32768 ≤ n.tdiv d → n.tdiv d ≤ 32767 →
      ∃ t, exec (.idiv (.rm16 rm)) s = .next t ∧
        Only { regs := [.ax, .dx], flags := aluFlags, free := true } s t ∧
        UndefRule aluFlags s t ∧ t.regs.ax.toInt = n.tdiv d ∧
        t.regs.dx.toInt = n - n.tdiv d * d)

/-- A zero divisor or a quotient that does not fit takes interrupt 0 with no register written
(R312, R313, R314). -/
def Obligations.DivideErrors : Prop :=
  ∀ s : State, s.mem.wf = true →
    (∀ rm : Rm8, let d := s.get8 (.ofRm rm)
      (d.toNat = 0 ∨ 2 ^ 8 ≤ s.regs.ax.toNat / d.toNat →
        ∃ t, exec (.div (.rm8 rm)) s = .next t ∧ Entry 0 false s t) ∧
      (d.toInt = 0 ∨ s.regs.ax.toInt.tdiv d.toInt < -128 ∨ 127 < s.regs.ax.toInt.tdiv d.toInt →
        ∃ t, exec (.idiv (.rm8 rm)) s = .next t ∧ Entry 0 false s t)) ∧
    (∀ rm : Rm16, let d := s.get16 (.ofRm rm)
      let n : BitVec 32 := s.regs.dx ++ s.regs.ax
      (d.toNat = 0 ∨ 2 ^ 16 ≤ n.toNat / d.toNat →
        ∃ t, exec (.div (.rm16 rm)) s = .next t ∧ Entry 0 false s t) ∧
      (d.toInt = 0 ∨ n.toInt.tdiv d.toInt < -32768 ∨ 32767 < n.toInt.tdiv d.toInt →
        ∃ t, exec (.idiv (.rm16 rm)) s = .next t ∧ Entry 0 false s t))

/-- DAA and DAS (R320, R321). -/
def Obligations.DaaDas : Prop :=
  ∀ s : State,
    let al := s.reg8 .al
    let low : Prop := 9 < (al &&& 0x0F).toNat ∨ s.flags.AF = true
    let high : Prop := 0x99 < al.toNat ∨ s.flags.CF = true
    (∃ t, exec .daa s = .next t ∧
      Only { bytes := [.al], flags := aluFlags, free := true } s t ∧ UndefRule [.OF] s t ∧
      (low → high → t.reg8 .al = al + 0x66) ∧ (low → ¬high → t.reg8 .al = al + 0x06) ∧
      (¬low → high → t.reg8 .al = al + 0x60) ∧ (¬low → ¬high → t.reg8 .al = al) ∧
      (t.flags.AF = true ↔ low) ∧ (t.flags.CF = true ↔ high) ∧ SzpRule (t.reg8 .al) t.flags) ∧
    (∃ t, exec .das s = .next t ∧
      Only { bytes := [.al], flags := aluFlags, free := true } s t ∧ UndefRule [.OF] s t ∧
      (low → high → t.reg8 .al = al - 0x66) ∧ (low → ¬high → t.reg8 .al = al - 0x06) ∧
      (¬low → high → t.reg8 .al = al - 0x60) ∧ (¬low → ¬high → t.reg8 .al = al) ∧
      (t.flags.AF = true ↔ low) ∧ (t.flags.CF = true ↔ high ∨ low ∧ al.toNat < 6) ∧
      SzpRule (t.reg8 .al) t.flags)

/-- AAA and AAS (R322, R323). -/
def Obligations.AaaAas : Prop :=
  ∀ s : State,
    let al := s.reg8 .al
    let ah := s.reg8 .ah
    let low : Prop := 9 < (al &&& 0x0F).toNat ∨ s.flags.AF = true
    (∃ t, exec .aaa s = .next t ∧
      Only { regs := [.ax], flags := aluFlags, free := true } s t ∧
      UndefRule [.OF, .SF, .ZF, .PF] s t ∧
      (low → t.reg8 .al = (al + 6) &&& 0x0F ∧ t.reg8 .ah = ah + 1) ∧
      (¬low → t.reg8 .al = al &&& 0x0F ∧ t.reg8 .ah = ah) ∧
      (t.flags.AF = true ↔ low) ∧ (t.flags.CF = true ↔ low)) ∧
    (∃ t, exec .aas s = .next t ∧
      Only { regs := [.ax], flags := aluFlags, free := true } s t ∧
      UndefRule [.OF, .SF, .ZF, .PF] s t ∧
      (low → t.reg8 .al = (al - 6) &&& 0x0F ∧ t.reg8 .ah = ah - 1) ∧
      (¬low → t.reg8 .al = al &&& 0x0F ∧ t.reg8 .ah = ah) ∧
      (t.flags.AF = true ↔ low) ∧ (t.flags.CF = true ↔ low))

/-! ## Data transfer -/

/-- MOV, every form: operand 1 takes operand 2 as it was, and nothing else changes
(40_data_transfer.md R170 to R175). -/
def Obligations.MovMoves : Prop :=
  ∀ (f : MovForm) (s : State), s.mem.wf = true →
    ComputesPair (exec (.mov f) s) s f.ops [] false (fun _ b => b) (fun _ _ _ => True)

/-- XCHG, every form: each operand takes what the other was (R176, R177). -/
def Obligations.XchgSwaps : Prop :=
  ∀ (f : XchgForm) (s : State), s.mem.wf = true →
    ∃ t, exec (.xchg f) s = .next t ∧
      Only ((s.placePair f.ops).join (s.placeSecond f.ops)) s t ∧
      match f.ops with
      | .b o1 o2 => s.look8 t o1 = s.get8 o2 ∧ s.look8 t o2 = s.get8 o1
      | .w o1 o2 => s.look16 t o1 = s.get16 o2 ∧ s.look16 t o2 = s.get16 o1

/-- PUSH, every form, and PUSHF: the operand as it was before SP changed stands at the new `SS:SP`
(R180 to R182, R186). -/
def Obligations.PushPushf : Prop :=
  ∀ (s : State), s.mem.wf = true → ∀ (i : Instr) (v : Word),
    (∃ f : PushForm, i = .push f ∧ v = s.get16 f.op) ∨ i = .pushf ∧ v = s.flags.word →
    ∃ t, exec i s = .next t ∧ t.regs.sp = s.regs.sp - 2 ∧
      t.read16 s.segs.ss (s.regs.sp - 2) = v ∧
      Only { regs := [.sp], cells := wordCells s.segs.ss (s.regs.sp - 2) } s t

/-- POP, every form, and POPF: the word at `SS:SP` goes to the operand, SP grows by 2 unless SP is the
operand (R183 to R185, R187). -/
def Obligations.PopPopf : Prop :=
  ∀ s : State, s.mem.wf = true →
    (∀ f : PopForm, ∃ t, exec (.pop f) s = .next t ∧
      s.look16 t f.op = s.read16 s.segs.ss s.regs.sp ∧
      (f.op ≠ .reg .sp → t.regs.sp = s.regs.sp + 2) ∧
      Only ((s.place16 f.op).join { regs := [.sp] }) s t) ∧
    (∃ t, exec .popf s = .next t ∧ t.flags = Flags.ofWord (s.read16 s.segs.ss s.regs.sp) ∧
      t.regs.sp = s.regs.sp + 2 ∧
      Only { regs := [.sp], flags := [.CF, .PF, .AF, .ZF, .SF, .TF, .IF, .DF, .OF] } s t)

/-- LAHF and SAHF (R188, R190). -/
def Obligations.LahfSahf : Prop :=
  ∀ s : State,
    (∃ t, exec .lahf s = .next t ∧ Only { bytes := [.ah] } s t ∧
      t.reg8 .ah = bit s.flags.SF ++ bit s.flags.ZF ++ 0#1 ++ bit s.flags.AF ++ 0#1
        ++ bit s.flags.PF ++ 1#1 ++ bit s.flags.CF) ∧
    (∃ t, exec .sahf s = .next t ∧ Only { flags := [.SF, .ZF, .AF, .PF, .CF] } s t ∧
      t.flags.SF = (s.reg8 .ah).getLsbD 7 ∧ t.flags.ZF = (s.reg8 .ah).getLsbD 6 ∧
      t.flags.AF = (s.reg8 .ah).getLsbD 4 ∧ t.flags.PF = (s.reg8 .ah).getLsbD 2 ∧
      t.flags.CF = (s.reg8 .ah).getLsbD 0)

/-- XLAT, LEA, LDS, LES, CBW, CWD; the register forms of LEA, LDS, LES are `DecodeFault` (R189, R191 to
R195). -/
def Obligations.LoadsAndExtends : Prop :=
  ∀ (s : State) (r : Reg16) (m : MemRef),
    (∃ t, exec .xlat s = .next t ∧ Only { bytes := [.al] } s t ∧
      t.reg8 .al = s.read8 (s.segOr .ds) (s.regs.bx + (s.reg8 .al).setWidth 16)) ∧
    (∃ t, exec (.lea r m) s = .next t ∧ Only { regs := [r] } s t ∧ t.reg16 r = s.eaOff m) ∧
    (∃ t, exec (.lds r m) s = .next t ∧ Only { regs := [r], sregs := [.ds] } s t ∧
      t.reg16 r = s.read16 (s.eaSeg m) (s.eaOff m) ∧
      t.segs.ds = s.read16 (s.eaSeg m) (s.eaOff m + 2)) ∧
    (∃ t, exec (.les r m) s = .next t ∧ Only { regs := [r], sregs := [.es] } s t ∧
      t.reg16 r = s.read16 (s.eaSeg m) (s.eaOff m) ∧
      t.segs.es = s.read16 (s.eaSeg m) (s.eaOff m + 2)) ∧
    (∃ t, exec .cbw s = .next t ∧ Only { bytes := [.ah] } s t ∧
      t.reg8 .ah = if (s.reg8 .al).getLsbD 7 then 0xFF else 0x00) ∧
    (∃ t, exec .cwd s = .next t ∧ Only { regs := [.dx] } s t ∧
      t.regs.dx = if s.regs.ax.getLsbD 15 then 0xFFFF else 0x0000) ∧
    (∀ i : Instr, (∃ reg rm, i = .leaReg reg rm ∨ i = .ldsReg reg rm ∨ i = .lesReg reg rm) →
      ∃ op m, exec i s = .fault (.decodeFault op (some m)))

/-! ## Control transfer -/

/-- The sixteen conditional jumps: `ip` moves by the sign-extended byte exactly when the condition
holds, and nothing else changes (44_control_transfer.md R356). -/
def Obligations.ConditionalJumps : Prop :=
  ∀ (d : Byte) (s : State), let g := s.flags
    exec (.jo d) s = .next (jumped s (g.OF == true) d) ∧
    exec (.jno d) s = .next (jumped s (g.OF == false) d) ∧
    exec (.jb d) s = .next (jumped s (g.CF == true) d) ∧
    exec (.jnb d) s = .next (jumped s (g.CF == false) d) ∧
    exec (.jz d) s = .next (jumped s (g.ZF == true) d) ∧
    exec (.jnz d) s = .next (jumped s (g.ZF == false) d) ∧
    exec (.jbe d) s = .next (jumped s (g.CF == true || g.ZF == true) d) ∧
    exec (.ja d) s = .next (jumped s (g.CF == false && g.ZF == false) d) ∧
    exec (.js d) s = .next (jumped s (g.SF == true) d) ∧
    exec (.jns d) s = .next (jumped s (g.SF == false) d) ∧
    exec (.jp d) s = .next (jumped s (g.PF == true) d) ∧
    exec (.jnp d) s = .next (jumped s (g.PF == false) d) ∧
    exec (.jl d) s = .next (jumped s (g.SF != g.OF) d) ∧
    exec (.jge d) s = .next (jumped s (g.SF == g.OF) d) ∧
    exec (.jle d) s = .next (jumped s (g.ZF == true || g.SF != g.OF) d) ∧
    exec (.jg d) s = .next (jumped s (g.ZF == false && g.SF == g.OF) d)

/-- LOOP, LOOPZ, LOOPNZ and JCXZ (R357 to R360). -/
def Obligations.LoopJumps : Prop :=
  ∀ (d : Byte) (s : State),
    exec (.loop d) s = .next (looped s (s.regs.cx - 1 != 0) d) ∧
    exec (.loopz d) s = .next (looped s (s.regs.cx - 1 != 0 && s.flags.ZF == true) d) ∧
    exec (.loopnz d) s = .next (looped s (s.regs.cx - 1 != 0 && s.flags.ZF == false) d) ∧
    exec (.jcxz d) s = .next (jumped s (s.regs.cx == 0) d)

/-- The unconditional jumps; a far pointer in a register is `DecodeFault` (R351 to R355). -/
def Obligations.Jumps : Prop :=
  ∀ s : State,
    (∀ d, exec (.jmp (.rel8 d)) s = .next { s with ip := s.ip + d.signExtend 16 }) ∧
    (∀ d, exec (.jmp (.rel16 d)) s = .next { s with ip := s.ip + d }) ∧
    (∀ rm, exec (.jmpInd rm) s = .next { s with ip := s.get16 (.ofRm rm) }) ∧
    (∀ off seg, exec (.jmpFar off seg) s =
      .next { s with ip := off, segs := { s.segs with cs := seg } }) ∧
    (∀ m, exec (.jmpFarInd m) s =
      .next { s with ip := s.read16 (s.eaSeg m) (s.eaOff m),
                     segs := { s.segs with cs := s.read16 (s.eaSeg m) (s.eaOff m + 2) } }) ∧
    (∀ rm, ∃ m, exec (.jmpFarReg rm) s = .fault (.decodeFault 0xFF (some m)))

/-- The calls: what is pushed, where control goes, and nothing else; a far pointer in a register is
`DecodeFault` (R361 to R364). -/
def Obligations.Calls : Prop :=
  ∀ s : State, s.mem.wf = true →
    (∀ (i : Instr) (target : Word),
      (∃ d, i = .call d ∧ target = s.ip + d) ∨ (∃ rm, i = .callInd rm ∧ target = s.get16 (.ofRm rm)) →
      ∃ t, exec i s = .next t ∧ t.ip = target ∧ t.regs.sp = s.regs.sp - 2 ∧
        t.read16 s.segs.ss (s.regs.sp - 2) = s.ip ∧
        Only { regs := [.sp], ip := true, cells := wordCells s.segs.ss (s.regs.sp - 2) } s t) ∧
    (∀ (i : Instr) (off seg : Word),
      i = .callFar off seg ∨
        (∃ m, i = .callFarInd m ∧ off = s.read16 (s.eaSeg m) (s.eaOff m) ∧
          seg = s.read16 (s.eaSeg m) (s.eaOff m + 2)) →
      ∃ t, exec i s = .next t ∧ t.ip = off ∧ t.segs.cs = seg ∧ t.regs.sp = s.regs.sp - 4 ∧
        t.read16 s.segs.ss (s.regs.sp - 2) = s.segs.cs ∧
        t.read16 s.segs.ss (s.regs.sp - 4) = s.ip ∧
        Only { regs := [.sp], sregs := [.cs], ip := true,
               cells := wordCells s.segs.ss (s.regs.sp - 2)
                 ++ wordCells s.segs.ss (s.regs.sp - 4) } s t) ∧
    (∀ rm, ∃ m, exec (.callFarReg rm) s = .fault (.decodeFault 0xFF (some m)))

/-- The returns: `ip`, for RETF and IRET CS, and for IRET FLAGS come from the stack, SP is released,
and nothing else changes (R365 to R368, 46_system.md R424). -/
def Obligations.ReturnsPop : Prop :=
  ∀ (s : State) (f : RetForm) (n : Word), (f = .plain ∧ n = 0) ∨ f = .imm n →
    exec (.ret f) s =
      .next { s with ip := s.read16 s.segs.ss s.regs.sp,
                     regs := { s.regs with sp := s.regs.sp + 2 + n } } ∧
    exec (.retf f) s =
      .next { s with ip := s.read16 s.segs.ss s.regs.sp,
                     segs := { s.segs with cs := s.read16 s.segs.ss (s.regs.sp + 2) },
                     regs := { s.regs with sp := s.regs.sp + 4 + n } } ∧
    exec .iret s =
      .next { s with ip := s.read16 s.segs.ss s.regs.sp,
                     segs := { s.segs with cs := s.read16 s.segs.ss (s.regs.sp + 2) },
                     flags := Flags.ofWord (s.read16 s.segs.ss (s.regs.sp + 4)),
                     regs := { s.regs with sp := s.regs.sp + 6 } }

/-- A return undoes the matching call, and IRET undoes interrupt entry (R369, 60_exceptions.md R507):
with SS, SP and memory as the call left them, `ip`, CS, SP (and FLAGS) come back. -/
def Obligations.ReturnsUndoCalls : Prop :=
  ∀ (s t u : State), s.mem.wf = true →
    u.mem = t.mem → u.segs.ss = t.segs.ss → u.regs.sp = t.regs.sp →
    (∀ d, exec (.call d) s = .next t →
      ∃ v, exec (.ret .plain) u = .next v ∧ v.ip = s.ip ∧ v.regs.sp = s.regs.sp) ∧
    (∀ off seg, exec (.callFar off seg) s = .next t →
      ∃ v, exec (.retf .plain) u = .next v ∧ v.ip = s.ip ∧ v.segs.cs = s.segs.cs ∧
        v.regs.sp = s.regs.sp) ∧
    (∀ n, exec (.int n) s = .next t →
      ∃ v, exec .iret u = .next v ∧ v.ip = s.ip ∧ v.segs.cs = s.segs.cs ∧ v.flags = s.flags ∧
        v.regs.sp = s.regs.sp)

/-! ## Strings -/

/-- Without a repeat prefix MOVS, STOS and LODS move one element and advance their pointers by the
element size, down if DF is set (45_string.md R390, R392, R394, R395). -/
def Obligations.StringMovesOnce : Prop :=
  ∀ s : State, s.mem.wf = true → s.rep = .none ∨ s.rep = .lock →
    let d1 : Word := if s.flags.DF then -1 else 1
    let d2 : Word := if s.flags.DF then -2 else 2
    (∃ t, exec .movsb s = .next t ∧
      Only { regs := [.si, .di], cells := [phys s.segs.es s.regs.di] } s t ∧
      t.read8 s.segs.es s.regs.di = s.read8 (s.segOr .ds) s.regs.si ∧
      t.regs.si = s.regs.si + d1 ∧ t.regs.di = s.regs.di + d1) ∧
    (∃ t, exec .movsw s = .next t ∧
      Only { regs := [.si, .di], cells := wordCells s.segs.es s.regs.di } s t ∧
      t.read16 s.segs.es s.regs.di = s.read16 (s.segOr .ds) s.regs.si ∧
      t.regs.si = s.regs.si + d2 ∧ t.regs.di = s.regs.di + d2) ∧
    (∃ t, exec .stosb s = .next t ∧
      Only { regs := [.di], cells := [phys s.segs.es s.regs.di] } s t ∧
      t.read8 s.segs.es s.regs.di = s.reg8 .al ∧ t.regs.di = s.regs.di + d1) ∧
    (∃ t, exec .stosw s = .next t ∧
      Only { regs := [.di], cells := wordCells s.segs.es s.regs.di } s t ∧
      t.read16 s.segs.es s.regs.di = s.regs.ax ∧ t.regs.di = s.regs.di + d2) ∧
    (∃ t, exec .lodsb s = .next t ∧ Only { regs := [.si], bytes := [.al] } s t ∧
      t.reg8 .al = s.read8 (s.segOr .ds) s.regs.si ∧ t.regs.si = s.regs.si + d1) ∧
    (∃ t, exec .lodsw s = .next t ∧ Only { regs := [.si, .ax] } s t ∧
      t.regs.ax = s.read16 (s.segOr .ds) s.regs.si ∧ t.regs.si = s.regs.si + d2)

/-- Without a repeat prefix CMPS and SCAS compare one element: the flags of SUB, the pointers
advanced, memory and accumulator as before (R390, R393, R396). -/
def Obligations.StringComparesOnce : Prop :=
  ∀ s : State, s.rep = .none ∨ s.rep = .lock →
    let d1 : Word := if s.flags.DF then -1 else 1
    let d2 : Word := if s.flags.DF then -2 else 2
    (∃ t, exec .cmpsb s = .next t ∧ Only { regs := [.si, .di], flags := aluFlags } s t ∧
      (let a := s.read8 (s.segOr .ds) s.regs.si
       let b := s.read8 s.segs.es s.regs.di
       SubRule a b (a.toNat - b.toNat) t.flags) ∧
      t.regs.si = s.regs.si + d1 ∧ t.regs.di = s.regs.di + d1) ∧
    (∃ t, exec .cmpsw s = .next t ∧ Only { regs := [.si, .di], flags := aluFlags } s t ∧
      (let a := s.read16 (s.segOr .ds) s.regs.si
       let b := s.read16 s.segs.es s.regs.di
       SubRule a b (a.toNat - b.toNat) t.flags) ∧
      t.regs.si = s.regs.si + d2 ∧ t.regs.di = s.regs.di + d2) ∧
    (∃ t, exec .scasb s = .next t ∧ Only { regs := [.di], flags := aluFlags } s t ∧
      (let b := s.read8 s.segs.es s.regs.di
       SubRule (s.reg8 .al) b ((s.reg8 .al).toNat - b.toNat) t.flags) ∧
      t.regs.di = s.regs.di + d1) ∧
    (∃ t, exec .scasw s = .next t ∧ Only { regs := [.di], flags := aluFlags } s t ∧
      (let b := s.read16 s.segs.es s.regs.di
       SubRule s.regs.ax b (s.regs.ax.toNat - b.toNat) t.flags) ∧
      t.regs.di = s.regs.di + d2)

/-- The repeat loop of all ten string instructions (R391): with CX zero nothing happens; otherwise one
unrepeated execution, CX one less, and either the ZF test of a comparing instruction ends the loop
there, or the instruction goes on from that state. -/
def Obligations.RepeatLoop : Prop :=
  ∀ (s : State) (i : Instr), s.rep = .rep ∨ s.rep = .repne →
    i ∈ [Instr.movsb, .movsw, .cmpsb, .cmpsw, .stosb, .stosw, .lodsb, .lodsw, .scasb, .scasw] →
    (s.regs.cx = 0 → exec i s = .next s) ∧
    (s.regs.cx ≠ 0 → ∃ u, exec i { s with rep := .none } = .next u ∧
      let v : State := { u with rep := s.rep, regs := { u.regs with cx := s.regs.cx - 1 } }
      let stops : Prop := i ∈ [Instr.cmpsb, .cmpsw, .scasb, .scasw] ∧
        (s.rep = .rep ∧ v.flags.ZF = false ∨ s.rep = .repne ∧ v.flags.ZF = true)
      (stops → exec i s = .next v) ∧ (¬stops → exec i s = exec i v))

/-- `REP STOSB` fills CX bytes from `ES:DI` on with AL and writes nothing else; `REP MOVSB` between
regions that do not overlap copies CX bytes and writes nothing else; CX ends at zero (R391, R392,
R394). -/
def Obligations.RepeatedBlocks : Prop :=
  ∀ s : State, s.mem.wf = true → s.rep = .rep ∨ s.rep = .repne →
    let d : Word := if s.flags.DF then -1 else 1
    let n := s.regs.cx.toNat
    let src := fun k : Nat => s.regs.si + BitVec.ofNat 16 k * d
    let dst := fun k : Nat => s.regs.di + BitVec.ofNat 16 k * d
    let cells := (List.range n).map fun k => phys s.segs.es (dst k)
    (∃ t, exec .stosb s = .next t ∧ Only { regs := [.cx, .di], cells := cells } s t ∧
      t.regs.cx = 0 ∧ t.regs.di = dst n ∧
      ∀ k < n, t.read8 s.segs.es (dst k) = s.reg8 .al) ∧
    ((∀ j < n, ∀ k < n, phys (s.segOr .ds) (src j) ≠ phys s.segs.es (dst k)) →
      ∃ t, exec .movsb s = .next t ∧ Only { regs := [.cx, .si, .di], cells := cells } s t ∧
        t.regs.cx = 0 ∧ t.regs.si = src n ∧ t.regs.di = dst n ∧
        ∀ k < n, t.read8 s.segs.es (dst k) = s.read8 (s.segOr .ds) (src k))

/-! ## System -/

/-- INT n and INT3 enter through the table whatever IF is and leave IF set or clear as it was
(46_system.md R420, R421, 60_exceptions.md R504, R505). -/
def Obligations.SoftwareInterrupts : Prop :=
  ∀ s : State, s.mem.wf = true →
    (∀ n : Byte, ∃ t, exec (.int n) s = .next t ∧ Entry n.toNat false s t) ∧
    (∃ t, exec .int3 s = .next t ∧ Entry 3 false s t)

/-- HLT steps `ip` back by one; the flag instructions write their flag alone; ESC, WAIT and NOP change
nothing; a prefix byte records its override or repeat byte and changes nothing else (R426 to R437,
30_encoding.md R102). -/
def Obligations.HaltFlagsNopPrefixes : Prop :=
  ∀ s : State,
    exec .hlt s = .next { s with ip := s.ip - 1 } ∧
    exec .clc s = .next { s with flags := { s.flags with CF := false } } ∧
    exec .stc s = .next { s with flags := { s.flags with CF := true } } ∧
    exec .cmc s = .next { s with flags := { s.flags with CF := !s.flags.CF } } ∧
    exec .cld s = .next { s with flags := { s.flags with DF := false } } ∧
    exec .std s = .next { s with flags := { s.flags with DF := true } } ∧
    exec .cli s = .next { s with flags := { s.flags with IF := false } } ∧
    exec .sti s = .next { s with flags := { s.flags with IF := true } } ∧
    (∀ op reg rm, exec (.esc op reg rm) s = .next s) ∧
    exec .wait s = .next s ∧ exec .nop s = .next s ∧
    exec .prefixEs s = .next { s with segOverride := some .es } ∧
    exec .prefixCs s = .next { s with segOverride := some .cs } ∧
    exec .prefixSs s = .next { s with segOverride := some .ss } ∧
    exec .prefixDs s = .next { s with segOverride := some .ds } ∧
    exec .prefixLock s = .next { s with rep := .lock } ∧
    exec .prefixRepne s = .next { s with rep := .repne } ∧
    exec .prefixRep s = .next { s with rep := .rep }

/-! ## Ports and controllers -/

/-- IN and OUT at a port of a controller: the command port reads the request or in-service register
and takes commands, the data port reads the mask and takes data bytes; a word access is two byte
accesses at `p` and `p + 1` of the same controller; a port that it does not own reads `0xFF` and
ignores writes (47_io.md R461 to R463, R465 to R468, 60_exceptions.md R540, R541). -/
def Obligations.ControllerPorts : Prop :=
  (∀ (s : State) (b : Byte), s.portNumber (.byteImm b) = b.toNat ∧
    s.portNumber (.wordImm b) = b.toNat ∧ s.portNumber .byteDx = s.regs.dx.toNat ∧
    s.portNumber .wordDx = s.regs.dx.toNat) ∧
  (∀ (s : State) (c : Ctl) (p : Nat) (v : Byte),
    let cmd := p = (Params.cmdPort s.params c).toNat
    let data := p = (Params.dataPort s.params c).toNat
    (cmd → s.ctlRead c p =
        (if (s.pic c).readIsr then (s.pic c).isr else (s.pic c).irr ||| (s.pic c).level) ∧
      s.ctlWrite c p v = s.setPic c ((s.pic c).writeCommand v)) ∧
    (¬cmd → data → s.ctlRead c p = (s.pic c).imr ∧
      s.ctlWrite c p v = s.setPic c ((s.pic c).writeData v)) ∧
    (¬cmd → ¬data → s.ctlRead c p = 0xFF ∧ s.ctlWrite c p v = s)) ∧
  (∀ (s : State) (f : PortForm) (c : Ctl), s.portDevice (s.portNumber f) = some (.pic c) →
    (f.isByte = true →
      (∃ t, exec (.inPort f) s = .next t ∧ Only { bytes := [.al] } s t ∧
        t.reg8 .al = s.ctlRead c (s.portNumber f)) ∧
      exec (.outPort f) s = .next (s.ctlWrite c (s.portNumber f) (s.reg8 .al))) ∧
    (f.isByte = false →
      (∃ t, exec (.inPort f) s = .next t ∧ Only { regs := [.ax] } s t ∧
        t.reg8 .al = s.ctlRead c (s.portNumber f) ∧
        t.reg8 .ah = s.ctlRead c (s.portNumber f + 1)) ∧
      exec (.outPort f) s =
        .next ((s.ctlWrite c (s.portNumber f) (s.reg8 .al)).ctlWrite c (s.portNumber f + 1)
          (s.reg8 .ah))))

/-- IN and OUT at a port of a device of the platform complete: the device is called with the port, a
word as one call or as two byte calls, low byte first; the accumulator takes a free value (log entry
6); registers, flags, memory and the port table are otherwise as before (47_io.md R462). -/
def Obligations.DevicePorts : Prop :=
  ∀ (s : State) (f : PortForm) (id : Nat) (wide : Bool) (p : Nat), p = s.portNumber f →
    s.portDevice p = some (.external id wide) →
    (∃ t, exec (.inPort f) s = .next t ∧ DeviceKeeps s t ∧
      (f.isByte = true → t.reg8 .ah = s.reg8 .ah) ∧
      t.portLog =
        (if f.isByte then [.readByte id p]
         else if wide then [.readWord id p]
         else [.readByte id (p + 1), .readByte id p]) ++ s.portLog) ∧
    (∃ t, exec (.outPort f) s = .next t ∧ DeviceKeeps s t ∧ t.regs.ax = s.regs.ax ∧
      t.portLog =
        (if f.isByte then [.writeByte id p (s.reg8 .al)]
         else if wide then [.writeWord id p s.regs.ax]
         else [.writeByte id (p + 1) (s.reg8 .ah), .writeByte id p (s.reg8 .al)]) ++ s.portLog)

/-- A port above 255 or with no device is `PortFault`, for IN and for OUT; no other port is (R460,
R469). -/
def Obligations.PortFaults : Prop :=
  ∀ (s : State) (f : PortForm) (p : Nat), p = s.portNumber f →
    (255 < p ∨ (∀ d, (p, d) ∉ s.ports) →
      exec (.inPort f) s = .fault (.portFault p false) ∧
      exec (.outPort f) s = .fault (.portFault p true)) ∧
    (p ≤ 255 → (∃ d, (p, d) ∈ s.ports) →
      (∃ t, exec (.inPort f) s = .next t) ∧ (∃ t, exec (.outPort f) s = .next t))

/-- The arbiter (60_exceptions.md R522, R524): it gives a master line that the master picks and that
is not its cascade line, or, through the cascade line, the line that the slave picks. -/
def Obligations.ArbiterGives : Prop :=
  (∀ c : Pic, ∀ k, c.cascadeLine = some k ↔
    (k < 8 ∧ c.icw3.getLsbD k = true ∧ ∀ j < k, c.icw3.getLsbD j = false)) ∧
  ∀ (m sl : Pic) (line : Nat), getNextInterrupt m sl = some line ↔
    (∃ i, Picks m i ∧ m.cascadeLine ≠ some i ∧ line = i) ∨
    (∃ i j, Picks m i ∧ m.cascadeLine = some i ∧ Picks sl j ∧ line = 8 + j)

/-- Request, acknowledge and delivery of a line (R526 to R529): a slave line also sets or clears the
master's cascade request bit; delivery acknowledges and enters service, but for auto-EOI. The vector
base and size of a line are those of its instance (R505). A line above 15 is `ConfigFault` for all four
calls that take one (R545). -/
def Obligations.LineCalls : Prop :=
  (∀ (s : State) (l : Nat),
    (l ≤ 15 → s.environ (.request l) = .next (s.requestLine l) ∧
      s.environ (.ack l) = .next (s.ackLine l)) ∧
    (l ≤ 7 → s.getVectorBase l = .ok s.master.icw2 ∧ s.getVectorSize l = .ok 4) ∧
    (8 ≤ l → l ≤ 15 → s.getVectorBase l = .ok s.slave.icw2 ∧ s.getVectorSize l = .ok 4) ∧
    (15 < l → s.environ (.request l) = .fault (.configLine l) ∧
      s.environ (.ack l) = .fault (.configLine l) ∧
      s.getVectorBase l = .error (.configLine l) ∧ s.getVectorSize l = .error (.configLine l))) ∧
  ∀ (s : State) (i : Nat), i < 8 →
    s.requestLine i = { s with master := { s.master with irr := s.master.irr ||| 1#8 <<< i } } ∧
    s.ackLine i = { s with master := { s.master with irr := s.master.irr &&& ~~~(1#8 <<< i) } } ∧
    s.deliver i =
      { s with master := { s.master with
          irr := s.master.irr &&& ~~~(1#8 <<< i),
          isr := if s.master.icw4.getLsbD 1 then s.master.isr else s.master.isr ||| 1#8 <<< i } } ∧
    (s.master.cascadeLine = none →
      s.requestLine (8 + i) =
        { s with slave := { s.slave with irr := s.slave.irr ||| 1#8 <<< i } } ∧
      s.ackLine (8 + i) =
        { s with slave := { s.slave with irr := s.slave.irr &&& ~~~(1#8 <<< i) } }) ∧
    (∀ k, s.master.cascadeLine = some k →
      s.requestLine (8 + i) =
        { s with slave := { s.slave with irr := s.slave.irr ||| 1#8 <<< i },
                 master := { s.master with irr := s.master.irr ||| 1#8 <<< k } } ∧
      s.ackLine (8 + i) =
        { s with slave := { s.slave with irr := s.slave.irr &&& ~~~(1#8 <<< i) },
                 master := { s.master with irr := s.master.irr &&& ~~~(1#8 <<< k) } } ∧
      s.deliver (8 + i) =
        { s with
          slave := { s.slave with
            irr := s.slave.irr &&& ~~~(1#8 <<< i),
            isr := if s.slave.icw4.getLsbD 1 then s.slave.isr else s.slave.isr ||| 1#8 <<< i },
          master := { s.master with
            irr := s.master.irr &&& ~~~(1#8 <<< k),
            isr := if s.master.icw4.getLsbD 1 then s.master.isr
              else s.master.isr ||| 1#8 <<< k } })

/-- Programming a controller (R531 to R536): ICW1 restarts it from any state, the next three data
bytes are ICW2 to ICW4, further data bytes are the mask; other command bytes are ignored before that,
and afterwards select the register to read or end the service of the lowest line in service. -/
def Obligations.ControllerProgramming : Prop :=
  ∀ (c : Pic) (v v2 v3 v4 w : Byte),
    (v.getLsbD 4 = true →
      (c.writeCommand v = { c with icw1 := v, initStep := .waitIcw2, imr := 0, irr := 0, isr := 0,
                                   readIsr := false }) ∧
      ((((c.writeCommand v).writeData v2).writeData v3).writeData v4 =
        { c with icw1 := v, icw2 := v2, icw3 := v3, icw4 := v4, initStep := .ready, imr := 0,
                 irr := 0, isr := 0, readIsr := false })) ∧
    (c.initStep = .never → c.writeData w = c) ∧
    (c.initStep = .waitIcw2 → c.writeData w = { c with icw2 := w, initStep := .waitIcw3 }) ∧
    (c.initStep = .waitIcw3 → c.writeData w = { c with icw3 := w, initStep := .waitIcw4 }) ∧
    (c.initStep = .waitIcw4 → c.writeData w = { c with icw4 := w, initStep := .ready }) ∧
    (c.vbase = c.icw2 ∧ c.cascadeMask = c.icw3 ∧ c.aeoi = c.icw4.getLsbD 1) ∧
    (c.initStep = .ready → c.writeData w = { c with imr := w }) ∧
    (w.getLsbD 4 = false →
      (c.initStep ≠ .ready → c.writeCommand w = c) ∧
      (c.initStep = .ready →
        (w.getLsbD 3 = true → c.writeCommand w =
          if w.getLsbD 1 then { c with readIsr := w.getLsbD 0 } else c) ∧
        (w.getLsbD 3 = false →
          (c.isr = 0 → c.writeCommand w = c) ∧
          (∀ i < 8, c.isr.getLsbD i = true → (∀ j < i, c.isr.getLsbD j = false) →
            c.writeCommand w = { c with isr := c.isr &&& ~~~(1#8 <<< i) }))))
end

