-- ==== Sys2Proof/Laws/State.lean ====
section
/-! SUPPORT. One lemma per field per update of the state, so that no later proof unfolds a record
update. -/

namespace Sys2Proof.Machine

variable (s : State)

/-! `setReg16` -/

@[simp] theorem State.setReg16_regs (r : Reg16) (v : Word) :
    (s.setReg16 r v).regs = s.regs.set r v := rfl
@[simp] theorem State.setReg16_segs (r : Reg16) (v : Word) :
    (s.setReg16 r v).segs = s.segs := rfl
@[simp] theorem State.setReg16_ip (r : Reg16) (v : Word) :
    (s.setReg16 r v).ip = s.ip := rfl
@[simp] theorem State.setReg16_flags (r : Reg16) (v : Word) :
    (s.setReg16 r v).flags = s.flags := rfl
@[simp] theorem State.setReg16_mem (r : Reg16) (v : Word) :
    (s.setReg16 r v).mem = s.mem := rfl
@[simp] theorem State.setReg16_master (r : Reg16) (v : Word) :
    (s.setReg16 r v).master = s.master := rfl
@[simp] theorem State.setReg16_slave (r : Reg16) (v : Word) :
    (s.setReg16 r v).slave = s.slave := rfl
@[simp] theorem State.setReg16_ports (r : Reg16) (v : Word) :
    (s.setReg16 r v).ports = s.ports := rfl
@[simp] theorem State.setReg16_params (r : Reg16) (v : Word) :
    (s.setReg16 r v).params = s.params := rfl
@[simp] theorem State.setReg16_segOverride (r : Reg16) (v : Word) :
    (s.setReg16 r v).segOverride = s.segOverride := rfl
@[simp] theorem State.setReg16_rep (r : Reg16) (v : Word) :
    (s.setReg16 r v).rep = s.rep := rfl
@[simp] theorem State.setReg16_free (r : Reg16) (v : Word) :
    (s.setReg16 r v).free = s.free := rfl
@[simp] theorem State.setReg16_portLog (r : Reg16) (v : Word) :
    (s.setReg16 r v).portLog = s.portLog := rfl
@[simp] theorem State.setReg16_clocks (r : Reg16) (v : Word) :
    (s.setReg16 r v).clocks = s.clocks := rfl

/-! `setReg8` -/

@[simp] theorem State.setReg8_segs (r : Reg8) (v : Byte) :
    (s.setReg8 r v).segs = s.segs := rfl
@[simp] theorem State.setReg8_ip (r : Reg8) (v : Byte) :
    (s.setReg8 r v).ip = s.ip := rfl
@[simp] theorem State.setReg8_flags (r : Reg8) (v : Byte) :
    (s.setReg8 r v).flags = s.flags := rfl
@[simp] theorem State.setReg8_mem (r : Reg8) (v : Byte) :
    (s.setReg8 r v).mem = s.mem := rfl
@[simp] theorem State.setReg8_master (r : Reg8) (v : Byte) :
    (s.setReg8 r v).master = s.master := rfl
@[simp] theorem State.setReg8_slave (r : Reg8) (v : Byte) :
    (s.setReg8 r v).slave = s.slave := rfl
@[simp] theorem State.setReg8_ports (r : Reg8) (v : Byte) :
    (s.setReg8 r v).ports = s.ports := rfl
@[simp] theorem State.setReg8_params (r : Reg8) (v : Byte) :
    (s.setReg8 r v).params = s.params := rfl
@[simp] theorem State.setReg8_segOverride (r : Reg8) (v : Byte) :
    (s.setReg8 r v).segOverride = s.segOverride := rfl
@[simp] theorem State.setReg8_rep (r : Reg8) (v : Byte) :
    (s.setReg8 r v).rep = s.rep := rfl
@[simp] theorem State.setReg8_free (r : Reg8) (v : Byte) :
    (s.setReg8 r v).free = s.free := rfl
@[simp] theorem State.setReg8_portLog (r : Reg8) (v : Byte) :
    (s.setReg8 r v).portLog = s.portLog := rfl
@[simp] theorem State.setReg8_clocks (r : Reg8) (v : Byte) :
    (s.setReg8 r v).clocks = s.clocks := rfl

/-! `setSreg` -/

@[simp] theorem State.setSreg_regs (r : SReg) (v : Word) :
    (s.setSreg r v).regs = s.regs := rfl
@[simp] theorem State.setSreg_segs (r : SReg) (v : Word) :
    (s.setSreg r v).segs = s.segs.set r v := rfl
@[simp] theorem State.setSreg_ip (r : SReg) (v : Word) :
    (s.setSreg r v).ip = s.ip := rfl
@[simp] theorem State.setSreg_flags (r : SReg) (v : Word) :
    (s.setSreg r v).flags = s.flags := rfl
@[simp] theorem State.setSreg_mem (r : SReg) (v : Word) :
    (s.setSreg r v).mem = s.mem := rfl
@[simp] theorem State.setSreg_master (r : SReg) (v : Word) :
    (s.setSreg r v).master = s.master := rfl
@[simp] theorem State.setSreg_slave (r : SReg) (v : Word) :
    (s.setSreg r v).slave = s.slave := rfl
@[simp] theorem State.setSreg_ports (r : SReg) (v : Word) :
    (s.setSreg r v).ports = s.ports := rfl
@[simp] theorem State.setSreg_params (r : SReg) (v : Word) :
    (s.setSreg r v).params = s.params := rfl
@[simp] theorem State.setSreg_segOverride (r : SReg) (v : Word) :
    (s.setSreg r v).segOverride = s.segOverride := rfl
@[simp] theorem State.setSreg_rep (r : SReg) (v : Word) :
    (s.setSreg r v).rep = s.rep := rfl
@[simp] theorem State.setSreg_free (r : SReg) (v : Word) :
    (s.setSreg r v).free = s.free := rfl
@[simp] theorem State.setSreg_portLog (r : SReg) (v : Word) :
    (s.setSreg r v).portLog = s.portLog := rfl
@[simp] theorem State.setSreg_clocks (r : SReg) (v : Word) :
    (s.setSreg r v).clocks = s.clocks := rfl

/-! `setIp` -/

@[simp] theorem State.setIp_regs (v : Word) :
    (s.setIp v).regs = s.regs := rfl
@[simp] theorem State.setIp_segs (v : Word) :
    (s.setIp v).segs = s.segs := rfl
@[simp] theorem State.setIp_ip (v : Word) :
    (s.setIp v).ip = v := rfl
@[simp] theorem State.setIp_flags (v : Word) :
    (s.setIp v).flags = s.flags := rfl
@[simp] theorem State.setIp_mem (v : Word) :
    (s.setIp v).mem = s.mem := rfl
@[simp] theorem State.setIp_master (v : Word) :
    (s.setIp v).master = s.master := rfl
@[simp] theorem State.setIp_slave (v : Word) :
    (s.setIp v).slave = s.slave := rfl
@[simp] theorem State.setIp_ports (v : Word) :
    (s.setIp v).ports = s.ports := rfl
@[simp] theorem State.setIp_params (v : Word) :
    (s.setIp v).params = s.params := rfl
@[simp] theorem State.setIp_segOverride (v : Word) :
    (s.setIp v).segOverride = s.segOverride := rfl
@[simp] theorem State.setIp_rep (v : Word) :
    (s.setIp v).rep = s.rep := rfl
@[simp] theorem State.setIp_free (v : Word) :
    (s.setIp v).free = s.free := rfl
@[simp] theorem State.setIp_portLog (v : Word) :
    (s.setIp v).portLog = s.portLog := rfl
@[simp] theorem State.setIp_clocks (v : Word) :
    (s.setIp v).clocks = s.clocks := rfl

/-! `write8` -/

@[simp] theorem State.write8_regs (seg off : Word) (v : Byte) :
    (s.write8 seg off v).regs = s.regs := rfl
@[simp] theorem State.write8_segs (seg off : Word) (v : Byte) :
    (s.write8 seg off v).segs = s.segs := rfl
@[simp] theorem State.write8_ip (seg off : Word) (v : Byte) :
    (s.write8 seg off v).ip = s.ip := rfl
@[simp] theorem State.write8_flags (seg off : Word) (v : Byte) :
    (s.write8 seg off v).flags = s.flags := rfl
@[simp] theorem State.write8_mem (seg off : Word) (v : Byte) :
    (s.write8 seg off v).mem = s.mem.write (phys seg off) v := rfl
@[simp] theorem State.write8_master (seg off : Word) (v : Byte) :
    (s.write8 seg off v).master = s.master := rfl
@[simp] theorem State.write8_slave (seg off : Word) (v : Byte) :
    (s.write8 seg off v).slave = s.slave := rfl
@[simp] theorem State.write8_ports (seg off : Word) (v : Byte) :
    (s.write8 seg off v).ports = s.ports := rfl
@[simp] theorem State.write8_params (seg off : Word) (v : Byte) :
    (s.write8 seg off v).params = s.params := rfl
@[simp] theorem State.write8_segOverride (seg off : Word) (v : Byte) :
    (s.write8 seg off v).segOverride = s.segOverride := rfl
@[simp] theorem State.write8_rep (seg off : Word) (v : Byte) :
    (s.write8 seg off v).rep = s.rep := rfl
@[simp] theorem State.write8_free (seg off : Word) (v : Byte) :
    (s.write8 seg off v).free = s.free := rfl
@[simp] theorem State.write8_portLog (seg off : Word) (v : Byte) :
    (s.write8 seg off v).portLog = s.portLog := rfl
@[simp] theorem State.write8_clocks (seg off : Word) (v : Byte) :
    (s.write8 seg off v).clocks = s.clocks := rfl

/-! `write16` -/

@[simp] theorem State.write16_regs (seg off v : Word) :
    (s.write16 seg off v).regs = s.regs := rfl
@[simp] theorem State.write16_segs (seg off v : Word) :
    (s.write16 seg off v).segs = s.segs := rfl
@[simp] theorem State.write16_ip (seg off v : Word) :
    (s.write16 seg off v).ip = s.ip := rfl
@[simp] theorem State.write16_flags (seg off v : Word) :
    (s.write16 seg off v).flags = s.flags := rfl
@[simp] theorem State.write16_mem (seg off v : Word) :
    (s.write16 seg off v).mem = (s.mem.write (phys seg off) (loByte v)).write (phys seg (off + 1)) (hiByte v) := rfl
@[simp] theorem State.write16_master (seg off v : Word) :
    (s.write16 seg off v).master = s.master := rfl
@[simp] theorem State.write16_slave (seg off v : Word) :
    (s.write16 seg off v).slave = s.slave := rfl
@[simp] theorem State.write16_ports (seg off v : Word) :
    (s.write16 seg off v).ports = s.ports := rfl
@[simp] theorem State.write16_params (seg off v : Word) :
    (s.write16 seg off v).params = s.params := rfl
@[simp] theorem State.write16_segOverride (seg off v : Word) :
    (s.write16 seg off v).segOverride = s.segOverride := rfl
@[simp] theorem State.write16_rep (seg off v : Word) :
    (s.write16 seg off v).rep = s.rep := rfl
@[simp] theorem State.write16_free (seg off v : Word) :
    (s.write16 seg off v).free = s.free := rfl
@[simp] theorem State.write16_portLog (seg off v : Word) :
    (s.write16 seg off v).portLog = s.portLog := rfl
@[simp] theorem State.write16_clocks (seg off v : Word) :
    (s.write16 seg off v).clocks = s.clocks := rfl

/-! `mapFlags` -/

@[simp] theorem State.mapFlags_regs (g : Flags → Flags) :
    (s.mapFlags g).regs = s.regs := rfl
@[simp] theorem State.mapFlags_segs (g : Flags → Flags) :
    (s.mapFlags g).segs = s.segs := rfl
@[simp] theorem State.mapFlags_ip (g : Flags → Flags) :
    (s.mapFlags g).ip = s.ip := rfl
@[simp] theorem State.mapFlags_flags (g : Flags → Flags) :
    (s.mapFlags g).flags = g s.flags := rfl
@[simp] theorem State.mapFlags_mem (g : Flags → Flags) :
    (s.mapFlags g).mem = s.mem := rfl
@[simp] theorem State.mapFlags_master (g : Flags → Flags) :
    (s.mapFlags g).master = s.master := rfl
@[simp] theorem State.mapFlags_slave (g : Flags → Flags) :
    (s.mapFlags g).slave = s.slave := rfl
@[simp] theorem State.mapFlags_ports (g : Flags → Flags) :
    (s.mapFlags g).ports = s.ports := rfl
@[simp] theorem State.mapFlags_params (g : Flags → Flags) :
    (s.mapFlags g).params = s.params := rfl
@[simp] theorem State.mapFlags_segOverride (g : Flags → Flags) :
    (s.mapFlags g).segOverride = s.segOverride := rfl
@[simp] theorem State.mapFlags_rep (g : Flags → Flags) :
    (s.mapFlags g).rep = s.rep := rfl
@[simp] theorem State.mapFlags_free (g : Flags → Flags) :
    (s.mapFlags g).free = s.free := rfl
@[simp] theorem State.mapFlags_portLog (g : Flags → Flags) :
    (s.mapFlags g).portLog = s.portLog := rfl
@[simp] theorem State.mapFlags_clocks (g : Flags → Flags) :
    (s.mapFlags g).clocks = s.clocks := rfl

/-! `advance` -/

@[simp] theorem State.advance_regs (n : Nat) :
    (s.advance n).regs = s.regs := rfl
@[simp] theorem State.advance_segs (n : Nat) :
    (s.advance n).segs = s.segs := rfl
@[simp] theorem State.advance_ip (n : Nat) :
    (s.advance n).ip = s.ip + BitVec.ofNat 16 n := rfl
@[simp] theorem State.advance_flags (n : Nat) :
    (s.advance n).flags = s.flags := rfl
@[simp] theorem State.advance_mem (n : Nat) :
    (s.advance n).mem = s.mem := rfl
@[simp] theorem State.advance_master (n : Nat) :
    (s.advance n).master = s.master := rfl
@[simp] theorem State.advance_slave (n : Nat) :
    (s.advance n).slave = s.slave := rfl
@[simp] theorem State.advance_ports (n : Nat) :
    (s.advance n).ports = s.ports := rfl
@[simp] theorem State.advance_params (n : Nat) :
    (s.advance n).params = s.params := rfl
@[simp] theorem State.advance_segOverride (n : Nat) :
    (s.advance n).segOverride = s.segOverride := rfl
@[simp] theorem State.advance_rep (n : Nat) :
    (s.advance n).rep = s.rep := rfl
@[simp] theorem State.advance_free (n : Nat) :
    (s.advance n).free = s.free := rfl
@[simp] theorem State.advance_portLog (n : Nat) :
    (s.advance n).portLog = s.portLog := rfl
@[simp] theorem State.advance_clocks (n : Nat) :
    (s.advance n).clocks = s.clocks := rfl

/-! `push16` -/

@[simp] theorem State.push16_regs (v : Word) :
    (s.push16 v).regs = s.regs.set .sp (s.regs.sp - 2) := rfl
@[simp] theorem State.push16_segs (v : Word) :
    (s.push16 v).segs = s.segs := rfl
@[simp] theorem State.push16_ip (v : Word) :
    (s.push16 v).ip = s.ip := rfl
@[simp] theorem State.push16_flags (v : Word) :
    (s.push16 v).flags = s.flags := rfl
@[simp] theorem State.push16_master (v : Word) :
    (s.push16 v).master = s.master := rfl
@[simp] theorem State.push16_slave (v : Word) :
    (s.push16 v).slave = s.slave := rfl
@[simp] theorem State.push16_ports (v : Word) :
    (s.push16 v).ports = s.ports := rfl
@[simp] theorem State.push16_params (v : Word) :
    (s.push16 v).params = s.params := rfl
@[simp] theorem State.push16_segOverride (v : Word) :
    (s.push16 v).segOverride = s.segOverride := rfl
@[simp] theorem State.push16_rep (v : Word) :
    (s.push16 v).rep = s.rep := rfl
@[simp] theorem State.push16_free (v : Word) :
    (s.push16 v).free = s.free := rfl
@[simp] theorem State.push16_portLog (v : Word) :
    (s.push16 v).portLog = s.portLog := rfl
@[simp] theorem State.push16_clocks (v : Word) :
    (s.push16 v).clocks = s.clocks := rfl

/-! `drop16` -/

@[simp] theorem State.drop16_regs :
    (s.drop16).regs = s.regs.set .sp (s.regs.sp + 2) := rfl
@[simp] theorem State.drop16_segs :
    (s.drop16).segs = s.segs := rfl
@[simp] theorem State.drop16_ip :
    (s.drop16).ip = s.ip := rfl
@[simp] theorem State.drop16_flags :
    (s.drop16).flags = s.flags := rfl
@[simp] theorem State.drop16_mem :
    (s.drop16).mem = s.mem := rfl
@[simp] theorem State.drop16_master :
    (s.drop16).master = s.master := rfl
@[simp] theorem State.drop16_slave :
    (s.drop16).slave = s.slave := rfl
@[simp] theorem State.drop16_ports :
    (s.drop16).ports = s.ports := rfl
@[simp] theorem State.drop16_params :
    (s.drop16).params = s.params := rfl
@[simp] theorem State.drop16_segOverride :
    (s.drop16).segOverride = s.segOverride := rfl
@[simp] theorem State.drop16_rep :
    (s.drop16).rep = s.rep := rfl
@[simp] theorem State.drop16_free :
    (s.drop16).free = s.free := rfl
@[simp] theorem State.drop16_portLog :
    (s.drop16).portLog = s.portLog := rfl
@[simp] theorem State.drop16_clocks :
    (s.drop16).clocks = s.clocks := rfl

/-! `noPrefix` -/

@[simp] theorem State.noPrefix_regs :
    (s.noPrefix).regs = s.regs := rfl
@[simp] theorem State.noPrefix_segs :
    (s.noPrefix).segs = s.segs := rfl
@[simp] theorem State.noPrefix_ip :
    (s.noPrefix).ip = s.ip := rfl
@[simp] theorem State.noPrefix_flags :
    (s.noPrefix).flags = s.flags := rfl
@[simp] theorem State.noPrefix_mem :
    (s.noPrefix).mem = s.mem := rfl
@[simp] theorem State.noPrefix_master :
    (s.noPrefix).master = s.master := rfl
@[simp] theorem State.noPrefix_slave :
    (s.noPrefix).slave = s.slave := rfl
@[simp] theorem State.noPrefix_ports :
    (s.noPrefix).ports = s.ports := rfl
@[simp] theorem State.noPrefix_params :
    (s.noPrefix).params = s.params := rfl
@[simp] theorem State.noPrefix_segOverride :
    (s.noPrefix).segOverride = none := rfl
@[simp] theorem State.noPrefix_rep :
    (s.noPrefix).rep = .none := rfl
@[simp] theorem State.noPrefix_free :
    (s.noPrefix).free = s.free := rfl
@[simp] theorem State.noPrefix_portLog :
    (s.noPrefix).portLog = s.portLog := rfl
@[simp] theorem State.noPrefix_clocks :
    (s.noPrefix).clocks = s.clocks := rfl

/-! `retire` -/

@[simp] theorem State.retire_regs (c : BitVec 32) :
    (s.retire c).regs = s.regs := rfl
@[simp] theorem State.retire_segs (c : BitVec 32) :
    (s.retire c).segs = s.segs := rfl
@[simp] theorem State.retire_ip (c : BitVec 32) :
    (s.retire c).ip = s.ip := rfl
@[simp] theorem State.retire_flags (c : BitVec 32) :
    (s.retire c).flags = s.flags := rfl
@[simp] theorem State.retire_mem (c : BitVec 32) :
    (s.retire c).mem = s.mem := rfl
@[simp] theorem State.retire_master (c : BitVec 32) :
    (s.retire c).master = s.master := rfl
@[simp] theorem State.retire_slave (c : BitVec 32) :
    (s.retire c).slave = s.slave := rfl
@[simp] theorem State.retire_ports (c : BitVec 32) :
    (s.retire c).ports = s.ports := rfl
@[simp] theorem State.retire_params (c : BitVec 32) :
    (s.retire c).params = s.params := rfl
@[simp] theorem State.retire_segOverride (c : BitVec 32) :
    (s.retire c).segOverride = none := rfl
@[simp] theorem State.retire_rep (c : BitVec 32) :
    (s.retire c).rep = .none := rfl
@[simp] theorem State.retire_free (c : BitVec 32) :
    (s.retire c).free = s.free := rfl
@[simp] theorem State.retire_portLog (c : BitVec 32) :
    (s.retire c).portLog = s.portLog := rfl
@[simp] theorem State.retire_clocks (c : BitVec 32) :
    (s.retire c).clocks = c := rfl

/-! `countDown` -/

@[simp] theorem State.countDown_regs :
    (s.countDown).regs = s.regs.set .cx (s.regs.cx - 1) := rfl
@[simp] theorem State.countDown_segs :
    (s.countDown).segs = s.segs := rfl
@[simp] theorem State.countDown_ip :
    (s.countDown).ip = s.ip := rfl
@[simp] theorem State.countDown_flags :
    (s.countDown).flags = s.flags := rfl
@[simp] theorem State.countDown_mem :
    (s.countDown).mem = s.mem := rfl
@[simp] theorem State.countDown_master :
    (s.countDown).master = s.master := rfl
@[simp] theorem State.countDown_slave :
    (s.countDown).slave = s.slave := rfl
@[simp] theorem State.countDown_ports :
    (s.countDown).ports = s.ports := rfl
@[simp] theorem State.countDown_params :
    (s.countDown).params = s.params := rfl
@[simp] theorem State.countDown_segOverride :
    (s.countDown).segOverride = s.segOverride := rfl
@[simp] theorem State.countDown_rep :
    (s.countDown).rep = s.rep := rfl
@[simp] theorem State.countDown_free :
    (s.countDown).free = s.free := rfl
@[simp] theorem State.countDown_portLog :
    (s.countDown).portLog = s.portLog := rfl
@[simp] theorem State.countDown_clocks :
    (s.countDown).clocks = s.clocks := rfl

/-! `undef` -/

@[simp] theorem State.undef_regs (k : Flag) :
    (s.undef k).regs = s.regs := by
  unfold State.undef; split <;> rfl
@[simp] theorem State.undef_segs (k : Flag) :
    (s.undef k).segs = s.segs := by
  unfold State.undef; split <;> rfl
@[simp] theorem State.undef_ip (k : Flag) :
    (s.undef k).ip = s.ip := by
  unfold State.undef; split <;> rfl
@[simp] theorem State.undef_mem (k : Flag) :
    (s.undef k).mem = s.mem := by
  unfold State.undef; split <;> rfl
@[simp] theorem State.undef_master (k : Flag) :
    (s.undef k).master = s.master := by
  unfold State.undef; split <;> rfl
@[simp] theorem State.undef_slave (k : Flag) :
    (s.undef k).slave = s.slave := by
  unfold State.undef; split <;> rfl
@[simp] theorem State.undef_ports (k : Flag) :
    (s.undef k).ports = s.ports := by
  unfold State.undef; split <;> rfl
@[simp] theorem State.undef_params (k : Flag) :
    (s.undef k).params = s.params := by
  unfold State.undef; split <;> rfl
@[simp] theorem State.undef_segOverride (k : Flag) :
    (s.undef k).segOverride = s.segOverride := by
  unfold State.undef; split <;> rfl
@[simp] theorem State.undef_rep (k : Flag) :
    (s.undef k).rep = s.rep := by
  unfold State.undef; split <;> rfl
@[simp] theorem State.undef_portLog (k : Flag) :
    (s.undef k).portLog = s.portLog := by
  unfold State.undef; split <;> rfl
@[simp] theorem State.undef_clocks (k : Flag) :
    (s.undef k).clocks = s.clocks := by
  unfold State.undef; split <;> rfl

/-! `setPic` -/

@[simp] theorem State.setPic_regs (k : Ctl) (c : Pic) :
    (s.setPic k c).regs = s.regs := by
  cases k <;> rfl
@[simp] theorem State.setPic_segs (k : Ctl) (c : Pic) :
    (s.setPic k c).segs = s.segs := by
  cases k <;> rfl
@[simp] theorem State.setPic_ip (k : Ctl) (c : Pic) :
    (s.setPic k c).ip = s.ip := by
  cases k <;> rfl
@[simp] theorem State.setPic_flags (k : Ctl) (c : Pic) :
    (s.setPic k c).flags = s.flags := by
  cases k <;> rfl
@[simp] theorem State.setPic_mem (k : Ctl) (c : Pic) :
    (s.setPic k c).mem = s.mem := by
  cases k <;> rfl
@[simp] theorem State.setPic_ports (k : Ctl) (c : Pic) :
    (s.setPic k c).ports = s.ports := by
  cases k <;> rfl
@[simp] theorem State.setPic_params (k : Ctl) (c : Pic) :
    (s.setPic k c).params = s.params := by
  cases k <;> rfl
@[simp] theorem State.setPic_segOverride (k : Ctl) (c : Pic) :
    (s.setPic k c).segOverride = s.segOverride := by
  cases k <;> rfl
@[simp] theorem State.setPic_rep (k : Ctl) (c : Pic) :
    (s.setPic k c).rep = s.rep := by
  cases k <;> rfl
@[simp] theorem State.setPic_free (k : Ctl) (c : Pic) :
    (s.setPic k c).free = s.free := by
  cases k <;> rfl
@[simp] theorem State.setPic_portLog (k : Ctl) (c : Pic) :
    (s.setPic k c).portLog = s.portLog := by
  cases k <;> rfl
@[simp] theorem State.setPic_clocks (k : Ctl) (c : Pic) :
    (s.setPic k c).clocks = s.clocks := by
  cases k <;> rfl

end Sys2Proof.Machine
end

