-- ==== Sys2Proof/Laws/Words.lean ====
section
/-! SUPPORT. Bytes and words, registers and halves, and the FLAGS word. -/

namespace Sys2Proof

@[simp] theorem loByte_mkWord (lo hi : Byte) : loByte (mkWord lo hi) = lo := by
  apply BitVec.eq_of_getLsbD_eq
  intro i hi'
  simp only [loByte, mkWord, BitVec.getLsbD_extractLsb', BitVec.getLsbD_append, Nat.zero_add, hi',
    decide_true, Bool.true_and, if_true]

@[simp] theorem hiByte_mkWord (lo hi : Byte) : hiByte (mkWord lo hi) = hi := by
  apply BitVec.eq_of_getLsbD_eq
  intro i hi'
  simp only [hiByte, mkWord, BitVec.getLsbD_extractLsb', BitVec.getLsbD_append, hi', decide_true,
    Bool.true_and, show ¬ 8 + i < 8 by omega, if_false, show 8 + i - 8 = i by omega]

@[simp] theorem mkWord_lo_hi (w : Word) : mkWord (loByte w) (hiByte w) = w := by
  apply BitVec.eq_of_getLsbD_eq
  intro i hi
  simp only [mkWord, BitVec.getLsbD_append, loByte, hiByte, BitVec.getLsbD_extractLsb', Nat.zero_add]
  by_cases h : i < 8
  · simp [h]
  · simp [h, show i - 8 < 8 by omega, show 8 + (i - 8) = i by omega]

/-- A byte register is named by its owner and its half. -/
theorem Reg8.eq_of_owner_half (a b : Reg8) (h : a.owner = b.owner) (k : a.isHigh = b.isHigh) :
    a = b := by
  revert h k
  cases a <;> cases b <;> decide

namespace Machine

theorem State.reg16_setReg16 (s : State) (r q : Reg16) (v : Word) :
    (s.setReg16 r v).reg16 q = if q = r then v else s.reg16 q := by
  cases r <;> cases q <;> rfl

@[simp] theorem State.reg16_setReg16_same (s : State) (r : Reg16) (v : Word) :
    (s.setReg16 r v).reg16 r = v := by simp [State.reg16_setReg16]

theorem State.reg16_setReg16_other (s : State) (r q : Reg16) (v : Word) (h : q ≠ r) :
    (s.setReg16 r v).reg16 q = s.reg16 q := by simp [State.reg16_setReg16, h]

/-- A register of a state with the same registers. -/
theorem State.reg16_congr (s t : State) (r : Reg16) (h : t.regs = s.regs) :
    t.reg16 r = s.reg16 r := by cases r <;> simp [State.reg16, h]

theorem State.reg8_congr (s t : State) (r : Reg8) (h : t.reg16 r.owner = s.reg16 r.owner) :
    t.reg8 r = s.reg8 r := by simp [State.reg8, h]

theorem State.sreg_congr (s t : State) (r : SReg) (h : t.segs = s.segs) : t.sreg r = s.sreg r := by
  cases r <;> simp [State.sreg, h]

@[simp] theorem State.reg8_setReg8_same (s : State) (r : Reg8) (v : Byte) :
    (s.setReg8 r v).reg8 r = v := by
  unfold State.reg8 State.setReg8
  split <;> simp [*]

/-- A write to a half leaves every other byte register (R31). -/
theorem State.reg8_setReg8_other (s : State) (r q : Reg8) (v : Byte) (h : q ≠ r) :
    (s.setReg8 r v).reg8 q = s.reg8 q := by
  unfold State.reg8 State.setReg8
  by_cases ho : q.owner = r.owner
  · have hh : q.isHigh ≠ r.isHigh := fun hk => h (Reg8.eq_of_owner_half q r ho hk)
    cases hq : q.isHigh <;> cases hr : r.isHigh <;> simp_all
  · simp [State.reg16_setReg16_other _ _ _ _ ho]

/-- A write to a half leaves every register that does not own it. -/
theorem State.reg16_setReg8_other (s : State) (r : Reg8) (q : Reg16) (v : Byte) (h : q ≠ r.owner) :
    (s.setReg8 r v).reg16 q = s.reg16 q := by
  unfold State.setReg8
  exact State.reg16_setReg16_other _ _ _ _ h

@[simp] theorem State.sreg_setSreg_same (s : State) (r : SReg) (v : Word) :
    (s.setSreg r v).sreg r = v := by cases r <;> rfl

theorem State.sreg_setSreg_other (s : State) (r q : SReg) (v : Word) (h : q ≠ r) :
    (s.setSreg r v).sreg q = s.sreg q := by cases r <;> cases q <;> first | rfl | exact absurd rfl h

/-! Flags. -/

@[simp] theorem Flags.get_set_same (f : Flags) (k : Flag) (v : Bool) : (f.set k v).get k = v := by
  cases k <;> rfl

theorem Flags.get_set_other (f : Flags) (j k : Flag) (v : Bool) (h : j ≠ k) :
    (f.set k v).get j = f.get j := by
  cases j <;> cases k <;> first | rfl | exact absurd rfl h

/-- Flags with the same nine bits are the same. -/
theorem Flags.ext_get (f g : Flags) (h : ∀ k, f.get k = g.get k) : f = g := by
  cases f; cases g
  have := h .CF; have := h .PF; have := h .AF; have := h .ZF; have := h .SF
  have := h .TF; have := h .IF; have := h .DF; have := h .OF
  simp_all [Flags.get]

/-- The word that a program sees keeps the nine flags (R37). -/
theorem Flags.ofWord_word (f : Flags) : Flags.ofWord f.word = f := by
  obtain ⟨a, b, c, d, e, g, h, i, j⟩ := f
  revert a b c d e g h i j
  decide

/-- A written word reads back with only its tracked bits, and the always-one bits set (R37). -/
theorem Flags.word_ofWord (v : Word) : (Flags.ofWord v).word = (v &&& 0x0FD5#16) ||| 0xF002#16 := by
  apply BitVec.eq_of_getLsbD_eq
  intro i hi
  simp only [Flags.word, Flags.tracked, Flags.ofWord, flagsAlwaysOne, bit, BitVec.getLsbD_append,
    BitVec.getLsbD_or, BitVec.getLsbD_and]
  have : i = 0 ∨ i = 1 ∨ i = 2 ∨ i = 3 ∨ i = 4 ∨ i = 5 ∨ i = 6 ∨ i = 7 ∨ i = 8 ∨ i = 9 ∨ i = 10
    ∨ i = 11 ∨ i = 12 ∨ i = 13 ∨ i = 14 ∨ i = 15 := by omega
  rcases this with h | h | h | h | h | h | h | h | h | h | h | h | h | h | h | h <;> subst h <;> simp

/-- `Undef` touches no flag but its own. -/
theorem State.undef_get_other (s : State) (j k : Flag) (h : j ≠ k) :
    (s.undef k).flags.get j = s.flags.get j := by
  unfold State.undef
  split
  · rfl
  · exact Flags.get_set_other _ _ _ _ h

/-- Under the policy `unchanged`, `Undef` changes nothing (R225). -/
theorem State.undef_unchanged (s : State) (k : Flag) (h : s.params.undef = .unchanged) :
    s.undef k = s := by simp [State.undef, h]

theorem State.undefs_unchanged (s : State) (ks : List Flag) (h : s.params.undef = .unchanged) :
    s.undefs ks = s := by
  induction ks with
  | nil => rfl
  | cons k ks ih => simpa [State.undefs, List.foldl_cons, State.undef_unchanged s k h] using ih

end Machine
end Sys2Proof
end

