-- ==== Sys2Proof/Laws/Memory.lean ====
section
/-! SUPPORT. Memory: a read after a write, the canonical form, and words (20_memory.md R71 to R77). -/

namespace Sys2Proof.Machine

/-- A write leaves every other address alone. -/
theorem Memory.read_write_other (m : Memory) (a b : Nat) (v : Byte) (h : b ≠ a) :
    (m.write a v).read b = m.read b := by
  induction m with
  | nil => simp only [Memory.write]; split <;> simp [Memory.read, Ne.symm h]
  | cons c m ih =>
    obtain ⟨x, w⟩ := c
    simp only [Memory.write]
    split
    · split <;> simp [Memory.read, Ne.symm h]
    · split
      · rename_i hx
        subst hx
        split <;> simp [Memory.read, Ne.symm h]
      · simp only [Memory.read, ih]

/-- Below the first address a canonical memory lists nothing. -/
theorem Memory.read_of_lt (m : Memory) (lo a : Nat) (h : Memory.wfFrom lo m = true) (ha : a < lo) :
    m.read a = Memory.unlisted := by
  induction m generalizing lo with
  | nil => rfl
  | cons c m ih =>
    obtain ⟨x, w⟩ := c
    simp only [Memory.wfFrom, Bool.and_eq_true, decide_eq_true_eq] at h
    have hne : ¬ x = a := by omega
    simp only [Memory.read, hne, if_false]
    exact ih (x + 1) h.2 (by omega)

theorem Memory.wfFrom_mono (m : Memory) (lo hi : Nat) (h : Memory.wfFrom hi m = true)
    (hl : lo ≤ hi) : Memory.wfFrom lo m = true := by
  cases m with
  | nil => rfl
  | cons c m =>
    obtain ⟨x, w⟩ := c
    simp only [Memory.wfFrom, Bool.and_eq_true, decide_eq_true_eq] at h ⊢
    exact ⟨⟨⟨by omega, h.1.1.2⟩, h.1.2⟩, h.2⟩

/-- A read after a write to the same address gives the value written. -/
theorem Memory.read_write_same_from (m : Memory) (lo a : Nat) (v : Byte)
    (h : Memory.wfFrom lo m = true) : (m.write a v).read a = v := by
  induction m generalizing lo with
  | nil =>
    simp only [Memory.write]
    split
    · simp_all [Memory.read]
    · simp [Memory.read]
  | cons c m ih =>
    obtain ⟨x, w⟩ := c
    simp only [Memory.wfFrom, Bool.and_eq_true, decide_eq_true_eq] at h
    simp only [Memory.write]
    split
    · rename_i hlt
      split
      · rename_i hv
        have hne : ¬ x = a := by omega
        simp only [Memory.read, hne, if_false, hv]
        exact Memory.read_of_lt m (x + 1) a h.2 (by omega)
      · simp [Memory.read]
    · split
      · rename_i _ hx
        subst hx
        split
        · rename_i hv
          rw [hv]
          exact Memory.read_of_lt m (a + 1) a h.2 (by omega)
        · simp [Memory.read]
      · rename_i hlt hx
        have hne : ¬ x = a := fun e => hx e.symm
        simp only [Memory.read, hne, if_false]
        exact ih (x + 1) h.2

theorem Memory.read_write_same (m : Memory) (a : Nat) (v : Byte) (h : m.wf = true) :
    (m.write a v).read a = v := Memory.read_write_same_from m 0 a v h

/-- A write keeps the canonical form. -/
theorem Memory.wfFrom_write (m : Memory) (lo a : Nat) (v : Byte) (h : Memory.wfFrom lo m = true)
    (hlo : lo ≤ a) (ha : a < 2 ^ 20) : Memory.wfFrom lo (m.write a v) = true := by
  induction m generalizing lo with
  | nil =>
    simp only [Memory.write]
    split
    · rfl
    · rename_i hv
      simp only [Memory.wfFrom, Bool.and_eq_true, decide_eq_true_eq, and_true]
      exact ⟨⟨hlo, ha⟩, by simpa using hv⟩
  | cons c m ih =>
    obtain ⟨x, w⟩ := c
    have h0 := h
    simp only [Memory.wfFrom, Bool.and_eq_true, decide_eq_true_eq] at h
    simp only [Memory.write]
    split
    · rename_i hlt
      split
      · exact h0
      · rename_i hv
        simp only [Memory.wfFrom, Bool.and_eq_true, decide_eq_true_eq]
        exact ⟨⟨⟨hlo, ha⟩, by simpa using hv⟩, ⟨⟨by omega, h.1.1.2⟩, h.1.2⟩, h.2⟩
    · split
      · rename_i _ hx
        subst hx
        split
        · exact Memory.wfFrom_mono m lo (a + 1) h.2 (by omega)
        · rename_i hv
          simp only [Memory.wfFrom, Bool.and_eq_true, decide_eq_true_eq]
          exact ⟨⟨⟨hlo, ha⟩, by simpa using hv⟩, h.2⟩
      · simp only [Memory.wfFrom, Bool.and_eq_true, decide_eq_true_eq]
        exact ⟨h.1, ih (x + 1) h.2 (by omega)⟩

theorem Memory.wf_write (m : Memory) (a : Nat) (v : Byte) (h : m.wf = true) (ha : a < 2 ^ 20) :
    (m.write a v).wf = true := Memory.wfFrom_write m 0 a v h (Nat.zero_le a) ha

theorem phys_lt (seg off : Word) : phys seg off < 2 ^ 20 := Nat.mod_lt _ (by decide)

/-- The two bytes of a word are at different addresses. -/
theorem phys_next_ne (seg off : Word) : phys seg (off + 1) ≠ phys seg off := by
  unfold phys
  have h1 := seg.isLt
  have h2 := off.isLt
  rw [BitVec.toNat_add, show (1 : Word).toNat = 1 from rfl]
  omega

theorem State.read8_write8_same (s : State) (seg off : Word) (v : Byte) (h : s.mem.wf = true) :
    (s.write8 seg off v).read8 seg off = v := Memory.read_write_same _ _ _ h

theorem State.write8_wf (s : State) (seg off : Word) (v : Byte) (h : s.mem.wf = true) :
    (s.write8 seg off v).mem.wf = true := Memory.wf_write _ _ _ h (phys_lt seg off)

theorem State.write16_wf (s : State) (seg off v : Word) (h : s.mem.wf = true) :
    (s.write16 seg off v).mem.wf = true :=
  State.write8_wf _ _ _ _ (State.write8_wf _ _ _ _ h)

/-- A word write touches only its two bytes. -/
theorem State.write16_read_other (s : State) (seg off v : Word) (a : Nat)
    (h : a ∉ wordCells seg off) : (s.write16 seg off v).mem.read a = s.mem.read a := by
  simp only [wordCells, List.mem_cons, List.not_mem_nil, or_false, not_or] at h
  rw [State.write16_mem, Memory.read_write_other _ _ _ _ h.2, Memory.read_write_other _ _ _ _ h.1]

/-- The low byte of a stored word is at the lower offset (R73, R74). -/
theorem State.write16_low (s : State) (seg off v : Word) (h : s.mem.wf = true) :
    (s.write16 seg off v).read8 seg off = loByte v := by
  unfold State.read8
  rw [State.write16_mem, Memory.read_write_other _ _ _ _ (phys_next_ne seg off).symm,
    Memory.read_write_same _ _ _ h]

theorem State.write16_high (s : State) (seg off v : Word) (h : s.mem.wf = true) :
    (s.write16 seg off v).read8 seg (off + 1) = hiByte v := by
  unfold State.read8
  rw [State.write16_mem,
    Memory.read_write_same _ _ _ (Memory.wf_write _ _ _ h (phys_lt seg off))]

theorem State.read16_write16_same (s : State) (seg off v : Word) (h : s.mem.wf = true) :
    (s.write16 seg off v).read16 seg off = v := by
  simp only [State.read16, State.write16_low s seg off v h, State.write16_high s seg off v h,
    mkWord_lo_hi]

theorem State.read8_congr (s t : State) (seg off : Word) (h : t.mem = s.mem) :
    t.read8 seg off = s.read8 seg off := by simp [State.read8, h]

theorem State.read16_congr (s t : State) (seg off : Word) (h : t.mem = s.mem) :
    t.read16 seg off = s.read16 seg off := by simp [State.read16, State.read8, h]

end Sys2Proof.Machine
end

