-- ==== Sys2Proof/Laws/Frames.lean ====
section
/-! SUPPORT. Frames: how `Only` composes, and the frame of every shared operation. -/

namespace Sys2Proof.Machine

theorem Only.refl (s : State) : Only {} s s :=
  ⟨fun _ _ _ => rfl, fun _ _ _ => rfl, fun _ _ => rfl, fun _ _ => rfl, fun _ _ => rfl,
    fun _ => rfl, fun _ => rfl, rfl, rfl, rfl, rfl, rfl, rfl, rfl, rfl⟩

/-- One change after another. -/
theorem Only.trans {c d : Changes} {s t u : State} (h : Only c s t) (k : Only d t u) :
    Only (c.join d) s u where
  regs r hr hb := by
    simp only [Changes.join, List.mem_append, not_or] at hr hb
    rw [k.regs r hr.2 fun b m => hb b (.inr m), h.regs r hr.1 fun b m => hb b (.inl m)]
  bytes b hb hr := by
    simp only [Changes.join, List.mem_append, not_or] at hr hb
    rw [k.bytes b hb.2 hr.2, h.bytes b hb.1 hr.1]
  sregs r hr := by
    simp only [Changes.join, List.mem_append, not_or] at hr
    rw [k.sregs r hr.2, h.sregs r hr.1]
  flags f hf := by
    simp only [Changes.join, List.mem_append, not_or] at hf
    rw [k.flags f hf.2, h.flags f hf.1]
  cells a ha := by
    simp only [Changes.join, List.mem_append, not_or] at ha
    rw [k.cells a ha.2, h.cells a ha.1]
  ip hi := by
    simp only [Changes.join, Bool.or_eq_false_iff] at hi
    rw [k.ip hi.2, h.ip hi.1]
  free hi := by
    simp only [Changes.join, Bool.or_eq_false_iff] at hi
    rw [k.free hi.2, h.free hi.1]
  master := k.master.trans h.master
  slave := k.slave.trans h.slave
  ports := k.ports.trans h.ports
  params := k.params.trans h.params
  segOverride := k.segOverride.trans h.segOverride
  rep := k.rep.trans h.rep
  portLog := k.portLog.trans h.portLog
  clocks := k.clocks.trans h.clocks

/-- Every place of `c` is a place of `d`. -/
structure Changes.Within (c d : Changes) : Prop where
  regs : ∀ r ∈ c.regs, r ∈ d.regs
  bytes : ∀ b ∈ c.bytes, b ∈ d.bytes ∨ b.owner ∈ d.regs
  sregs : ∀ r ∈ c.sregs, r ∈ d.sregs
  flags : ∀ k ∈ c.flags, k ∈ d.flags
  cells : ∀ a ∈ c.cells, a ∈ d.cells
  ip : c.ip = true → d.ip = true
  free : c.free = true → d.free = true

/-- A frame may name more places than it needs. -/
theorem Only.mono {c d : Changes} {s t : State} (h : Only c s t) (w : c.Within d) : Only d s t where
  regs r hr hb := by
    refine h.regs r (fun m => hr (w.regs r m)) fun b m => ?_
    rcases w.bytes b m with e | e
    · exact hb b e
    · exact fun q => hr (q ▸ e)
  bytes b hb hr := by
    refine h.bytes b (fun m => ?_) fun m => hr (w.regs _ m)
    rcases w.bytes b m with e | e
    · exact hb e
    · exact hr e
  sregs r hr := h.sregs r fun m => hr (w.sregs r m)
  flags k hk := h.flags k fun m => hk (w.flags k m)
  cells a ha := h.cells a fun m => ha (w.cells a m)
  ip hi := h.ip (by
    cases hc : c.ip
    · rfl
    · rw [w.ip hc] at hi; cases hi)
  free hi := h.free (by
    cases hc : c.free
    · rfl
    · rw [w.free hc] at hi; cases hi)
  master := h.master
  slave := h.slave
  ports := h.ports
  params := h.params
  segOverride := h.segOverride
  rep := h.rep
  portLog := h.portLog
  clocks := h.clocks

/-! The frame of every operation on one part of the state. -/

theorem State.setReg16_only (s : State) (r : Reg16) (v : Word) :
    Only { regs := [r] } s (s.setReg16 r v) where
  regs q hq _ := State.reg16_setReg16_other _ _ _ _ (by simpa using hq)
  bytes b _ hb :=
    State.reg8_congr _ _ _ (State.reg16_setReg16_other _ _ _ _ (by simpa using hb))
  sregs _ _ := State.sreg_congr _ _ _ rfl
  flags _ _ := rfl
  cells _ _ := rfl
  ip _ := rfl
  free _ := rfl
  master := rfl
  slave := rfl
  ports := rfl
  params := rfl
  segOverride := rfl
  rep := rfl
  portLog := rfl
  clocks := rfl

theorem State.setReg8_only (s : State) (r : Reg8) (v : Byte) :
    Only { bytes := [r] } s (s.setReg8 r v) where
  regs q _ hb := State.reg16_setReg8_other _ _ _ _ (hb r (by simp)).symm
  bytes b hb _ := State.reg8_setReg8_other _ _ _ _ (by simpa using hb)
  sregs _ _ := State.sreg_congr _ _ _ rfl
  flags _ _ := rfl
  cells _ _ := rfl
  ip _ := rfl
  free _ := rfl
  master := rfl
  slave := rfl
  ports := rfl
  params := rfl
  segOverride := rfl
  rep := rfl
  portLog := rfl
  clocks := rfl

theorem State.setSreg_only (s : State) (r : SReg) (v : Word) :
    Only { sregs := [r] } s (s.setSreg r v) where
  regs q _ _ := State.reg16_congr _ _ _ rfl
  bytes b _ _ := State.reg8_congr _ _ _ (State.reg16_congr _ _ _ rfl)
  sregs q hq := State.sreg_setSreg_other _ _ _ _ (by simpa using hq)
  flags _ _ := rfl
  cells _ _ := rfl
  ip _ := rfl
  free _ := rfl
  master := rfl
  slave := rfl
  ports := rfl
  params := rfl
  segOverride := rfl
  rep := rfl
  portLog := rfl
  clocks := rfl

/-- A state that differs in memory, flags, `ip` or the free-value counter only. -/
theorem Only.of_fields {c : Changes} {s t : State} (regs : t.regs = s.regs) (segs : t.segs = s.segs)
    (flags : ∀ k, k ∉ c.flags → t.flags.get k = s.flags.get k)
    (cells : ∀ a, a ∉ c.cells → t.mem.read a = s.mem.read a)
    (ip : c.ip = false → t.ip = s.ip) (free : c.free = false → t.free = s.free)
    (master : t.master = s.master) (slave : t.slave = s.slave) (ports : t.ports = s.ports)
    (params : t.params = s.params) (segOverride : t.segOverride = s.segOverride)
    (rep : t.rep = s.rep) (portLog : t.portLog = s.portLog) (clocks : t.clocks = s.clocks) :
    Only c s t :=
  ⟨fun _ _ _ => State.reg16_congr _ _ _ regs,
    fun _ _ _ => State.reg8_congr _ _ _ (State.reg16_congr _ _ _ regs),
    fun _ _ => State.sreg_congr _ _ _ segs, flags, cells, ip, free, master, slave, ports, params,
    segOverride, rep, portLog, clocks⟩

theorem State.setIp_only (s : State) (v : Word) : Only { ip := true } s (s.setIp v) := by
  apply Only.of_fields <;> first | rfl | simp | (intros; rfl)

theorem State.write8_only (s : State) (seg off : Word) (v : Byte) :
    Only { cells := [phys seg off] } s (s.write8 seg off v) := by
  apply Only.of_fields <;> first | rfl | skip
  · intros; rfl
  · intro a ha
    exact Memory.read_write_other _ _ _ _ (by simpa using ha)
  · intros; rfl
  · intros; rfl

theorem State.write16_only (s : State) (seg off v : Word) :
    Only { cells := wordCells seg off } s (s.write16 seg off v) := by
  apply Only.of_fields <;> first | rfl | skip
  · intros; rfl
  · intro a ha
    exact State.write16_read_other _ _ _ _ _ ha
  · intros; rfl
  · intros; rfl

theorem State.mapFlags_only (s : State) (g : Flags → Flags) (ks : List Flag)
    (h : ∀ k, k ∉ ks → (g s.flags).get k = s.flags.get k) :
    Only { flags := ks } s (s.mapFlags g) := by
  apply Only.of_fields <;> first | rfl | skip
  · exact h
  · intros; rfl
  · intros; rfl
  · intros; rfl

theorem State.undef_only (s : State) (k : Flag) :
    Only { flags := [k], free := true } s (s.undef k) := by
  apply Only.of_fields <;> first | (simp; done) | skip
  · intro j hj
    exact State.undef_get_other _ _ _ (by simpa using hj)

theorem State.undefs_only (s : State) (ks : List Flag) :
    Only { flags := ks, free := true } s (s.undefs ks) := by
  induction ks generalizing s with
  | nil => exact (Only.refl s).mono ⟨by simp, by simp, by simp, by simp, by simp, by simp, by simp⟩
  | cons k ks ih =>
    have h := (State.undef_only s k).trans (ih (s.undef k))
    exact h.mono ⟨by simp [Changes.join], by simp [Changes.join], by simp [Changes.join],
      by simp [Changes.join], by simp [Changes.join], by simp [Changes.join], by simp⟩

/-- A push changes SP and the two bytes at the new `SS:SP` (R77). -/
theorem State.push16_only (s : State) (v : Word) :
    Only { regs := [.sp], cells := wordCells s.segs.ss (s.regs.sp - 2) } s (s.push16 v) :=
  ((s.setReg16_only .sp (s.regs.sp - 2)).trans
    ((s.setReg16 .sp (s.regs.sp - 2)).write16_only s.segs.ss (s.regs.sp - 2) v)).mono
    ⟨by simp [Changes.join], by simp [Changes.join], by simp [Changes.join],
      by simp [Changes.join], by simp [Changes.join], by simp [Changes.join],
      by simp [Changes.join]⟩

theorem State.drop16_only (s : State) : Only { regs := [.sp] } s s.drop16 :=
  s.setReg16_only .sp (s.regs.sp + 2)

/-! Operands. -/

/-- States with the same registers, segment registers and override. -/
structure SameAddresses (s t : State) : Prop where
  regs : t.regs = s.regs
  segs : t.segs = s.segs
  segOverride : t.segOverride = s.segOverride

theorem SameAddresses.sreg {s t : State} (h : SameAddresses s t) (r : SReg) : t.sreg r = s.sreg r :=
  State.sreg_congr _ _ _ h.segs

theorem SameAddresses.segOr {s t : State} (h : SameAddresses s t) (r : SReg) :
    t.segOr r = s.segOr r := by
  simp only [State.segOr, h.segOverride]
  exact h.sreg _

theorem SameAddresses.eaSeg {s t : State} (h : SameAddresses s t) (m : MemRef) :
    t.eaSeg m = s.eaSeg m := h.segOr _

theorem SameAddresses.eaOff {s t : State} (h : SameAddresses s t) (m : MemRef) :
    t.eaOff m = s.eaOff m := by
  have hb : ∀ b, t.baseValue b = s.baseValue b := by
    intro b; cases b <;> simp [State.baseValue, h.regs]
  cases m <;> simp [State.eaOff, hb]

theorem SameAddresses.place8 {s t : State} (h : SameAddresses s t) (o : Op8) :
    t.place8 o = s.place8 o := by
  cases o <;> simp [State.place8, h.eaSeg, h.eaOff]

theorem SameAddresses.place16 {s t : State} (h : SameAddresses s t) (o : Op16) :
    t.place16 o = s.place16 o := by
  cases o <;> simp [State.place16, h.eaSeg, h.eaOff]

theorem State.mapFlags_same (s : State) (g : Flags → Flags) : SameAddresses s (s.mapFlags g) :=
  ⟨rfl, rfl, rfl⟩

theorem State.undef_same (s : State) (k : Flag) : SameAddresses s (s.undef k) :=
  ⟨by simp, by simp, by simp⟩

theorem SameAddresses.trans {s t u : State} (h : SameAddresses s t) (k : SameAddresses t u) :
    SameAddresses s u :=
  ⟨k.regs.trans h.regs, k.segs.trans h.segs, k.segOverride.trans h.segOverride⟩

/-- The frame of a write to an 8-bit operand. -/
theorem State.put8_only (s : State) (o : Op8) (v : Byte) : Only (s.place8 o) s (s.put8 o v) := by
  cases o with
  | reg r => exact s.setReg8_only r v
  | mem m => exact s.write8_only _ _ v
  | imm w => exact Only.refl s

/-- The frame of a write to a 16-bit operand. -/
theorem State.put16_only (s : State) (o : Op16) (v : Word) : Only (s.place16 o) s (s.put16 o v) := by
  cases o with
  | reg r => exact s.setReg16_only r v
  | sreg r => exact s.setSreg_only r v
  | flags =>
    exact s.mapFlags_only (fun _ => Flags.ofWord v) _ fun k hk => by cases k <;> simp at hk
  | mem m => exact s.write16_only _ _ v
  | imm w => exact Only.refl s

/-- Reading back an 8-bit operand that was written. -/
theorem State.get8_put8 (s : State) (o : Op8) (v : Byte) (h : s.mem.wf = true)
    (hi : ∀ w, o ≠ .imm w) : (s.put8 o v).get8 o = v := by
  cases o with
  | reg r => exact State.reg8_setReg8_same s r v
  | mem m => exact State.read8_write8_same s _ _ v h
  | imm w => exact absurd rfl (hi w)

/-- Reading back a 16-bit operand that was written, when it is not the flags word. -/
theorem State.get16_put16 (s : State) (o : Op16) (v : Word) (h : s.mem.wf = true)
    (hf : o ≠ .flags) (hi : ∀ w, o ≠ .imm w) : (s.put16 o v).get16 o = v := by
  cases o with
  | reg r => exact State.reg16_setReg16_same s r v
  | sreg r => exact State.sreg_setSreg_same s r v
  | flags => exact absurd rfl hf
  | mem m => exact State.read16_write16_same s _ _ v h
  | imm w => exact absurd rfl (hi w)

/-- A write to an operand keeps the canonical form. -/
theorem State.put8_wf (s : State) (o : Op8) (v : Byte) (h : s.mem.wf = true) :
    (s.put8 o v).mem.wf = true := by
  cases o with
  | reg r => exact h
  | mem m => exact State.write8_wf _ _ _ _ h
  | imm w => exact h

theorem State.put16_wf (s : State) (o : Op16) (v : Word) (h : s.mem.wf = true) :
    (s.put16 o v).mem.wf = true := by
  cases o with
  | reg r => exact h
  | sreg r => exact h
  | flags => exact h
  | mem m => exact State.write16_wf _ _ _ _ h
  | imm w => exact h

end Sys2Proof.Machine
end

