-- ==== Sys2Proof/Laws/Alu.lean ====
section
/-! SUPPORT. The flag functions obey the flag rules of Safety.lean (41_alu.md R220 to R225), and the
skeletons of the ALU instructions: what they write and what they leave. -/

namespace Sys2Proof.Machine

/-- The parity function counts bits (R220). -/
theorem parity_iff : ∀ b : Byte, parity b = true ↔ oneBits b % 2 = 0 := by decide +kernel

theorem setSZP_rule {n : Nat} (r : BitVec n) (f : Flags) : SzpRule r (setSZP r f) where
  ZF := by simp [setSZP]
  SF := by simp [setSZP, BitVec.msb_eq_getLsbD_last]
  PF := parity_iff _

/-- A rule about the six arithmetic flags does not see the others. -/
theorem SzpRule.congr {n : Nat} {r : BitVec n} {f g : Flags} (h : SzpRule r f) (hz : g.ZF = f.ZF)
    (hs : g.SF = f.SF) (hp : g.PF = f.PF) : SzpRule r g :=
  ⟨by rw [hz]; exact h.ZF, by rw [hs]; exact h.SF, by rw [hp]; exact h.PF⟩

theorem xor_testBit (a b r i : Nat) :
    (a ^^^ b ^^^ r).testBit i = (a.testBit i ^^ b.testBit i ^^ r.testBit i) := by
  simp [Nat.testBit_xor]

theorem flagsAdd_rule {n : Nat} (a b : BitVec n) (raw : Nat) (f : Flags) :
    AddRule a b raw (flagsAdd a b raw f) where
  CF := by
    have : 0 < 2 ^ n := Nat.two_pow_pos n
    simp only [flagsAdd, decide_eq_true_eq]
    omega
  OF := by simp [flagsAdd, BitVec.msb_eq_getLsbD_last]
  AF := by simp [flagsAdd, BitVec.getLsbD]
  szp := (setSZP_rule (BitVec.ofNat n raw) f).congr rfl rfl rfl

theorem flagsSub_rule {n : Nat} (a b : BitVec n) (raw : Int) (f : Flags) :
    SubRule a b raw (flagsSub a b raw f) where
  CF := by simp [flagsSub]
  OF := by simp [flagsSub, BitVec.msb_eq_getLsbD_last]
  AF := by simp [flagsSub]
  szp := (setSZP_rule (BitVec.ofInt n raw) f).congr rfl rfl rfl

theorem flagsLogic_rule {n : Nat} (r : BitVec n) (f : Flags) : LogicRule r (flagsLogic r f) where
  CF := rfl
  OF := rfl
  szp := (setSZP_rule r f).congr rfl rfl rfl

/-- `Undef(AF)` leaves the rule of the bitwise family alone. -/
theorem LogicRule.undef {n : Nat} {r : BitVec n} {s : State} (h : LogicRule r s.flags) :
    LogicRule r (s.undef .AF).flags where
  CF := (s.undef_get_other .CF .AF (by decide)).trans h.CF
  OF := (s.undef_get_other .OF .AF (by decide)).trans h.OF
  szp := h.szp.congr (s.undef_get_other .ZF .AF (by decide)) (s.undef_get_other .SF .AF (by decide))
    (s.undef_get_other .PF .AF (by decide))

/-! Which flags each function leaves. -/

theorem flagsAdd_other {n : Nat} (a b : BitVec n) (raw : Nat) (f : Flags) (k : Flag)
    (h : k ∉ aluFlags) : (flagsAdd a b raw f).get k = f.get k := by
  cases k <;> first | rfl | (simp [aluFlags] at h)

theorem flagsSub_other {n : Nat} (a b : BitVec n) (raw : Int) (f : Flags) (k : Flag)
    (h : k ∉ aluFlags) : (flagsSub a b raw f).get k = f.get k := by
  cases k <;> first | rfl | (simp [aluFlags] at h)

theorem flagsLogic_other {n : Nat} (r : BitVec n) (f : Flags) (k : Flag) (h : k ∉ aluFlags) :
    (flagsLogic r f).get k = f.get k := by
  cases k <;> first | rfl | (simp [aluFlags] at h)

/-! What a flag-only change leaves of operands. -/

/-- A state that differs in flags and the free-value counter only. -/
structure FlagsOnly (ks : List Flag) (fr : Bool) (s t : State) : Prop where
  only : Only { flags := ks, free := fr } s t
  same : SameAddresses s t
  mem : t.mem = s.mem

theorem State.mapFlags_flagsOnly (s : State) (g : Flags → Flags) (ks : List Flag) (fr : Bool)
    (h : ∀ k, k ∉ ks → (g s.flags).get k = s.flags.get k) : FlagsOnly ks fr s (s.mapFlags g) :=
  ⟨(s.mapFlags_only g ks h).mono ⟨by simp, by simp, by simp, by simp, by simp, by simp, by simp⟩,
    s.mapFlags_same g, rfl⟩

theorem State.undef_flagsOnly (s : State) (k : Flag) : FlagsOnly [k] true s (s.undef k) :=
  ⟨s.undef_only k, s.undef_same k, by simp⟩

theorem FlagsOnly.trans {ks : List Flag} {fr : Bool} {s t u : State} (h : FlagsOnly ks fr s t)
    (k : FlagsOnly ks fr t u) : FlagsOnly ks fr s u :=
  ⟨(h.only.trans k.only).mono ⟨by simp [Changes.join], by simp [Changes.join], by simp [Changes.join],
    by simp [Changes.join], by simp [Changes.join], by simp [Changes.join], by simp [Changes.join]⟩,
    h.same.trans k.same, k.mem.trans h.mem⟩

theorem FlagsOnly.mono {ks js : List Flag} {fr gr : Bool} {s t : State} (h : FlagsOnly ks fr s t)
    (hk : ∀ k ∈ ks, k ∈ js) (hf : fr = true → gr = true) : FlagsOnly js gr s t :=
  ⟨h.only.mono ⟨by simp, by simp, by simp, by simpa using hk, by simp, by simp, by simpa using hf⟩,
    h.same, h.mem⟩

/-- Writing an operand after a change of flags: the frame. -/
theorem FlagsOnly.put8_only {ks : List Flag} {fr : Bool} {s t : State} (h : FlagsOnly ks fr s t)
    (o : Op8) (v : Byte) :
    Only ((s.place8 o).join { flags := ks, free := fr }) s (t.put8 o v) := by
  refine (h.only.trans (t.put8_only o v)).mono ?_
  rw [h.same.place8]
  constructor <;> simp [Changes.join] <;> tauto

theorem FlagsOnly.put16_only {ks : List Flag} {fr : Bool} {s t : State} (h : FlagsOnly ks fr s t)
    (o : Op16) (v : Word) :
    Only ((s.place16 o).join { flags := ks, free := fr }) s (t.put16 o v) := by
  refine (h.only.trans (t.put16_only o v)).mono ?_
  rw [h.same.place16]
  constructor <;> simp [Changes.join] <;> tauto

/-- What the operand's place holds afterwards. -/
theorem FlagsOnly.look8 {ks : List Flag} {fr : Bool} {s t : State} (h : FlagsOnly ks fr s t)
    (o : Op8) (v : Byte) (w : s.mem.wf = true) (hi : ∀ x, o ≠ .imm x) :
    s.look8 (t.put8 o v) o = v := by
  cases o with
  | reg r => exact State.reg8_setReg8_same t r v
  | mem m =>
    show (t.write8 _ _ v).read8 _ _ = v
    rw [h.same.eaSeg, h.same.eaOff]
    exact State.read8_write8_same t _ _ v (h.mem ▸ w)
  | imm x => exact absurd rfl (hi x)

theorem FlagsOnly.look16 {ks : List Flag} {fr : Bool} {s t : State} (h : FlagsOnly ks fr s t)
    (o : Op16) (v : Word) (w : s.mem.wf = true) (hf : o ≠ .flags) (hi : ∀ x, o ≠ .imm x) :
    s.look16 (t.put16 o v) o = v := by
  cases o with
  | reg r => exact State.reg16_setReg16_same t r v
  | sreg r => exact State.sreg_setSreg_same t r v
  | flags => exact absurd rfl hf
  | mem m =>
    show (t.write16 _ _ v).read16 _ _ = v
    rw [h.same.eaSeg, h.same.eaOff]
    exact State.read16_write16_same t _ _ v (h.mem ▸ w)
  | imm x => exact absurd rfl (hi x)

/-- Writing an operand that is not the FLAGS word leaves the flags. -/
theorem State.put8_flags (s : State) (o : Op8) (v : Byte) : (s.put8 o v).flags = s.flags := by
  cases o <;> simp [State.put8]

theorem State.put16_flags (s : State) (o : Op16) (v : Word) (h : o ≠ .flags) :
    (s.put16 o v).flags = s.flags := by
  cases o <;> first | (simp [State.put16]; done) | exact absurd rfl h

end Sys2Proof.Machine

namespace Sys2Proof

/-- An operand 1 that can be written: not an immediate, not the FLAGS word. -/
def Pair.writable : Pair → Prop
  | .b o _ => ∀ v, o ≠ .imm v
  | .w o _ => o ≠ .flags ∧ ∀ v, o ≠ .imm v

def Single.writable : Single → Prop
  | .b o => ∀ v, o ≠ .imm v
  | .w o => o ≠ .flags ∧ ∀ v, o ≠ .imm v

theorem Op8.ofRm_ne_imm (rm : Rm8) (v : Byte) : Op8.ofRm rm ≠ .imm v := by
  cases rm <;> simp [Op8.ofRm]

theorem Op16.ofRm_ne_imm (rm : Rm16) (v : Word) : Op16.ofRm rm ≠ .imm v := by
  cases rm <;> simp [Op16.ofRm]

theorem Op16.ofRm_ne_flags (rm : Rm16) : Op16.ofRm rm ≠ .flags := by
  cases rm <;> simp [Op16.ofRm]

theorem AluForm.writable (f : AluForm) : f.ops.writable := by
  cases f <;> simp [AluForm.ops, Pair.writable, Op8.ofRm_ne_imm, Op16.ofRm_ne_imm,
    Op16.ofRm_ne_flags]

theorem IncForm.writable (f : IncForm) : f.op.writable := by
  cases f <;> simp [IncForm.op, Single.writable, Op8.ofRm_ne_imm, Op16.ofRm_ne_imm,
    Op16.ofRm_ne_flags]

theorem UnForm.writable (f : UnForm) : f.op.writable := by
  cases f <;> simp [UnForm.op, Single.writable, Op8.ofRm_ne_imm, Op16.ofRm_ne_imm,
    Op16.ofRm_ne_flags]

theorem ShiftForm.writable (f : ShiftForm) : f.op.1.writable := by
  cases f <;> simp [ShiftForm.op, Single.writable, Op8.ofRm_ne_imm, Op16.ofRm_ne_imm,
    Op16.ofRm_ne_flags]

end Sys2Proof

namespace Sys2Proof.Machine

/-- The one lemma of the two-operand skeleton: if the operation changes only the flags `ks` and obeys
`rule`, the instruction computes `res` into operand 1. -/
theorem State.binary_spec (op : BinaryOp) (p : Pair) (s : State) (ks : List Flag) (fr : Bool)
    (res : {n : Nat} → BitVec n → BitVec n → BitVec n)
    (rule : {n : Nat} → BitVec n → BitVec n → Flags → Prop) (hp : p.writable)
    (hw : s.mem.wf = true)
    (h : ∀ {n : Nat} (a b : BitVec n), (op a b s).1 = res a b ∧ FlagsOnly ks fr s (op a b s).2 ∧
      rule a b (op a b s).2.flags) :
    ComputesPair (.next (s.binary op p)) s p ks fr res rule := by
  refine ⟨_, rfl, ?_, ?_⟩
  · cases p with
    | b o1 o2 => exact (h _ _).2.1.put8_only o1 _
    | w o1 o2 => exact (h _ _).2.1.put16_only o1 _
  · cases p with
    | b o1 o2 =>
      refine ⟨?_, ?_⟩
      · exact ((h _ _).2.1.look8 o1 _ hw hp).trans (h _ _).1
      · simp only [State.binary, State.put8_flags]; exact (h _ _).2.2
    | w o1 o2 =>
      refine ⟨?_, ?_⟩
      · exact ((h _ _).2.1.look16 o1 _ hw hp.1 hp.2).trans (h _ _).1
      · simp only [State.binary, State.put16_flags _ o1 _ hp.1]; exact (h _ _).2.2

/-- The one lemma of the compare skeleton. -/
theorem State.compare_spec (op : BinaryOp) (p : Pair) (s : State) (ks : List Flag) (fr : Bool)
    (rule : {n : Nat} → BitVec n → BitVec n → Flags → Prop)
    (h : ∀ {n : Nat} (a b : BitVec n), FlagsOnly ks fr s (op a b s).2 ∧
      rule a b (op a b s).2.flags) :
    ComparesPair (.next (s.compare op p)) s p ks fr rule := by
  refine ⟨_, rfl, ?_, ?_⟩
  · cases p with
    | b o1 o2 => exact (h _ _).1.only
    | w o1 o2 => exact (h _ _).1.only
  · cases p with
    | b o1 o2 => exact (h _ _).2
    | w o1 o2 => exact (h _ _).2

/-- The one lemma of the one-operand skeleton. -/
theorem State.unary_spec (op : UnaryOp) (p : Single) (s : State) (ks : List Flag)
    (res : {n : Nat} → BitVec n → BitVec n)
    (rule : {n : Nat} → BitVec n → Flags → Prop) (hp : p.writable) (hw : s.mem.wf = true)
    (h : ∀ {n : Nat} (a : BitVec n), (op a s).1 = res a ∧ FlagsOnly ks false s (op a s).2 ∧
      rule a (op a s).2.flags) :
    ComputesSingle (.next (s.unary op p)) s p ks res rule := by
  refine ⟨_, rfl, ?_, ?_⟩
  · cases p with
    | b o => exact (h _).2.1.put8_only o _
    | w o => exact (h _).2.1.put16_only o _
  · cases p with
    | b o =>
      refine ⟨?_, ?_⟩
      · exact ((h _).2.1.look8 o _ hw hp).trans (h _).1
      · simp only [State.unary, State.put8_flags]; exact (h _).2.2
    | w o =>
      refine ⟨?_, ?_⟩
      · exact ((h _).2.1.look16 o _ hw hp.1 hp.2).trans (h _).1
      · simp only [State.unary, State.put16_flags _ o _ hp.1]; exact (h _).2.2

/-- The bitwise operations: only the six flags and the counter change. -/
theorem logicResult_flagsOnly {n : Nat} (r : BitVec n) (s : State) :
    FlagsOnly aluFlags true s (logicResult r s).2 :=
  (s.mapFlags_flagsOnly (flagsLogic r) aluFlags true fun k hk => flagsLogic_other r _ k hk).trans
    ((State.undef_flagsOnly _ .AF).mono (by decide) id)

theorem logicResult_rule {n : Nat} (r : BitVec n) (s : State) :
    LogicRule r (logicResult r s).2.flags :=
  LogicRule.undef (s := s.mapFlags (flagsLogic r)) (flagsLogic_rule r s.flags)

end Sys2Proof.Machine
end

