-- ==== Sys2Proof/Laws/Decode.lean ====
section
/-! SUPPORT. Decoding what the encoder writes, piece by piece: the ModRM byte, the tails, the groups
(30_encoding.md R104 to R109). -/

namespace Sys2Proof

theorem modOf_mkModRm : ∀ (m : BitVec 2) (r x : BitVec 3), modOf (mkModRm m r x) = m := by decide
theorem regOf_mkModRm : ∀ (m : BitVec 2) (r x : BitVec 3), regOf (mkModRm m r x) = r := by decide
theorem rmOf_mkModRm : ∀ (m : BitVec 2) (r x : BitVec 3), rmOf (mkModRm m r x) = x := by decide

theorem mkWord_bytes (w : Word) : mkWord (loByte w) (hiByte w) = w := by
  apply BitVec.eq_of_getLsbD_eq
  intro i hi
  simp only [mkWord, BitVec.getLsbD_append, loByte, hiByte, BitVec.getLsbD_extractLsb', Nat.zero_add]
  by_cases h : i < 8
  · simp [h]
  · simp [h, show i - 8 < 8 by omega, show 8 + (i - 8) = i by omega]

theorem Reg16.ofNum_num (r : Reg16) : Reg16.ofNum r.num = r := by cases r <;> rfl
theorem Reg8.ofNum_num (r : Reg8) : Reg8.ofNum r.num = r := by cases r <;> rfl
theorem SReg.ofNum_num (r : SReg) : SReg.ofNum r.num = r := by cases r <;> rfl
theorem Base.ofNum_num (b : Base) : Base.ofNum b.num = b := by cases b <;> rfl

/-- The operand before its width is known. -/
def Rm8.ea : Rm8 → Ea
  | .reg r => .reg r.num
  | .mem m => .mem m

def Rm16.ea : Rm16 → Ea
  | .reg r => .reg r.num
  | .mem m => .mem m

@[simp] theorem Rm8.ea_rm8 (rm : Rm8) : rm.ea.rm8 = rm := by
  cases rm <;> simp [Rm8.ea, Ea.rm8, Reg8.ofNum_num]

@[simp] theorem Rm16.ea_rm16 (rm : Rm16) : rm.ea.rm16 = rm := by
  cases rm <;> simp [Rm16.ea, Ea.rm16, Reg16.ofNum_num]

/-- A list that is a ModRM byte with the given `reg` field and what `decodeEa` takes after it. -/
structure EncodesEa (reg : BitVec 3) (ea : Ea) (bs : List Byte) : Prop where
  split : ∃ m t, bs = m :: t ∧ regOf m = reg ∧
    ∀ rest, decodeEa m (t ++ rest) = .ok (ea, rest)

theorem encodeMem_spec (reg : BitVec 3) (m : MemRef) (h : m.wf = true) :
    EncodesEa reg (.mem m) (encodeMem reg m) := by
  constructor
  cases m with
  | base0 b =>
    refine ⟨_, [], rfl, regOf_mkModRm _ _ _, fun rest => ?_⟩
    have hb : b.num ≠ 6#3 := by cases b <;> first | decide | cases h
    simp [decodeEa, modOf_mkModRm, rmOf_mkModRm, hb, Base.ofNum_num]
  | base8 b d =>
    refine ⟨_, [d], rfl, regOf_mkModRm _ _ _, fun rest => ?_⟩
    simp [decodeEa, modOf_mkModRm, rmOf_mkModRm, Base.ofNum_num]
  | base16 b d =>
    refine ⟨_, wordBytes d, rfl, regOf_mkModRm _ _ _, fun rest => ?_⟩
    simp [decodeEa, modOf_mkModRm, rmOf_mkModRm, Base.ofNum_num, wordBytes, mkWord_bytes]
  | direct a =>
    refine ⟨_, wordBytes a, rfl, regOf_mkModRm _ _ _, fun rest => ?_⟩
    simp [decodeEa, modOf_mkModRm, rmOf_mkModRm, wordBytes, mkWord_bytes]

theorem decodeEa_reg (reg n : BitVec 3) (rest : List Byte) :
    decodeEa (mkModRm 3 reg n) rest = .ok (.reg n, rest) := by
  simp [decodeEa, modOf_mkModRm, rmOf_mkModRm]

theorem encodeRm8_spec (reg : BitVec 3) (rm : Rm8) (h : rm.wf = true) :
    EncodesEa reg rm.ea (encodeRm8 reg rm) := by
  cases rm with
  | reg r => exact ⟨_, [], rfl, regOf_mkModRm _ _ _, fun rest => decodeEa_reg _ _ _⟩
  | mem m => exact encodeMem_spec reg m h

theorem encodeRm16_spec (reg : BitVec 3) (rm : Rm16) (h : rm.wf = true) :
    EncodesEa reg rm.ea (encodeRm16 reg rm) := by
  cases rm with
  | reg r => exact ⟨_, [], rfl, regOf_mkModRm _ _ _, fun rest => decodeEa_reg _ _ _⟩
  | mem m => exact encodeMem_spec reg m h

section tails

variable {reg : BitVec 3} {ea : Ea} {bs : List Byte} (h : EncodesEa reg ea bs) (rest : List Byte)

include h

theorem withRm_spec (f : BitVec 3 → Ea → Instr) : withRm f (bs ++ rest) = .ok (f reg ea, rest) := by
  obtain ⟨m, t, rfl, hr, hd⟩ := h.split
  simp [withRm, hd, hr]

theorem withRmByte_spec (f : BitVec 3 → Ea → Byte → Instr) (v : Byte) :
    withRmByte f ((bs ++ [v]) ++ rest) = .ok (f reg ea v, rest) := by
  obtain ⟨m, t, rfl, hr, hd⟩ := h.split
  simp [withRmByte, hd, hr, withByte]

theorem withRmWord_spec (f : BitVec 3 → Ea → Word → Instr) (v : Word) :
    withRmWord f ((bs ++ wordBytes v) ++ rest) = .ok (f reg ea v, rest) := by
  obtain ⟨m, t, rfl, hr, hd⟩ := h.split
  simp [withRmWord, hd, hr, withWord, wordBytes, mkWord_bytes]

theorem group_spec (op : Byte) (choose : Nat → Option (List Byte → Decoded))
    (d : List Byte → Decoded) (hc : choose reg.toNat = some d) :
    group op choose (bs ++ rest) = d (bs ++ rest) := by
  obtain ⟨m, t, rfl, hr, hd⟩ := h.split
  simp [group, hr, hc]

theorem group_withRm (op : Byte) (choose : Nat → Option (List Byte → Decoded))
    (f : BitVec 3 → Ea → Instr) (hc : choose reg.toNat = some (withRm f)) :
    group op choose (bs ++ rest) = .ok (f reg ea, rest) := by
  rw [group_spec h rest op choose _ hc, withRm_spec h rest]

theorem group_withRmByte (op : Byte) (choose : Nat → Option (List Byte → Decoded))
    (f : BitVec 3 → Ea → Byte → Instr) (v : Byte) (hc : choose reg.toNat = some (withRmByte f)) :
    group op choose ((bs ++ [v]) ++ rest) = .ok (f reg ea v, rest) := by
  rw [List.append_assoc, group_spec h _ op choose _ hc, ← List.append_assoc,
    withRmByte_spec h rest]

theorem group_withRmWord (op : Byte) (choose : Nat → Option (List Byte → Decoded))
    (f : BitVec 3 → Ea → Word → Instr) (v : Word) (hc : choose reg.toNat = some (withRmWord f)) :
    group op choose ((bs ++ wordBytes v) ++ rest) = .ok (f reg ea v, rest) := by
  rw [List.append_assoc, group_spec h _ op choose _ hc, ← List.append_assoc,
    withRmWord_spec h rest]

end tails

theorem withMem_spec (reg : BitVec 3) (m : MemRef) (h : m.wf = true) (rest : List Byte)
    (f : BitVec 3 → MemRef → Instr) (g : BitVec 3 → BitVec 3 → Instr) :
    withMem f g (encodeMem reg m ++ rest) = .ok (f reg m, rest) := by
  obtain ⟨b, t, hb, hr, hd⟩ := (encodeMem_spec reg m h).split
  simp [hb, withMem, hd, hr]

theorem withMem_reg (reg rm : BitVec 3) (rest : List Byte)
    (f : BitVec 3 → MemRef → Instr) (g : BitVec 3 → BitVec 3 → Instr) :
    withMem f g (mkModRm 3 reg rm :: rest) = .ok (g reg rm, rest) := by
  have h := decodeEa_reg reg rm rest
  simp only [withMem, h, regOf_mkModRm, rmOf_mkModRm]

theorem group_reg (reg rm : BitVec 3) (rest : List Byte) (op : Byte)
    (choose : Nat → Option (List Byte → Decoded)) (d : List Byte → Decoded)
    (hc : choose reg.toNat = some d) :
    group op choose (mkModRm 3 reg rm :: rest) = d (mkModRm 3 reg rm :: rest) := by
  simp [group, regOf_mkModRm, hc]

theorem withWord_spec (f : Word → Instr) (w : Word) (rest : List Byte) :
    withWord f (wordBytes w ++ rest) = .ok (f w, rest) := by
  simp [withWord, wordBytes, mkWord_bytes]

theorem withFar_spec (f : Word → Word → Instr) (off seg : Word) (rest : List Byte) :
    withFar f ((wordBytes off ++ wordBytes seg) ++ rest) = .ok (f off seg, rest) := by
  simp [withFar, wordBytes, mkWord_bytes]

/-- A three-bit number is one of the eight. -/
theorem three_bits (n : BitVec 3) : n = 0 ∨ n = 1 ∨ n = 2 ∨ n = 3 ∨ n = 4 ∨ n = 5 ∨ n = 6 ∨ n = 7 := by
  revert n; decide

/-! The forms shared by several instructions. -/

theorem decode_encodeAlu (n : BitVec 3) (f : AluForm) (h : f.wf = true) (rest : List Byte) :
    decode (encodeAlu n f ++ rest) = .ok (aluOp n.toNat f, rest) := by
  cases f with
  | rmR8 rm r =>
    have := withRm_spec (encodeRm8_spec r.num rm h) rest
      fun reg ea => aluOp n.toNat (.rmR8 ea.rm8 (Reg8.ofNum reg))
    rw [Rm8.ea_rm8, Reg8.ofNum_num] at this
    rcases three_bits n with e | e | e | e | e | e | e | e <;> subst e <;> exact this
  | rmR16 rm r =>
    have := withRm_spec (encodeRm16_spec r.num rm h) rest
      fun reg ea => aluOp n.toNat (.rmR16 ea.rm16 (Reg16.ofNum reg))
    rw [Rm16.ea_rm16, Reg16.ofNum_num] at this
    rcases three_bits n with e | e | e | e | e | e | e | e <;> subst e <;> exact this
  | rRm8 r rm =>
    have := withRm_spec (encodeRm8_spec r.num rm h) rest
      fun reg ea => aluOp n.toNat (.rRm8 (Reg8.ofNum reg) ea.rm8)
    rw [Rm8.ea_rm8, Reg8.ofNum_num] at this
    rcases three_bits n with e | e | e | e | e | e | e | e <;> subst e <;> exact this
  | rRm16 r rm =>
    have := withRm_spec (encodeRm16_spec r.num rm h) rest
      fun reg ea => aluOp n.toNat (.rRm16 (Reg16.ofNum reg) ea.rm16)
    rw [Rm16.ea_rm16, Reg16.ofNum_num] at this
    rcases three_bits n with e | e | e | e | e | e | e | e <;> subst e <;> exact this
  | alImm v => rcases three_bits n with e | e | e | e | e | e | e | e <;> subst e <;> rfl
  | axImm v =>
    have := withWord_spec (fun v => aluOp n.toNat (.axImm v)) v rest
    rcases three_bits n with e | e | e | e | e | e | e | e <;> subst e <;> exact this
  | rmImm8 rm v =>
    have := withRmByte_spec (encodeRm8_spec n rm h) rest
      (fun reg ea v => aluOp reg.toNat (.rmImm8 ea.rm8 v)) v
    rw [Rm8.ea_rm8] at this
    exact this
  | rmImm16 rm v =>
    have := withRmWord_spec (encodeRm16_spec n rm h) rest
      (fun reg ea v => aluOp reg.toNat (.rmImm16 ea.rm16 v)) v
    rw [Rm16.ea_rm16] at this
    exact this
  | rmImm8Alias rm v =>
    have := withRmByte_spec (encodeRm8_spec n rm h) rest
      (fun reg ea v => aluOp reg.toNat (.rmImm8Alias ea.rm8 v)) v
    rw [Rm8.ea_rm8] at this
    exact this
  | rmImmSx rm v =>
    have := withRmByte_spec (encodeRm16_spec n rm h) rest
      (fun reg ea v => aluOp reg.toNat (.rmImmSx ea.rm16 v)) v
    rw [Rm16.ea_rm16] at this
    exact this

theorem decode_encodeShift (n : BitVec 3) (c : ShiftForm → Instr) (hc : shiftOp n.toNat = some c)
    (f : ShiftForm) (h : f.wf = true) (rest : List Byte) :
    decode (encodeShift n f ++ rest) = .ok (c f, rest) := by
  cases f with
  | rm8 rm k =>
    have e := encodeRm8_spec n rm h
    cases k with
    | one =>
      have := group_withRm e rest 0xD0 (fun n => (shiftOp n).map
        fun f => withRm fun _ ea => f (.rm8 ea.rm8 .one)) (fun _ ea => c (.rm8 ea.rm8 .one))
        (by rw [hc]; rfl)
      rw [Rm8.ea_rm8] at this
      exact this
    | cl =>
      have := group_withRm e rest 0xD2 (fun n => (shiftOp n).map
        fun f => withRm fun _ ea => f (.rm8 ea.rm8 .cl)) (fun _ ea => c (.rm8 ea.rm8 .cl))
        (by rw [hc]; rfl)
      rw [Rm8.ea_rm8] at this
      exact this
    | imm v =>
      have := group_withRmByte e rest 0xC0 (fun n => (shiftOp n).map
        fun f => withRmByte fun _ ea n => f (.rm8 ea.rm8 (.imm n)))
        (fun _ ea v => c (.rm8 ea.rm8 (.imm v))) v (by rw [hc]; rfl)
      rw [Rm8.ea_rm8] at this
      exact this
  | rm16 rm k =>
    have e := encodeRm16_spec n rm h
    cases k with
    | one =>
      have := group_withRm e rest 0xD1 (fun n => (shiftOp n).map
        fun f => withRm fun _ ea => f (.rm16 ea.rm16 .one)) (fun _ ea => c (.rm16 ea.rm16 .one))
        (by rw [hc]; rfl)
      rw [Rm16.ea_rm16] at this
      exact this
    | cl =>
      have := group_withRm e rest 0xD3 (fun n => (shiftOp n).map
        fun f => withRm fun _ ea => f (.rm16 ea.rm16 .cl)) (fun _ ea => c (.rm16 ea.rm16 .cl))
        (by rw [hc]; rfl)
      rw [Rm16.ea_rm16] at this
      exact this
    | imm v =>
      have := group_withRmByte e rest 0xC1 (fun n => (shiftOp n).map
        fun f => withRmByte fun _ ea n => f (.rm16 ea.rm16 (.imm n)))
        (fun _ ea v => c (.rm16 ea.rm16 (.imm v))) v (by rw [hc]; rfl)
      rw [Rm16.ea_rm16] at this
      exact this

theorem decode_encodeUn (n : BitVec 3) (hn : 2 ≤ n.toNat) (f : UnForm) (h : f.wf = true)
    (rest : List Byte) : decode (encodeUn n f ++ rest) = .ok (unOp n.toNat f, rest) := by
  have hd : n = 2 ∨ n = 3 ∨ n = 4 ∨ n = 5 ∨ n = 6 ∨ n = 7 := by revert n; decide
  cases f with
  | rm8 rm =>
    have := withRm_spec (encodeRm8_spec n rm h) rest fun _ ea => unOp n.toNat (.rm8 ea.rm8)
    rw [Rm8.ea_rm8] at this
    rw [← this]
    rcases hd with k | k | k | k | k | k <;> subst k <;>
      exact group_spec (encodeRm8_spec _ rm h) rest 0xF6 slotsG3B _ rfl
  | rm16 rm =>
    have := withRm_spec (encodeRm16_spec n rm h) rest fun _ ea => unOp n.toNat (.rm16 ea.rm16)
    rw [Rm16.ea_rm16] at this
    rw [← this]
    rcases hd with k | k | k | k | k | k <;> subst k <;>
      exact group_spec (encodeRm16_spec _ rm h) rest 0xF7 slotsG3W _ rfl

end Sys2Proof
end

