-- ==== Sys2Proof/Laws/PerInstr.lean ====
section
/-! SUPPORT. One family of per-instruction statements: decoding an encoded well-formed item gives the
item back and leaves the bytes after it. One lemma per constructor of `Instr`. -/

namespace Sys2Proof.Laws.RoundTrip

/-- Decoding what the encoder writes for `i` gives `i`, whatever bytes follow. -/
def Statement (i : Instr) : Prop :=
  i.wf = true → ∀ rest, decode (encode i ++ rest) = .ok (i, rest)

/-- The `reg` field of `8C` and `8E` splits into the ignored bit and the segment register. -/
theorem sreg_split (hi : BitVec 1) (r : SReg) :
    (hi ++ r.num : BitVec 3).extractLsb' 2 1 = hi ∧
      SReg.ofNum ((hi ++ r.num : BitVec 3).extractLsb' 0 2) = r := by
  cases r <;> (revert hi; decide)

theorem add (f : AluForm) : Statement (.add f) := fun h rest => decode_encodeAlu 0 f h rest

theorem or (f : AluForm) : Statement (.or f) := fun h rest => decode_encodeAlu 1 f h rest

theorem adc (f : AluForm) : Statement (.adc f) := fun h rest => decode_encodeAlu 2 f h rest

theorem sbb (f : AluForm) : Statement (.sbb f) := fun h rest => decode_encodeAlu 3 f h rest

theorem and (f : AluForm) : Statement (.and f) := fun h rest => decode_encodeAlu 4 f h rest

theorem sub (f : AluForm) : Statement (.sub f) := fun h rest => decode_encodeAlu 5 f h rest

theorem xor (f : AluForm) : Statement (.xor f) := fun h rest => decode_encodeAlu 6 f h rest

theorem cmp (f : AluForm) : Statement (.cmp f) := fun h rest => decode_encodeAlu 7 f h rest

theorem test (f : TestForm) : Statement (.test f) := by
  intro h rest
  cases f with
  | rmR8 rm r =>
    have := withRm_spec (encodeRm8_spec r.num rm h) rest
      fun reg ea => .test (.rmR8 ea.rm8 (Reg8.ofNum reg))
    rw [Rm8.ea_rm8, Reg8.ofNum_num] at this
    exact this
  | rmR16 rm r =>
    have := withRm_spec (encodeRm16_spec r.num rm h) rest
      fun reg ea => .test (.rmR16 ea.rm16 (Reg16.ofNum reg))
    rw [Rm16.ea_rm16, Reg16.ofNum_num] at this
    exact this
  | alImm v => rfl
  | axImm v => exact withWord_spec (fun v => .test (.axImm v)) v rest
  | rmImm8 rm v =>
    have := group_withRmByte (encodeRm8_spec 0 rm h) rest 0xF6 slotsG3B
      (fun _ ea v => .test (.rmImm8 ea.rm8 v)) v rfl
    rw [Rm8.ea_rm8] at this
    exact this
  | rmImm16 rm v =>
    have := group_withRmWord (encodeRm16_spec 0 rm h) rest 0xF7 slotsG3W
      (fun _ ea v => .test (.rmImm16 ea.rm16 v)) v rfl
    rw [Rm16.ea_rm16] at this
    exact this

theorem inc (f : IncForm) : Statement (.inc f) := by
  intro h rest
  cases f with
  | reg r => cases r <;> rfl
  | rm8 rm =>
    have := group_withRm (encodeRm8_spec 0 rm h) rest 0xFE slotsG4 (fun _ ea => .inc (.rm8 ea.rm8)) rfl
    rw [Rm8.ea_rm8] at this
    exact this
  | rm16 rm =>
    have := group_withRm (encodeRm16_spec 0 rm h) rest 0xFF slotsG5
      (fun _ ea => .inc (.rm16 ea.rm16)) rfl
    rw [Rm16.ea_rm16] at this
    exact this

theorem dec (f : IncForm) : Statement (.dec f) := by
  intro h rest
  cases f with
  | reg r => cases r <;> rfl
  | rm8 rm =>
    have := group_withRm (encodeRm8_spec 1 rm h) rest 0xFE slotsG4 (fun _ ea => .dec (.rm8 ea.rm8)) rfl
    rw [Rm8.ea_rm8] at this
    exact this
  | rm16 rm =>
    have := group_withRm (encodeRm16_spec 1 rm h) rest 0xFF slotsG5
      (fun _ ea => .dec (.rm16 ea.rm16)) rfl
    rw [Rm16.ea_rm16] at this
    exact this

theorem not (f : UnForm) : Statement (.not f) := fun h rest => decode_encodeUn 2 (by decide) f h rest

theorem neg (f : UnForm) : Statement (.neg f) := fun h rest => decode_encodeUn 3 (by decide) f h rest

theorem mul (f : UnForm) : Statement (.mul f) := fun h rest => decode_encodeUn 4 (by decide) f h rest

theorem imul (f : UnForm) : Statement (.imul f) := fun h rest => decode_encodeUn 5 (by decide) f h rest

theorem div (f : UnForm) : Statement (.div f) := fun h rest => decode_encodeUn 6 (by decide) f h rest

theorem idiv (f : UnForm) : Statement (.idiv f) := fun h rest => decode_encodeUn 7 (by decide) f h rest

theorem rol (f : ShiftForm) : Statement (.rol f) := fun h rest => decode_encodeShift 0 .rol rfl f h rest

theorem ror (f : ShiftForm) : Statement (.ror f) := fun h rest => decode_encodeShift 1 .ror rfl f h rest

theorem rcl (f : ShiftForm) : Statement (.rcl f) := fun h rest => decode_encodeShift 2 .rcl rfl f h rest

theorem rcr (f : ShiftForm) : Statement (.rcr f) := fun h rest => decode_encodeShift 3 .rcr rfl f h rest

theorem shl (f : ShiftForm) : Statement (.shl f) := fun h rest => decode_encodeShift 4 .shl rfl f h rest

theorem shr (f : ShiftForm) : Statement (.shr f) := fun h rest => decode_encodeShift 5 .shr rfl f h rest

theorem sar (f : ShiftForm) : Statement (.sar f) := fun h rest => decode_encodeShift 7 .sar rfl f h rest

theorem mov (f : MovForm) : Statement (.mov f) := by
  intro h rest
  cases f with
  | rmR8 rm r =>
    have := withRm_spec (encodeRm8_spec r.num rm h) rest
      fun reg ea => .mov (.rmR8 ea.rm8 (Reg8.ofNum reg))
    rw [Rm8.ea_rm8, Reg8.ofNum_num] at this
    exact this
  | rmR16 rm r =>
    have := withRm_spec (encodeRm16_spec r.num rm h) rest
      fun reg ea => .mov (.rmR16 ea.rm16 (Reg16.ofNum reg))
    rw [Rm16.ea_rm16, Reg16.ofNum_num] at this
    exact this
  | rRm8 r rm =>
    have := withRm_spec (encodeRm8_spec r.num rm h) rest
      fun reg ea => .mov (.rRm8 (Reg8.ofNum reg) ea.rm8)
    rw [Rm8.ea_rm8, Reg8.ofNum_num] at this
    exact this
  | rRm16 r rm =>
    have := withRm_spec (encodeRm16_spec r.num rm h) rest
      fun reg ea => .mov (.rRm16 (Reg16.ofNum reg) ea.rm16)
    rw [Rm16.ea_rm16, Reg16.ofNum_num] at this
    exact this
  | rmSreg hi rm r =>
    have := withRm_spec (encodeRm16_spec (hi ++ r.num) rm h) rest fun reg ea =>
      .mov (.rmSreg (reg.extractLsb' 2 1) ea.rm16 (SReg.ofNum (reg.extractLsb' 0 2)))
    rw [Rm16.ea_rm16, (sreg_split hi r).1, (sreg_split hi r).2] at this
    exact this
  | sregRm hi r rm =>
    have := withRm_spec (encodeRm16_spec (hi ++ r.num) rm h) rest fun reg ea =>
      .mov (.sregRm (reg.extractLsb' 2 1) (SReg.ofNum (reg.extractLsb' 0 2)) ea.rm16)
    rw [Rm16.ea_rm16, (sreg_split hi r).1, (sreg_split hi r).2] at this
    exact this
  | alMoffs a => exact withWord_spec (fun a => .mov (.alMoffs a)) a rest
  | axMoffs a => exact withWord_spec (fun a => .mov (.axMoffs a)) a rest
  | moffsAl a => exact withWord_spec (fun a => .mov (.moffsAl a)) a rest
  | moffsAx a => exact withWord_spec (fun a => .mov (.moffsAx a)) a rest
  | r8Imm r v => cases r <;> rfl
  | r16Imm r v => cases r <;> exact withWord_spec (fun v => .mov (.r16Imm _ v)) v rest
  | rmImm8 ext rm v =>
    have := withRmByte_spec (encodeRm8_spec ext rm h) rest
      (fun reg ea v => .mov (.rmImm8 reg ea.rm8 v)) v
    rw [Rm8.ea_rm8] at this
    exact this
  | rmImm16 ext rm v =>
    have := withRmWord_spec (encodeRm16_spec ext rm h) rest
      (fun reg ea v => .mov (.rmImm16 reg ea.rm16 v)) v
    rw [Rm16.ea_rm16] at this
    exact this

theorem xchg (f : XchgForm) : Statement (.xchg f) := by
  intro h rest
  cases f with
  | rmR8 rm r =>
    have := withRm_spec (encodeRm8_spec r.num rm h) rest
      fun reg ea => .xchg (.rmR8 ea.rm8 (Reg8.ofNum reg))
    rw [Rm8.ea_rm8, Reg8.ofNum_num] at this
    exact this
  | rmR16 rm r =>
    have := withRm_spec (encodeRm16_spec r.num rm h) rest
      fun reg ea => .xchg (.rmR16 ea.rm16 (Reg16.ofNum reg))
    rw [Rm16.ea_rm16, Reg16.ofNum_num] at this
    exact this
  | axR r => cases r <;> first | rfl | cases h

theorem push (f : PushForm) : Statement (.push f) := by
  intro h rest
  cases f with
  | sreg r => cases r <;> rfl
  | reg r => cases r <;> rfl
  | rm x =>
    have := group_withRm (encodeRm16_spec 6 x h) rest 0xFF slotsG5 (fun _ ea => .push (.rm ea.rm16)) rfl
    rw [Rm16.ea_rm16] at this
    exact this

theorem pop (f : PopForm) : Statement (.pop f) := by
  intro h rest
  cases f with
  | sreg r => cases r <;> first | rfl | cases h
  | reg r => cases r <;> rfl
  | rm ext x =>
    have := withRm_spec (encodeRm16_spec ext x h) rest fun reg ea => .pop (.rm reg ea.rm16)
    rw [Rm16.ea_rm16] at this
    exact this

theorem daa : Statement (.daa) := fun _ _ => rfl

theorem das : Statement (.das) := fun _ _ => rfl

theorem aaa : Statement (.aaa) := fun _ _ => rfl

theorem aas : Statement (.aas) := fun _ _ => rfl

theorem pushf : Statement (.pushf) := fun _ _ => rfl

theorem popf : Statement (.popf) := fun _ _ => rfl

theorem lahf : Statement (.lahf) := fun _ _ => rfl

theorem sahf : Statement (.sahf) := fun _ _ => rfl

theorem xlat : Statement (.xlat) := fun _ _ => rfl

theorem cbw : Statement (.cbw) := fun _ _ => rfl

theorem cwd : Statement (.cwd) := fun _ _ => rfl

theorem movsb : Statement (.movsb) := fun _ _ => rfl

theorem movsw : Statement (.movsw) := fun _ _ => rfl

theorem cmpsb : Statement (.cmpsb) := fun _ _ => rfl

theorem cmpsw : Statement (.cmpsw) := fun _ _ => rfl

theorem stosb : Statement (.stosb) := fun _ _ => rfl

theorem stosw : Statement (.stosw) := fun _ _ => rfl

theorem lodsb : Statement (.lodsb) := fun _ _ => rfl

theorem lodsw : Statement (.lodsw) := fun _ _ => rfl

theorem scasb : Statement (.scasb) := fun _ _ => rfl

theorem scasw : Statement (.scasw) := fun _ _ => rfl

theorem int3 : Statement (.int3) := fun _ _ => rfl

theorem iret : Statement (.iret) := fun _ _ => rfl

theorem hlt : Statement (.hlt) := fun _ _ => rfl

theorem clc : Statement (.clc) := fun _ _ => rfl

theorem stc : Statement (.stc) := fun _ _ => rfl

theorem cmc : Statement (.cmc) := fun _ _ => rfl

theorem cld : Statement (.cld) := fun _ _ => rfl

theorem std : Statement (.std) := fun _ _ => rfl

theorem cli : Statement (.cli) := fun _ _ => rfl

theorem sti : Statement (.sti) := fun _ _ => rfl

theorem wait : Statement (.wait) := fun _ _ => rfl

theorem nop : Statement (.nop) := fun _ _ => rfl

theorem prefixEs : Statement (.prefixEs) := fun _ _ => rfl

theorem prefixCs : Statement (.prefixCs) := fun _ _ => rfl

theorem prefixSs : Statement (.prefixSs) := fun _ _ => rfl

theorem prefixDs : Statement (.prefixDs) := fun _ _ => rfl

theorem prefixLock : Statement (.prefixLock) := fun _ _ => rfl

theorem prefixRepne : Statement (.prefixRepne) := fun _ _ => rfl

theorem prefixRep : Statement (.prefixRep) := fun _ _ => rfl

theorem escape0F : Statement (.escape0F) := fun _ _ => rfl

theorem into : Statement (.into) := fun _ _ => rfl

theorem aam : Statement (.aam) := fun _ _ => rfl

theorem aad : Statement (.aad) := fun _ _ => rfl

theorem lea (r : Reg16) (m : MemRef) : Statement (.lea r m) := by
  intro h rest
  have := withMem_spec r.num m h rest (fun reg m => .lea (Reg16.ofNum reg) m) .leaReg
  rw [Reg16.ofNum_num] at this
  exact this

theorem leaReg (reg rm : BitVec 3) : Statement (.leaReg reg rm) := fun _ rest =>
  withMem_reg reg rm rest (fun reg m => .lea (Reg16.ofNum reg) m) .leaReg

theorem lds (r : Reg16) (m : MemRef) : Statement (.lds r m) := by
  intro h rest
  have := withMem_spec r.num m h rest (fun reg m => .lds (Reg16.ofNum reg) m) .ldsReg
  rw [Reg16.ofNum_num] at this
  exact this

theorem ldsReg (reg rm : BitVec 3) : Statement (.ldsReg reg rm) := fun _ rest =>
  withMem_reg reg rm rest (fun reg m => .lds (Reg16.ofNum reg) m) .ldsReg

theorem les (r : Reg16) (m : MemRef) : Statement (.les r m) := by
  intro h rest
  have := withMem_spec r.num m h rest (fun reg m => .les (Reg16.ofNum reg) m) .lesReg
  rw [Reg16.ofNum_num] at this
  exact this

theorem lesReg (reg rm : BitVec 3) : Statement (.lesReg reg rm) := fun _ rest =>
  withMem_reg reg rm rest (fun reg m => .les (Reg16.ofNum reg) m) .lesReg

theorem jmp (f : JmpForm) : Statement (.jmp f) := by
  intro _ rest
  cases f with
  | rel16 d => exact withWord_spec (fun d => .jmp (.rel16 d)) d rest
  | rel8 d => rfl

theorem jmpFar (off seg : Word) : Statement (.jmpFar off seg) := fun _ rest => withFar_spec .jmpFar off seg rest

theorem callFar (off seg : Word) : Statement (.callFar off seg) := fun _ rest => withFar_spec .callFar off seg rest

theorem jmpInd (rm : Rm16) : Statement (.jmpInd rm) := by
  intro h rest
  have := group_withRm (encodeRm16_spec 4 rm h) rest 0xFF slotsG5 (fun _ ea => .jmpInd ea.rm16) rfl
  rw [Rm16.ea_rm16] at this
  exact this

theorem callInd (rm : Rm16) : Statement (.callInd rm) := by
  intro h rest
  have := group_withRm (encodeRm16_spec 2 rm h) rest 0xFF slotsG5 (fun _ ea => .callInd ea.rm16) rfl
  rw [Rm16.ea_rm16] at this
  exact this

theorem jmpFarInd (m : MemRef) : Statement (.jmpFarInd m) := fun h rest => by
  have e := group_spec (encodeMem_spec 5 m h) rest 0xFF slotsG5
    (withMem (fun _ m => .jmpFarInd m) fun _ rm => .jmpFarReg rm) rfl
  exact e.trans (withMem_spec 5 m h rest (fun _ m => .jmpFarInd m) fun _ rm => .jmpFarReg rm)

theorem jmpFarReg (rm : BitVec 3) : Statement (.jmpFarReg rm) := fun _ rest => by
  have e := group_reg 5 rm rest 0xFF slotsG5 (withMem (fun _ m => .jmpFarInd m) fun _ rm => .jmpFarReg rm) rfl
  exact e.trans (withMem_reg 5 rm rest (fun _ m => .jmpFarInd m) fun _ rm => .jmpFarReg rm)

theorem callFarInd (m : MemRef) : Statement (.callFarInd m) := fun h rest => by
  have e := group_spec (encodeMem_spec 3 m h) rest 0xFF slotsG5
    (withMem (fun _ m => .callFarInd m) fun _ rm => .callFarReg rm) rfl
  exact e.trans (withMem_spec 3 m h rest (fun _ m => .callFarInd m) fun _ rm => .callFarReg rm)

theorem callFarReg (rm : BitVec 3) : Statement (.callFarReg rm) := fun _ rest => by
  have e := group_reg 3 rm rest 0xFF slotsG5 (withMem (fun _ m => .callFarInd m) fun _ rm => .callFarReg rm) rfl
  exact e.trans (withMem_reg 3 rm rest (fun _ m => .callFarInd m) fun _ rm => .callFarReg rm)

theorem jo (d : Byte) : Statement (.jo d) := fun _ _ => rfl

theorem jno (d : Byte) : Statement (.jno d) := fun _ _ => rfl

theorem jb (d : Byte) : Statement (.jb d) := fun _ _ => rfl

theorem jnb (d : Byte) : Statement (.jnb d) := fun _ _ => rfl

theorem jz (d : Byte) : Statement (.jz d) := fun _ _ => rfl

theorem jnz (d : Byte) : Statement (.jnz d) := fun _ _ => rfl

theorem jbe (d : Byte) : Statement (.jbe d) := fun _ _ => rfl

theorem ja (d : Byte) : Statement (.ja d) := fun _ _ => rfl

theorem js (d : Byte) : Statement (.js d) := fun _ _ => rfl

theorem jns (d : Byte) : Statement (.jns d) := fun _ _ => rfl

theorem jp (d : Byte) : Statement (.jp d) := fun _ _ => rfl

theorem jnp (d : Byte) : Statement (.jnp d) := fun _ _ => rfl

theorem jl (d : Byte) : Statement (.jl d) := fun _ _ => rfl

theorem jge (d : Byte) : Statement (.jge d) := fun _ _ => rfl

theorem jle (d : Byte) : Statement (.jle d) := fun _ _ => rfl

theorem jg (d : Byte) : Statement (.jg d) := fun _ _ => rfl

theorem loop (d : Byte) : Statement (.loop d) := fun _ _ => rfl

theorem loopz (d : Byte) : Statement (.loopz d) := fun _ _ => rfl

theorem loopnz (d : Byte) : Statement (.loopnz d) := fun _ _ => rfl

theorem jcxz (d : Byte) : Statement (.jcxz d) := fun _ _ => rfl

theorem int (n : Byte) : Statement (.int n) := fun _ _ => rfl

theorem call (d : Word) : Statement (.call d) := fun _ rest => withWord_spec .call d rest

theorem ret (f : RetForm) : Statement (.ret f) := by
  intro _ rest
  cases f with
  | imm n => exact withWord_spec (fun n => .ret (.imm n)) n rest
  | plain => rfl

theorem retf (f : RetForm) : Statement (.retf f) := by
  intro _ rest
  cases f with
  | imm n => exact withWord_spec (fun n => .retf (.imm n)) n rest
  | plain => rfl

theorem esc (op reg : BitVec 3) (rm : Rm16) : Statement (.esc op reg rm) := by
  intro h rest
  have := fun op => withRm_spec (encodeRm16_spec reg rm h) rest fun reg ea => .esc op reg ea.rm16
  simp only [Rm16.ea_rm16] at this
  rcases three_bits op with e | e | e | e | e | e | e | e <;> subst e <;> exact this _

theorem inPort (f : PortForm) : Statement (.inPort f) := fun _ _ => by cases f <;> rfl

theorem outPort (f : PortForm) : Statement (.outPort f) := fun _ _ => by cases f <;> rfl

theorem undocumented (op : Byte) : Statement (.undocumented op) := by
  intro h rest
  have all : ∀ op : Byte, undocumentedOp op = true → op = 0x60 ∨ op = 0x61 ∨ op = 0x62 ∨ op = 0x63 ∨
      op = 0x64 ∨ op = 0x65 ∨ op = 0x66 ∨ op = 0x67 ∨ op = 0x68 ∨ op = 0x69 ∨ op = 0x6A ∨
      op = 0x6B ∨ op = 0x6C ∨ op = 0x6D ∨ op = 0x6E ∨ op = 0x6F ∨ op = 0xC8 ∨ op = 0xC9 ∨
      op = 0xD6 ∨ op = 0xF1 := by decide +kernel
  rcases all op h with e | e | e | e | e | e | e | e | e | e | e | e | e | e | e | e | e | e | e | e <;>
    subst e <;> rfl

theorem reserved (op modrm : Byte) : Statement (.reserved op modrm) := by
  intro h rest
  have all : ∀ m : Byte, regOf m = modrmReg m := fun _ => rfl
  have cut : ∀ (d : (ShiftForm → Instr) → List Byte → Decoded), modrmReg modrm = 6#3 →
      decodeG2 op d (modrm :: rest) = .ok (.reserved op modrm, rest) := by
    intro d e
    simp [decodeG2, group, all, e, shiftOp]
  simp only [Instr.wf, reservedSlot, Bool.or_eq_true, Bool.and_eq_true, beq_iff_eq,
    decide_eq_true_eq] at h
  rcases h with ((⟨h, e⟩ | ⟨h, e⟩) | ⟨rfl, e⟩) | ⟨rfl, e⟩
  · rcases h with ((((rfl | rfl) | rfl) | rfl) | rfl) | rfl <;> exact cut _ e
  · have e' : regOf modrm = 1#3 := e
    rcases h with rfl | rfl
    · show group 0xF6 slotsG3B (modrm :: rest) = _
      simp [group, e', slotsG3B]
    · show group 0xF7 slotsG3W (modrm :: rest) = _
      simp [group, e', slotsG3W]
  · show group 0xFE slotsG4 (modrm :: rest) = _
    have e' : 2 ≤ (regOf modrm).toNat := e
    rcases three_bits (regOf modrm) with k | k | k | k | k | k | k | k <;>
      first
      | (rw [k] at e'; exact absurd e' (by decide))
      | simp [group, k, slotsG4]
  · show group 0xFF slotsG5 (modrm :: rest) = _
    have e' : regOf modrm = 7#3 := e
    simp [group, e', slotsG5]

end Sys2Proof.Laws.RoundTrip
end

