-- ==== Sys2Proof/Laws/Pic.lean ====
section
/-! SUPPORT. The controllers: what the arbiter picks (60_exceptions.md R524), and that every operation
keeps the in-service invariant. -/

namespace Sys2Proof.Machine

theorem lowestOf_range (b : Byte) (m a k : Nat) :
    lowestOf b (List.range' a m) = some k ↔
      a ≤ k ∧ k < a + m ∧ b.getLsbD k = true ∧ ∀ j, a ≤ j → j < k → b.getLsbD j = false := by
  induction m generalizing a with
  | zero => simp [lowestOf]; omega
  | succ m ih =>
    simp only [List.range'_succ, lowestOf]
    by_cases h : b.getLsbD a = true
    · simp only [h, if_true, Option.some.injEq]
      constructor
      · rintro rfl
        exact ⟨Nat.le_refl _, by omega, h, fun j h1 h2 => by omega⟩
      · rintro ⟨h1, h2, h3, h4⟩
        rcases Nat.lt_or_ge a k with lt | ge
        · rw [h4 a (Nat.le_refl _) lt] at h; cases h
        · omega
    · simp only [h, if_false, ih, Bool.false_eq_true]
      have h' : b.getLsbD a = false := by simpa using h
      constructor
      · rintro ⟨h1, h2, h3, h4⟩
        refine ⟨by omega, by omega, h3, fun j hj hk => ?_⟩
        rcases Nat.eq_or_lt_of_le hj with rfl | lt
        · exact h'
        · exact h4 j lt hk
      · rintro ⟨h1, h2, h3, h4⟩
        have : a ≠ k := fun e => by rw [e] at h'; rw [h'] at h3; cases h3
        exact ⟨by omega, by omega, h3, fun j hj hk => h4 j (by omega) hk⟩

/-- The lowest set bit of a byte. -/
theorem lowestSet_eq_some (b : Byte) (k : Nat) :
    lowestSet b = some k ↔ k < 8 ∧ b.getLsbD k = true ∧ ∀ j < k, b.getLsbD j = false := by
  have := lowestOf_range b 8 0 k
  simpa [lowestSet, List.range'] using this

/-- The scan of one instance. -/
theorem Pic.scan_range (c : Pic) (m a i : Nat) :
    c.scan (List.range' a m) = some i ↔
      a ≤ i ∧ i < a + m ∧ c.imr.getLsbD i = false ∧ c.req i = true ∧
        (∀ j, a ≤ j → j ≤ i → c.isr.getLsbD j = false) ∧
        ∀ j, a ≤ j → j < i → c.imr.getLsbD j = true ∨ c.req j = false := by
  induction m generalizing a with
  | zero => simp [Pic.scan]; omega
  | succ m ih =>
    simp only [List.range'_succ, Pic.scan]
    by_cases hs : c.isr.getLsbD a = true
    · simp only [hs, if_true, reduceCtorEq, false_iff]
      rintro ⟨h1, -, -, -, h5, -⟩
      rw [h5 a (Nat.le_refl _) h1] at hs; cases hs
    · have hs' : c.isr.getLsbD a = false := by simpa using hs
      by_cases hr : (!c.imr.getLsbD a && c.req a) = true
      · simp only [hs', hr, Bool.false_eq_true, if_false, if_true, Option.some.injEq]
        simp only [Bool.and_eq_true, Bool.not_eq_true'] at hr
        constructor
        · rintro rfl
          exact ⟨Nat.le_refl _, by omega, hr.1, hr.2, fun j h1 h2 => by
            obtain rfl : j = a := by omega
            exact hs', fun j h1 h2 => by omega⟩
        · rintro ⟨h1, h2, h3, h4, h5, h6⟩
          rcases Nat.lt_or_ge a i with lt | ge
          · rcases h6 a (Nat.le_refl _) lt with e | e
            · rw [hr.1] at e; cases e
            · rw [hr.2] at e; cases e
          · omega
      · simp only [hs', hr, Bool.false_eq_true, if_false, ih]
        have hr' : c.imr.getLsbD a = true ∨ c.req a = false := by
          simp only [Bool.and_eq_true, Bool.not_eq_true', not_and, Bool.not_eq_true] at hr
          cases h : c.imr.getLsbD a
          · exact .inr (hr h)
          · exact .inl rfl
        constructor
        · rintro ⟨h1, h2, h3, h4, h5, h6⟩
          refine ⟨by omega, by omega, h3, h4, fun j hj hk => ?_, fun j hj hk => ?_⟩
          · rcases Nat.eq_or_lt_of_le hj with rfl | lt
            · exact hs'
            · exact h5 j lt hk
          · rcases Nat.eq_or_lt_of_le hj with rfl | lt
            · exact hr'
            · exact h6 j lt hk
        · rintro ⟨h1, h2, h3, h4, h5, h6⟩
          have : a ≠ i := by
            rintro rfl
            rcases hr' with e | e
            · rw [h3] at e; cases e
            · rw [h4] at e; cases e
          exact ⟨by omega, by omega, h3, h4, fun j hj hk => h5 j (by omega) hk,
            fun j hj hk => h6 j (by omega) hk⟩

/-- What one instance picks. -/
theorem Pic.pick_iff (c : Pic) (i : Nat) : c.pick = some i ↔ Picks c i := by
  have h := c.scan_range 8 0 i
  simp only [List.range', Nat.zero_le, true_implies, true_and, Nat.zero_add] at h
  constructor
  · intro hp
    cases hs : c.initStep with
    | ready =>
      rw [Pic.pick, hs] at hp
      obtain ⟨h1, h2, h3, h4, h5⟩ := h.1 hp
      exact ⟨hs, h1, h2, h3, h4, h5⟩
    | _ => rw [Pic.pick, hs] at hp; cases hp
  · intro hp
    rw [Pic.pick, hp.ready]
    exact h.2 ⟨hp.line, hp.unmasked, hp.requested, hp.free, hp.first⟩

/-- The lines that the arbiter can give, with the instances they come from initialized. -/
theorem getNextInterrupt_ready {m sl : Pic} {line : Nat} (h : getNextInterrupt m sl = some line) :
    m.initStep = .ready ∧ line ≤ 15 ∧ (7 < line → sl.initStep = .ready) := by
  simp only [getNextInterrupt] at h
  split at h
  · cases h
  · rename_i i hi
    have pm := (m.pick_iff i).1 hi
    split at h
    · obtain ⟨j, hj, rfl⟩ := Option.map_eq_some_iff.1 h
      have ps := (sl.pick_iff j).1 hj
      have := ps.line
      exact ⟨pm.ready, by omega, fun _ => ps.ready⟩
    · cases h
      have := pm.line
      exact ⟨pm.ready, by omega, fun h => by omega⟩

/-! The in-service invariant. -/

/-- Which instance answers a call on a line (60_exceptions.md R520, R545). -/
theorem State.lineOwner_eq (s : State) (l : Nat) :
    (l ≤ 7 → s.lineOwner l = .ok s.master) ∧ (8 ≤ l → l ≤ 15 → s.lineOwner l = .ok s.slave) ∧
    (15 < l → s.lineOwner l = .error (.configLine l)) := by
  refine ⟨fun h => by simp [State.lineOwner, h], fun h k => ?_, fun h => ?_⟩
  · simp [State.lineOwner, show ¬ l ≤ 7 by omega, k]
  · simp [State.lineOwner, show ¬ l ≤ 7 by omega, show ¬ l ≤ 15 by omega]

/-- `VectorAddress` is made of the answers of GetVectorBase and GetVectorSize, and for a number above
15 it uses neither and the defaults stand in (R505, R545). -/
theorem vectorAddress_of_calls (s : State) (n : Nat) :
    (∀ b k, s.getVectorBase n = .ok b → s.getVectorSize n = .ok k →
      vectorAddress s.master s.slave n = (b.toNat + if n ≤ 7 then n else n - 8) * k) ∧
    (15 < n → vectorAddress s.master s.slave n = n * 4) := by
  by_cases h : n ≤ 7
  · refine ⟨fun b k hb hk => ?_, fun _ => by omega⟩
    simp only [State.getVectorBase, State.getVectorSize, s.lineOwner_eq n |>.1 h] at hb hk
    cases hb; cases hk
    simp [vectorAddress, vectorNumber, vectorSize, h]
  · by_cases k : n ≤ 15
    · refine ⟨fun b z hb hz => ?_, fun _ => by omega⟩
      simp only [State.getVectorBase, State.getVectorSize,
        (s.lineOwner_eq n).2.1 (by omega) k] at hb hz
      cases hb; cases hz
      simp [vectorAddress, vectorNumber, vectorSize, h, k]
    · have e := (s.lineOwner_eq n).2.2 (by omega)
      refine ⟨fun b z hb _ => ?_, fun _ => ?_⟩
      · simp only [State.getVectorBase, e] at hb; cases hb
      · simp [vectorAddress, vectorNumber, vectorSize, h, k, vectorDefaultBase, vectorDefaultSize]

theorem Pic.Inv.of_isr {c d : Pic} (h : c.Inv) (hi : d.isr = c.isr) (hs : d.initStep = c.initStep)
    (ha : d.icw4 = c.icw4) : d.Inv := by
  intro e
  have := h (by rwa [hi] at e)
  exact ⟨by rw [hs]; exact this.1, by rw [Pic.aeoi, ha]; exact this.2⟩

theorem Pic.Inv.of_zero {c : Pic} (h : c.isr = 0#8) : c.Inv := fun e => absurd h e

theorem Pic.requestService_inv (c : Pic) (i : Nat) (hr : c.initStep = .ready) (h : c.Inv) :
    (c.requestService i).Inv := by
  simp only [Pic.requestService]
  split
  · exact h
  · rename_i ha
    have off : c.aeoi = false := by simpa using ha
    exact fun _ => ⟨hr, off⟩

theorem clearBit_zero (i : Nat) : clearBit 0#8 i = 0#8 := by simp [clearBit]

theorem Pic.ackService_inv (c : Pic) (i : Nat) (h : c.Inv) : (c.ackService i).Inv := by
  intro e
  refine h fun z => e ?_
  simp [Pic.ackService, z, clearBit_zero]

theorem Pic.writeCommand_inv (c : Pic) (v : Byte) (h : c.Inv) : (c.writeCommand v).Inv := by
  simp only [Pic.writeCommand]
  split
  · exact .of_zero rfl
  · split
    · split
      · simp only [Pic.writeOcw3]
        split
        · exact h.of_isr rfl rfl rfl
        · exact h
      · simp only [Pic.writeOcw2]
        split
        · exact c.ackService_inv _ h
        · exact h
    · exact h

theorem Pic.writeData_inv (c : Pic) (v : Byte) (h : c.Inv) : (c.writeData v).Inv := by
  have zero : c.initStep ≠ .ready → c.isr = 0#8 := fun n => by
    by_contra e
    exact n (h e).1
  simp only [Pic.writeData]
  split <;> rename_i hs
  · exact h
  · exact .of_zero (zero (by rw [hs]; decide))
  · exact .of_zero (zero (by rw [hs]; decide))
  · exact .of_zero (zero (by rw [hs]; decide))
  · exact h.of_isr rfl rfl rfl

end Sys2Proof.Machine
end

