-- ==== Sys2Proof/Laws/Ports.lean ====
section
/-! SUPPORT. The port bus: which slots are owned, and what a call on a device of the platform leaves
alone (47_io.md R460, R462). -/

namespace Sys2Proof.Machine

theorem portLookup_eq_none (p : Nat) (l : List (Nat × Device)) :
    portLookup p l = none ↔ ∀ d, (p, d) ∉ l := by
  induction l with
  | nil => simp [portLookup]
  | cons x t ih =>
    obtain ⟨q, e⟩ := x
    by_cases h : q = p
    · subst h; simp [portLookup]
      exact ⟨e, fun h => absurd rfl h⟩
    · simp [portLookup, h, ih, Ne.symm h]

theorem sameButRequests_trans {a b c : Pic} (h : { b with irr := a.irr, level := a.level } = a)
    (k : { c with irr := b.irr, level := b.level } = b) :
    { c with irr := a.irr, level := a.level } = a := by
  obtain ⟨⟩ := a; obtain ⟨⟩ := b; obtain ⟨⟩ := c
  simp_all

theorem DeviceKeeps.refl (s : State) : DeviceKeeps s s := by
  constructor <;> intros <;> rfl

theorem DeviceKeeps.trans {s t u : State} (h : DeviceKeeps s t) (k : DeviceKeeps t u) :
    DeviceKeeps s u where
  regs r hr := (k.regs r hr).trans (h.regs r hr)
  segs := k.segs.trans h.segs
  ip := k.ip.trans h.ip
  flags := k.flags.trans h.flags
  mem := k.mem.trans h.mem
  ports := k.ports.trans h.ports
  params := k.params.trans h.params
  segOverride := k.segOverride.trans h.segOverride
  rep := k.rep.trans h.rep
  clocks := k.clocks.trans h.clocks
  master := sameButRequests_trans h.master k.master
  slave := sameButRequests_trans h.slave k.slave

/-- A call on an interrupt line changes request and level bits only (60_exceptions.md R521, R526,
R527). -/
theorem State.lineCall_keeps (s : State) (c : LineCall) : DeviceKeeps s (s.lineCall c) := by
  cases c with
  | request l =>
    simp only [State.lineCall, State.requestLine, State.onCascade]
    split
    · constructor <;> intros <;> rfl
    · split <;> constructor <;> intros <;> rfl
  | ack l =>
    simp only [State.lineCall, State.ackLine, State.onCascade]
    split
    · constructor <;> intros <;> rfl
    · split <;> constructor <;> intros <;> rfl
  | level l v =>
    simp only [State.lineCall, State.setLevel]
    split <;> constructor <;> intros <;> rfl

theorem State.lineCalls_keep (cs : List LineCall) (s : State) :
    DeviceKeeps s (cs.foldl State.lineCall s) := by
  induction cs generalizing s with
  | nil => exact .refl s
  | cons c cs ih => exact (s.lineCall_keeps c).trans (ih _)

/-- A call on a device leaves alone everything but request and level bits, the log and the counter. -/
theorem State.deviceCall_keeps (c : PortCall) (s : State) : DeviceKeeps s (s.deviceCall c) :=
  DeviceKeeps.trans (t := { s with portLog := c :: s.portLog, free := s.free + 1 })
    (by constructor <;> intros <;> rfl) (State.lineCalls_keep _ _)

end Sys2Proof.Machine
end

