-- ==== Sys2Proof/Laws/Run.lean ====
section
/-! SUPPORT. The step: its two branches (30_encoding.md R100), the prefix walk one item at a time
(R102), and the repeat loop one iteration at a time (45_string.md R391). -/

namespace Sys2Proof.Machine

theorem step_of_line {s : State} {line : Nat} (hi : s.flags.IF = true)
    (hl : getNextInterrupt s.master s.slave = some line) :
    step s = .next (s.takeInterrupt line) := by
  simp [step, stepCore, State.interruptTaken, hi, State.nextInterrupt, hl]

theorem step_of_noInterrupt {s : State} (h : NoInterrupt s) :
    step s = runItems segmentBytes s.noPrefix := by
  rcases h with h | h <;> simp [step, stepCore, State.interruptTaken, h, State.nextInterrupt]

theorem finish_eq_stepOf (c : BitVec 32) (o : Out) : finish c o = stepOf c o := by
  cases o <;> rfl

/-- An item that is no prefix ends the walk. -/
theorem runItems_instr (k : Nat) {s : State} {i : Instr} {n : Nat} (hf : s.fetch = .ok (i, n))
    (hp : i.isPrefix = false) :
    runItems (k + 1) s = stepOf (clockCost i (s.advance n)) (exec i (s.advance n)) := by
  simp [runItems, hf, hp, finish_eq_stepOf, runItem]

/-- A prefix is recorded and the walk goes on after it. -/
theorem runItems_prefix (k : Nat) {s t : State} {i : Instr} {n : Nat} (hf : s.fetch = .ok (i, n))
    (hp : i.isPrefix = true) (he : exec i (s.advance n) = .next t) :
    runItems (k + 1) s = runItems k t := by
  simp [runItems, hf, hp, runItem, he]

theorem fetch_of_decode {s : State} {i : Instr} {rest : List Byte}
    (h : decode s.window = .ok (i, rest)) : s.fetch = .ok (i, 6 - rest.length) := by
  simp [State.fetch, h, maxItemBytes]

/-- What a prefix byte's meaning does. -/
theorem exec_prefix {i : Instr} (h : i.isPrefix = true) (s : State) :
    exec i s = .next { s with segOverride := (afterPrefix (s.segOverride, s.rep) i).1,
                              rep := (afterPrefix (s.segOverride, s.rep) i).2 } := by
  cases i <;> first | rfl | cases h

/-- A string instruction without a repeat prefix runs once. -/
theorem State.string_once (iter : State → State) (c : Bool) {s : State}
    (h : s.rep = .none ∨ s.rep = .lock) : s.string iter c = iter s := by
  rcases h with h | h <;> simp [State.string, h]

/-- With one it is the loop, CX times at most. -/
theorem State.string_loop (iter : State → State) (c : Bool) {s : State}
    (h : s.rep = .rep ∨ s.rep = .repne) : s.string iter c = repLoop iter c s.regs.cx.toNat s := by
  rcases h with h | h <;> simp [State.string, h]

theorem repLoop_zero (iter : State → State) (c : Bool) (s : State) : repLoop iter c 0 s = s := rfl

theorem repLoop_succ (iter : State → State) (c : Bool) (k : Nat) (s : State) :
    repLoop iter c (k + 1) s =
      if repStops c (iter s).countDown.rep (iter s).countDown.flags.ZF then (iter s).countDown
      else repLoop iter c k (iter s).countDown := rfl

end Sys2Proof.Machine
end

