-- ==== Sys2Proof/Laws/Shift.lean ====
section
/-! SUPPORT. The shift skeleton (42_shift_rotate.md R281): what it writes and what it leaves, whatever
the one-bit step. The closed form of a step's repetition is the only thing left to each operation. -/

namespace Sys2Proof.Machine

/-- A count of zero does nothing. -/
theorem State.shift_zero (op : ShiftOp) (f : ShiftForm) (s : State) (h : s.count f.op.2 = 0) :
    s.shift op f = s := by
  simp [State.shift, h]

/-- The flags after a shift, from a state whose operand is already written. -/
theorem State.shiftFlags_spec (op : ShiftOp) (k : Nat) {n : Nat} (v : BitVec n) (c : Bool) (s : State) :
    FlagsOnly (if op.szp then aluFlags else [.CF, .OF]) true s (s.shiftFlags op k v c) ∧
      (s.shiftFlags op k v c).flags.CF = c ∧
      (k = 1 → (s.shiftFlags op k v c).flags.OF = op.ovf v c) ∧
      (k ≠ 1 → UndefRule [.OF] s (s.shiftFlags op k v c)) ∧
      UndefRule [.AF] s (s.shiftFlags op k v c) ∧
      (op.szp = true → SzpRule v (s.shiftFlags op k v c).flags) := by
  rcases op with ⟨step, ovf, szp⟩
  let t := s.mapFlags fun f => { f with CF := c }
  let u := if k = 1 then t.mapFlags fun f => { f with OF := ovf v c } else t.undef .OF
  have ht : FlagsOnly [.CF, .OF] true s t :=
    s.mapFlags_flagsOnly _ _ _ fun j hj => by cases j <;> first | rfl | simp at hj
  have hu : FlagsOnly [.CF, .OF] true s u := by
    by_cases hk : k = 1
    · have : u = t.mapFlags fun f => { f with OF := ovf v c } := if_pos hk
      rw [this]
      exact ht.trans (t.mapFlags_flagsOnly _ _ _ fun j hj => by
        cases j <;> first | rfl | simp at hj)
    · have : u = t.undef .OF := if_neg hk
      rw [this]
      exact ht.trans ((t.undef_flagsOnly .OF).mono (by simp) id)
  have cf : u.flags.CF = c := by
    by_cases hk : k = 1
    · simp [u, hk, State.mapFlags, t]
    · simp only [u, hk, if_false]
      exact State.undef_get_other t .CF .OF (by decide)
  have of1 : k = 1 → u.flags.OF = ovf v c := fun hk => by simp [u, hk, State.mapFlags]
  have ofU : k ≠ 1 → s.params.undef = .unchanged → u.flags.OF = s.flags.OF := by
    intro hk hp
    simp only [u, hk, if_false]
    rw [State.undef_unchanged t .OF hp]
    rfl
  have afU : s.params.undef = .unchanged → u.flags.AF = s.flags.AF := by
    intro hp
    by_cases hk : k = 1
    · simp [u, hk, State.mapFlags, t]
    · simp only [u, hk, if_false]
      rw [State.undef_unchanged t .OF hp]
      rfl
  have params : u.params = s.params := by
    by_cases hk : k = 1 <;> simp [u, hk, t]
  cases szp with
  | false =>
    have e : s.shiftFlags ⟨step, ovf, false⟩ k v c = u := by simp [State.shiftFlags, u, t]
    rw [e]
    exact ⟨hu, cf, of1, fun hk hp j hj => by simp at hj; subst hj; exact ofU hk hp,
      fun hp j hj => by simp at hj; subst hj; exact afU hp, fun h => by cases h⟩
  | true =>
    have e : s.shiftFlags ⟨step, ovf, true⟩ k v c = (u.mapFlags (setSZP v)).undef .AF := by
      simp [State.shiftFlags, u, t]
    rw [e]
    have keep : ∀ j, j ≠ Flag.AF → j ∉ [Flag.ZF, .SF, .PF] →
        ((u.mapFlags (setSZP v)).undef .AF).flags.get j = u.flags.get j := by
      intro j hj hj'
      rw [State.undef_get_other _ _ _ hj]
      cases j <;> first | rfl | simp at hj'
    refine ⟨?_, (keep .CF (by decide) (by decide)).trans cf,
      fun hk => (keep .OF (by decide) (by decide)).trans (of1 hk), ?_, ?_, ?_⟩
    · exact ((hu.mono (by simp [aluFlags]) id).trans ((u.mapFlags_flagsOnly (setSZP v) aluFlags true
        fun j hj => by cases j <;> first | rfl | simp [aluFlags] at hj).trans
        ((State.undef_flagsOnly _ .AF).mono (by decide) id)))
    · intro hk hp j hj
      simp at hj; subst hj
      exact (keep .OF (by decide) (by decide)).trans (ofU hk hp)
    · intro hp j hj
      simp at hj; subst hj
      rw [State.undef_unchanged _ _ (by simpa [params] using hp)]
      exact afU hp
    · intro _
      exact (setSZP_rule v u.flags).congr
        (State.undef_get_other (u.mapFlags (setSZP v)) .ZF .AF (by decide))
        (State.undef_get_other (u.mapFlags (setSZP v)) .SF .AF (by decide))
        (State.undef_get_other (u.mapFlags (setSZP v)) .PF .AF (by decide))

/-- A change of flags after the operand is written leaves the operand. -/
theorem FlagsOnly.look8_after {ks : List Flag} {fr : Bool} {t u : State} (h : FlagsOnly ks fr t u)
    (s : State) (o : Op8) : s.look8 u o = s.look8 t o := by
  cases o with
  | reg r => exact State.reg8_congr _ _ _ (State.reg16_congr _ _ _ h.same.regs)
  | mem m => simp only [State.look8, State.read8, h.mem]
  | imm v => rfl

theorem FlagsOnly.look16_after {ks : List Flag} {fr : Bool} {t u : State} (h : FlagsOnly ks fr t u)
    (s : State) (o : Op16) (hf : o ≠ .flags) : s.look16 u o = s.look16 t o := by
  cases o with
  | reg r => exact State.reg16_congr _ _ _ h.same.regs
  | sreg r => exact State.sreg_congr _ _ _ h.same.segs
  | flags => exact absurd rfl hf
  | mem m => simp only [State.look16, State.read16, State.read8, h.mem]
  | imm v => rfl

/-- The rule of undefined flags sees flags and parameters only. -/
theorem UndefRule.of_eq {ks : List Flag} {s t u : State} (h : UndefRule ks t u)
    (hf : t.flags = s.flags) (hp : t.params = s.params) : UndefRule ks s u := by
  intro e k hk
  rw [h (hp ▸ e) k hk, hf]

/-- The one lemma of the shift skeleton. -/
theorem State.shift_spec (op : ShiftOp) (f : ShiftForm) (s : State) (rule : ShiftRule)
    (hw : s.mem.wf = true) (hk : s.count f.op.2 ≠ 0)
    (h : ∀ {n : Nat} (v : BitVec n) (c : Bool), 8 ≤ n →
      rule (s.count f.op.2) v c (shiftLoop op.step (s.count f.op.2) v c).1
        (shiftLoop op.step (s.count f.op.2) v c).2) :
    Shifts (.next (s.shift op f)) s f rule op.ovf op.szp := by
  have writable := f.writable
  have only : ∀ (c : Changes) (t u : State), Only c s t →
      FlagsOnly (if op.szp then aluFlags else [.CF, .OF]) true t u →
      Only (c.join { flags := if op.szp then aluFlags else [.CF, .OF], free := true }) s u :=
    fun c t u h k => h.trans k.only
  cases hp : f.op.1 with
  | b o =>
    rw [hp] at writable
    let r := shiftLoop op.step (s.count f.op.2) (s.get8 o) s.flags.CF
    have e : s.shift op f = (s.put8 o r.1).shiftFlags op (s.count f.op.2) r.1 r.2 := by
      simp [State.shift, hk, hp, r]
    have look : s.look8 (s.put8 o r.1) o = r.1 :=
      FlagsOnly.look8 (ks := []) (fr := false)
        (s.mapFlags_flagsOnly id [] false fun _ _ => rfl) o r.1 hw writable
    obtain ⟨fo, cf, of1, ofU, afU, szp⟩ :=
      (s.put8 o r.1).shiftFlags_spec op (s.count f.op.2) r.1 r.2
    have flags := s.put8_flags o r.1
    have params : (s.put8 o r.1).params = s.params := (s.put8_only o r.1).params
    refine ⟨_, rfl, ?_, ?_, ?_, ?_⟩
    · rw [hp, e]; exact only _ _ _ (s.put8_only o r.1) fo
    · rw [e]; exact fun k => (ofU k).of_eq flags params
    · rw [e]; exact afU.of_eq flags params
    · rw [hp, e]
      simp only [fo.look8_after s o, look, cf]
      exact ⟨h _ _ (by decide), of1, szp⟩
  | w o =>
    rw [hp] at writable
    let r := shiftLoop op.step (s.count f.op.2) (s.get16 o) s.flags.CF
    have e : s.shift op f = (s.put16 o r.1).shiftFlags op (s.count f.op.2) r.1 r.2 := by
      simp [State.shift, hk, hp, r]
    have look : s.look16 (s.put16 o r.1) o = r.1 :=
      FlagsOnly.look16 (ks := []) (fr := false)
        (s.mapFlags_flagsOnly id [] false fun _ _ => rfl) o r.1 hw writable.1 writable.2
    obtain ⟨fo, cf, of1, ofU, afU, szp⟩ :=
      (s.put16 o r.1).shiftFlags_spec op (s.count f.op.2) r.1 r.2
    have flags := s.put16_flags o r.1 writable.1
    have params : (s.put16 o r.1).params = s.params := (s.put16_only o r.1).params
    refine ⟨_, rfl, ?_, ?_, ?_, ?_⟩
    · rw [hp, e]; exact only _ _ _ (s.put16_only o r.1) fo
    · rw [e]; exact fun k => (ofU k).of_eq flags params
    · rw [e]; exact afU.of_eq flags params
    · rw [hp, e]
      simp only [fo.look16_after s o writable.1, look, cf]
      exact ⟨h _ _ (by decide), of1, szp⟩

end Sys2Proof.Machine
end

