-- ==== Sys2Proof/Laws/Stack.lean ====
section
/-! SUPPORT. The stack, interrupt entry and return (20_memory.md R77, 60_exceptions.md R504, R505,
46_system.md R424): what each operation does, said once. -/

namespace Sys2Proof.Machine

/-- Two offsets of one segment that differ are two addresses. -/
theorem phys_inj (seg a b : Word) (h : phys seg a = phys seg b) : a = b := by
  have ha := a.isLt
  have hb := b.isLt
  simp only [phys] at h
  apply BitVec.eq_of_toNat_eq
  omega

theorem phys_ne (seg a b : Word) (h : a ≠ b) : phys seg a ≠ phys seg b :=
  fun e => h (phys_inj seg a b e)

theorem not_mem_wordCells (seg a off : Word) (h0 : a ≠ off) (h1 : a ≠ off + 1) :
    phys seg a ∉ wordCells seg off := by
  simp only [wordCells, List.mem_cons, List.not_mem_nil, or_false, not_or]
  exact ⟨phys_ne _ _ _ h0, phys_ne _ _ _ h1⟩

/-- A word read is unchanged by writes elsewhere. -/
theorem read16_of_cells {s t : State} (seg off : Word)
    (h0 : t.mem.read (phys seg off) = s.mem.read (phys seg off))
    (h1 : t.mem.read (phys seg (off + 1)) = s.mem.read (phys seg (off + 1))) :
    t.read16 seg off = s.read16 seg off := by
  simp only [State.read16, State.read8, h0, h1]

theorem State.push16_sp (s : State) (v : Word) : (s.push16 v).regs.sp = s.regs.sp - 2 := by
  simp [State.push16, State.setReg16, Regs.set]

/-- The word pushed is on the stack. -/
theorem State.push16_word (s : State) (v : Word) (h : s.mem.wf = true) :
    (s.push16 v).read16 s.segs.ss (s.regs.sp - 2) = v := by
  have := State.read16_write16_same (s.setReg16 .sp (s.regs.sp - 2)) s.segs.ss (s.regs.sp - 2) v h
  simpa [State.push16, State.setReg16, Regs.set] using this

theorem State.push16_wf (s : State) (v : Word) (h : s.mem.wf = true) :
    (s.push16 v).mem.wf = true := by
  simp only [State.push16]
  exact State.write16_wf _ _ _ _ h

/-- A word of the stack that a push does not overwrite. -/
theorem State.push16_read16_other (s : State) (v off : Word)
    (h0 : off ≠ s.regs.sp - 2) (h1 : off ≠ s.regs.sp - 2 + 1)
    (h2 : off + 1 ≠ s.regs.sp - 2) (h3 : off + 1 ≠ s.regs.sp - 2 + 1) :
    (s.push16 v).read16 s.segs.ss off = s.read16 s.segs.ss off := by
  have only := s.push16_only v
  apply read16_of_cells
  · exact only.cells _ (not_mem_wordCells _ _ _ h0 h1)
  · exact only.cells _ (not_mem_wordCells _ _ _ h2 h3)

theorem vectorAddress_entry (s : State) (n : Nat) :
    vectorAddress s.master s.slave n = entryAddress s n := by
  simp only [vectorAddress, vectorNumber, vectorSize, entryAddress, Pic.vbase, Pic.vsize,
    vectorDefaultBase, vectorDefaultSize, Nat.zero_add]
  split
  · rfl
  · split <;> rfl

theorem entryAddress_small (s : State) (n : Nat) (h : n < 256) : entryAddress s n + 3 < 2 ^ 20 := by
  have h1 := s.master.icw2.isLt
  have h2 := s.slave.icw2.isLt
  simp only [entryAddress]
  split
  · omega
  · split <;> omega

/-- Interrupt entry does what R504 says. -/
theorem State.vector_entry (s : State) (n : Nat) (k : VectorKind) (hn : n < 256)
    (hw : s.mem.wf = true) : Entry n (k == .hardware) s (s.vector n k) := by
  have small := entryAddress_small s n hn
  have e1 : s.regs.sp - 2 - 2 = s.regs.sp - 4 := by bv_omega
  have e2 : s.regs.sp - 4 - 2 = s.regs.sp - 6 := by bv_omega
  let a := s.push16 s.flags.word
  let b := a.push16 s.segs.cs
  let c := b.push16 s.ip
  have hb : b.regs.sp = s.regs.sp - 4 := by
    rw [State.push16_sp, State.push16_sp, e1]
  have wa : a.mem.wf = true := s.push16_wf _ hw
  have wb : b.mem.wf = true := a.push16_wf _ wa
  have mem : (s.vector n k).mem = c.mem := by cases k <;> simp [State.vector, a, b, c]
  have segs : c.segs = s.segs := by simp [a, b, c]
  let cells := wordCells s.segs.ss (s.regs.sp - 2) ++ wordCells s.segs.ss (s.regs.sp - 4)
    ++ wordCells s.segs.ss (s.regs.sp - 6)
  have pushes : Only { regs := [.sp], cells := cells } s c := by
    have h1 := (s.push16_only s.flags.word).trans (a.push16_only s.segs.cs)
    have h2 := h1.trans (b.push16_only s.ip)
    refine h2.mono ?_
    rw [State.push16_segs, State.push16_segs, State.push16_segs, State.push16_sp, hb, e1, e2]
    constructor <;> simp [Changes.join, cells] <;> tauto
  have read : ∀ (off : Word) (x : State), (∀ i, (s.vector n k).mem.read i = x.mem.read i) →
      (s.vector n k).read16 s.segs.ss off = x.read16 s.segs.ss off :=
    fun off x h => read16_of_cells _ _ (h _) (h _)
  have toC : ∀ off, (s.vector n k).read16 s.segs.ss off = c.read16 s.segs.ss off :=
    fun off => read off c fun i => by rw [mem]
  have rC : c.read16 s.segs.ss (s.regs.sp - 6) = s.ip := by
    have := b.push16_word s.ip wb
    rw [hb, e2] at this
    simpa [a, b] using this
  have rB : c.read16 s.segs.ss (s.regs.sp - 4) = s.segs.cs := by
    have h1 := b.push16_read16_other s.ip (s.regs.sp - 4) (by rw [hb]; bv_omega)
      (by rw [hb]; bv_omega) (by rw [hb]; bv_omega) (by rw [hb]; bv_omega)
    have h2 := a.push16_word s.segs.cs wa
    rw [State.push16_sp, e1] at h2
    rw [show b.segs = s.segs by simp [a, b]] at h1
    rw [show a.segs = s.segs by simp [a]] at h2
    exact h1.trans h2
  have rA : c.read16 s.segs.ss (s.regs.sp - 2) = s.flags.word := by
    have h1 := b.push16_read16_other s.ip (s.regs.sp - 2) (by rw [hb]; bv_omega)
      (by rw [hb]; bv_omega) (by rw [hb]; bv_omega) (by rw [hb]; bv_omega)
    have h2 := a.push16_read16_other s.segs.cs (s.regs.sp - 2) (by rw [State.push16_sp]; bv_omega)
      (by rw [State.push16_sp]; bv_omega) (by rw [State.push16_sp]; bv_omega)
      (by rw [State.push16_sp]; bv_omega)
    rw [show b.segs = s.segs by simp [a, b]] at h1
    rw [show a.segs = s.segs by simp [a]] at h2
    exact (h1.trans h2).trans (s.push16_word _ hw)
  have entry : ∀ i, i ≤ 3 → (entryAddress s n + i) % 2 ^ 20 = entryAddress s n + i :=
    fun i hi => Nat.mod_eq_of_lt (by omega)
  have at0 : entryAddress s n % 2 ^ 20 = entryAddress s n := entry 0 (by omega)
  have addr : vectorAddress c.master c.slave n = entryAddress s n := by
    rw [← vectorAddress_entry]; simp [a, b, c]
  refine ⟨?_, ?_, ?_, ?_, ?_, ?_, ?_, ?_⟩
  · cases k
    · have h := (pushes.trans (c.setIp_only (s.vector n .software).ip)).trans
        ((c.setIp (s.vector n .software).ip).setSreg_only .cs (s.vector n .software).segs.cs)
      refine h.mono ?_
      constructor <;> simp [Changes.join, cells]
    · have h := ((pushes.trans (c.mapFlags_only (fun f => { f with IF := false }) [.IF] fun j hj => by
          cases j <;> first | rfl | simp at hj)).trans
        (State.setIp_only _ (s.vector n .hardware).ip)).trans
        (State.setSreg_only _ .cs (s.vector n .hardware).segs.cs)
      refine h.mono ?_
      constructor <;> simp [Changes.join, cells]
  · have : (s.vector n k).regs = c.regs := by cases k <;> simp [State.vector, a, b, c]
    rw [this, State.push16_sp, hb, e2]
  · rw [toC, rA]
  · rw [toC, rB]
  · rw [toC, rC]
  · have : (s.vector n k).ip = c.readPhys16 (vectorAddress c.master c.slave n) := by
      cases k <;> simp [State.vector, State.setIp, State.setSreg, a, b, c]
    rw [this, addr, State.readPhys16, at0, entry 1 (by omega), mem]
  · have : (s.vector n k).segs.cs =
        c.readPhys16 ((vectorAddress c.master c.slave n + 2) % 2 ^ 20) := by
      cases k <;> simp [State.vector, State.setIp, State.setSreg, Segs.set, a, b, c]
    rw [this, addr, entry 2 (by omega), State.readPhys16, entry 2 (by omega), mem,
      show entryAddress s n + 2 + 1 = entryAddress s n + 3 from rfl, entry 3 (by omega)]
  · intro hk
    cases k
    · cases hk
    · simp [State.vector]

theorem State.vector_wf (s : State) (n : Nat) (k : VectorKind) (hw : s.mem.wf = true) :
    (s.vector n k).mem.wf = true := by
  have h : (s.vector n k).mem = (((s.push16 s.flags.word).push16 s.segs.cs).push16 s.ip).mem := by
    cases k <;> simp [State.vector]
  rw [h]
  exact State.push16_wf _ _ (State.push16_wf _ _ (State.push16_wf _ _ hw))

end Sys2Proof.Machine
end

