-- ==== Sys2Proof/Tests/Slice0.lean ====
section
/-! SUPPORT. The model's own tests: ill-formed terms, decoding of words written out from the spec, one
instruction on a small state (expected results from the examples and corner cases of the rules named
beside each), and for every statement with hypotheses a state that meets them. -/

namespace Sys2Proof.Tests

open Sys2Proof Sys2Proof.Machine

/-! ## Helpers -/

/-- The state after one instruction; `clocks` is set to 999 where it does not answer a next state, a
value no test expects. -/
def after (i : Instr) (s : State) : State :=
  match exec i s with
  | .next t => t
  | .fault _ => { State.reset with clocks := 999 }
  | .refused _ => { State.reset with clocks := 999 }

def st (r : Regs) : State := { State.reset with regs := r, segs := ⟨0, 0x1000, 0, 0⟩, ip := 0x0102 }

/-- AX, CX, DX, BX, SP, BP, SI, DI. -/
def zero : Regs := ⟨0, 0, 0, 0, 0x0200, 0, 0, 0⟩

def flag (k : Flag) (s : State) : State := { s with flags := s.flags.set k true }

def put (a : Nat) (bs : List Byte) (s : State) : State :=
  { s with mem := (bs.foldl (fun p b => (p.1 + 1, p.2.write p.1 b)) (a, s.mem)).2 }

def peek (s : State) (a : Nat) : List Byte := [s.mem.read a, s.mem.read (a + 1)]

/-- CF, PF, AF, ZF, SF, OF. -/
def arith (s : State) : List Bool :=
  [s.flags.CF, s.flags.PF, s.flags.AF, s.flags.ZF, s.flags.SF, s.flags.OF]

/-! ## Well-formedness: each check refuses an ill-formed term -/

theorem test_wf_no_bare_bp : MemRef.wf (.base0 .bp) = false := by decide
theorem test_wf_rm8 : Instr.wf (.mov (.rmR8 (.mem (.base0 .bp)) .al)) = false := by decide
theorem test_wf_rm16 : Instr.wf (.jmpInd (.mem (.base0 .bp))) = false := by decide
theorem test_wf_alu : Instr.wf (.add (.rmImmSx (.mem (.base0 .bp)) 1)) = false := by decide
theorem test_wf_test : Instr.wf (.test (.rmImm8 (.mem (.base0 .bp)) 1)) = false := by decide
theorem test_wf_inc : Instr.wf (.inc (.rm8 (.mem (.base0 .bp)))) = false := by decide
theorem test_wf_unary : Instr.wf (.mul (.rm16 (.mem (.base0 .bp)))) = false := by decide
theorem test_wf_shift : Instr.wf (.rol (.rm8 (.mem (.base0 .bp)) .cl)) = false := by decide
theorem test_wf_push : Instr.wf (.push (.rm (.mem (.base0 .bp)))) = false := by decide
theorem test_wf_no_pop_cs : Instr.wf (.pop (.sreg .cs)) = false := by decide
theorem test_wf_pop : Instr.wf (.pop (.rm 0 (.mem (.base0 .bp)))) = false := by decide
theorem test_wf_mov : Instr.wf (.mov (.sregRm 0 .ds (.mem (.base0 .bp)))) = false := by decide
theorem test_wf_xchg_ax : Instr.wf (.xchg (.axR .ax)) = false := by decide
theorem test_wf_memory_only : Instr.wf (.lea .ax (.base0 .bp)) = false := by decide
theorem test_wf_esc : Instr.wf (.esc 0 0 (.mem (.base0 .bp))) = false := by decide
theorem test_wf_undocumented : Instr.wf (.undocumented 0x90) = false := by decide
theorem test_wf_reserved : Instr.wf (.reserved 0xFF 0xF0) = false := by decide

/-! ## Decoding: words written out from the encoding tables (30_encoding.md R104 to R126) -/

-- ModRM bytes below are written mod reg rm in binary in the comment.
theorem test_decode_alu_block : decode [0x01, 0xD8] = .ok (.add (.rmR16 (.reg .ax) .bx), []) := by
  rfl -- 11 011 000
theorem test_decode_alu_reverse : decode [0x3A, 0x0C] = .ok (.cmp (.rRm8 .cl (.mem (.base0 .si))), []) := by
  rfl -- 00 001 100
theorem test_decode_g1 : decode [0x83, 0x6E, 0xFE, 0xFF] =
    .ok (.sub (.rmImmSx (.mem (.base8 .bp 0xFE)) 0xFF), []) := by rfl -- 01 101 110
theorem test_decode_or_adc : decode [0x0D, 0x34, 0x12] = .ok (.or (.axImm 0x1234), []) ∧
    decode [0x14, 0x00] = .ok (.adc (.alImm 0), []) := ⟨rfl, rfl⟩
theorem test_decode_sbb_and_xor : decode [0x1C, 0x00] = .ok (.sbb (.alImm 0), []) ∧
    decode [0x24, 0x0F] = .ok (.and (.alImm 0x0F), []) ∧
    decode [0x31, 0xC0] = .ok (.xor (.rmR16 (.reg .ax) .ax), []) := ⟨rfl, rfl, rfl⟩
theorem test_decode_test : decode [0xF6, 0x06, 0x00, 0x20, 0x01] =
    .ok (.test (.rmImm8 (.mem (.direct 0x2000)) 1), []) := by rfl -- 00 000 110
theorem test_decode_incdec : decode [0x41] = .ok (.inc (.reg .cx), []) ∧
    decode [0xFE, 0xC8] = .ok (.dec (.rm8 (.reg .al)), []) := ⟨rfl, rfl⟩ -- 11 001 000
theorem test_decode_g3 : decode [0xF6, 0xD0] = .ok (.not (.rm8 (.reg .al)), []) ∧
    decode [0xF7, 0xD8] = .ok (.neg (.rm16 (.reg .ax)), []) ∧
    decode [0xF6, 0xEB] = .ok (.imul (.rm8 (.reg .bl)), []) ∧
    decode [0xF6, 0xF3] = .ok (.div (.rm8 (.reg .bl)), []) ∧
    decode [0xF6, 0xFB] = .ok (.idiv (.rm8 (.reg .bl)), []) := ⟨rfl, rfl, rfl, rfl, rfl⟩
theorem test_decode_adjust : decode [0x27] = .ok (.daa, []) ∧ decode [0x2F] = .ok (.das, []) ∧
    decode [0x37] = .ok (.aaa, []) ∧ decode [0x3F] = .ok (.aas, []) := ⟨rfl, rfl, rfl, rfl⟩
theorem test_decode_g2 : decode [0xD0, 0xC8] = .ok (.ror (.rm8 (.reg .al) .one), []) ∧
    decode [0xD3, 0xD3] = .ok (.rcl (.rm16 (.reg .bx) .cl), []) ∧
    decode [0xC0, 0x5F, 0x04, 0x09] = .ok (.rcr (.rm8 (.mem (.base8 .bx 4)) (.imm 9)), []) ∧
    decode [0xD1, 0xF8] = .ok (.sar (.rm16 (.reg .ax) .one), []) := ⟨rfl, rfl, rfl, rfl⟩
theorem test_decode_shl_rol : decode [0xD3, 0xE0] = .ok (.shl (.rm16 (.reg .ax) .cl), []) ∧
    decode [0xD0, 0xC0] = .ok (.rol (.rm8 (.reg .al) .one), []) := ⟨rfl, rfl⟩
theorem test_decode_mov : decode [0x8B, 0x47, 0x04] = .ok (.mov (.rRm16 .ax (.mem (.base8 .bx 4))), []) ∧
    decode [0x8C, 0xE0] = .ok (.mov (.rmSreg 1 (.reg .ax) .es), []) ∧
    decode [0x8E, 0xD8] = .ok (.mov (.sregRm 0 .ds (.reg .ax)), []) ∧
    decode [0xA3, 0x00, 0x20] = .ok (.mov (.moffsAx 0x2000), []) := ⟨rfl, rfl, rfl, rfl⟩
theorem test_decode_xchg_nop : decode [0x93] = .ok (.xchg (.axR .bx), []) ∧
    decode [0x90] = .ok (.nop, []) := ⟨rfl, rfl⟩
theorem test_decode_push_pop : decode [0x1E] = .ok (.push (.sreg .ds), []) ∧
    decode [0x8F, 0x06, 0x00, 0x20] = .ok (.pop (.rm 0 (.mem (.direct 0x2000))), []) ∧
    decode [0x9C] = .ok (.pushf, []) ∧ decode [0x9D] = .ok (.popf, []) := ⟨rfl, rfl, rfl, rfl⟩
theorem test_decode_flag_byte : decode [0x9F] = .ok (.lahf, []) ∧ decode [0x9E] = .ok (.sahf, []) ∧
    decode [0xD7] = .ok (.xlat, []) ∧ decode [0x98] = .ok (.cbw, []) ∧
    decode [0x99] = .ok (.cwd, []) := ⟨rfl, rfl, rfl, rfl, rfl⟩
theorem test_decode_loads : decode [0x8D, 0x80, 0xFF, 0x7F] = .ok (.lea .ax (.base16 .bxsi 0x7FFF), []) ∧
    decode [0xC4, 0x3F] = .ok (.les .di (.base0 .bx), []) := ⟨rfl, rfl⟩ -- 10 000 000, 00 111 111
theorem test_decode_jumps : decode [0xEB, 0x05] = .ok (.jmp (.rel8 5), []) ∧
    decode [0xE9, 0xFD, 0xFF] = .ok (.jmp (.rel16 0xFFFD), []) ∧
    decode [0xEA, 0x00, 0x01, 0x00, 0xF0] = .ok (.jmpFar 0x0100 0xF000, []) ∧
    decode [0xFF, 0xE3] = .ok (.jmpInd (.reg .bx), []) ∧
    decode [0xFF, 0x2F] = .ok (.jmpFarInd (.base0 .bx), []) := ⟨rfl, rfl, rfl, rfl, rfl⟩
theorem test_decode_jcc : (List.range 16).map (fun n => (decode [BitVec.ofNat 8 (0x70 + n), 5]).toOption) =
    [.jo 5, .jno 5, .jb 5, .jnb 5, .jz 5, .jnz 5, .jbe 5, .ja 5, .js 5, .jns 5, .jp 5, .jnp 5,
      .jl 5, .jge 5, .jle 5, .jg 5].map fun i => some (i, []) := by decide
theorem test_decode_loops : decode [0xE0, 1] = .ok (.loopnz 1, []) ∧ decode [0xE1, 1] = .ok (.loopz 1, []) ∧
    decode [0xE2, 1] = .ok (.loop 1, []) ∧ decode [0xE3, 1] = .ok (.jcxz 1, []) := ⟨rfl, rfl, rfl, rfl⟩
theorem test_decode_calls : decode [0xE8, 0x0D, 0x00] = .ok (.call 0x000D, []) ∧
    decode [0xFF, 0xD3] = .ok (.callInd (.reg .bx), []) ∧
    decode [0xFF, 0x1F] = .ok (.callFarInd (.base0 .bx), []) := ⟨rfl, rfl, rfl⟩
theorem test_decode_returns : decode [0xC2, 0x04, 0x00] = .ok (.ret (.imm 4), []) ∧
    decode [0xC3] = .ok (.ret .plain, []) ∧ decode [0xCA, 0x02, 0x00] = .ok (.retf (.imm 2), []) ∧
    decode [0xCB] = .ok (.retf .plain, []) := ⟨rfl, rfl, rfl, rfl⟩
theorem test_decode_strings :
    [0xA4, 0xA5, 0xA6, 0xA7, 0xAA, 0xAB, 0xAC, 0xAD, 0xAE, 0xAF].map (fun b => (decode [b]).toOption) =
    [.movsb, .movsw, .cmpsb, .cmpsw, .stosb, .stosw, .lodsb, .lodsw, .scasb, .scasw].map
      fun i => some (i, []) := by decide
theorem test_decode_system :
    [0xCC, 0xCF, 0xF4, 0xF8, 0xF9, 0xF5, 0xFC, 0xFD, 0xFA, 0xFB, 0x9B].map
      (fun b => (decode [b]).toOption) =
    [.int3, .iret, .hlt, .clc, .stc, .cmc, .cld, .std, .cli, .sti, .wait].map
      fun i => some (i, []) := by decide
theorem test_decode_esc : decode [0xD9, 0x06, 0x00, 0x20] =
    .ok (.esc 1 0 (.mem (.direct 0x2000)), []) := by rfl
theorem test_decode_ports : decode [0xEC] = .ok (.inPort .byteDx, []) ∧
    decode [0xE7, 0xF2] = .ok (.outPort (.wordImm 0xF2), []) := ⟨rfl, rfl⟩
theorem test_decode_prefixes :
    [0x26, 0x2E, 0x36, 0x3E, 0xF0, 0xF2, 0xF3].map (fun b => (decode [b]).toOption) =
    [.prefixEs, .prefixCs, .prefixSs, .prefixDs, .prefixLock, .prefixRepne, .prefixRep].map
      fun i => some (i, []) := by decide
theorem test_decode_refused : decode [0x0F, 0x05] = .ok (.escape0F, [0x05]) ∧
    decode [0xCE] = .ok (.into, []) ∧ decode [0xD4, 0x0A] = .ok (.aam, [0x0A]) ∧
    decode [0xD5, 0x0A] = .ok (.aad, [0x0A]) ∧ decode [0x6F] = .ok (.undocumented 0x6F, []) ∧
    decode [0xD2, 0xF0] = .ok (.reserved 0xD2 0xF0, []) ∧
    decode [0x8D, 0xC1] = .ok (.leaReg 0 1, []) ∧ decode [0xC4, 0xC1] = .ok (.lesReg 0 1, []) ∧
    decode [0xC5, 0xC1] = .ok (.ldsReg 0 1, []) ∧ decode [0xFF, 0xD9] = .ok (.callFarReg 1, []) ∧
    decode [0xFF, 0xE9] = .ok (.jmpFarReg 1, []) := ⟨rfl, rfl, rfl, rfl, rfl, rfl, rfl, rfl, rfl, rfl, rfl⟩
theorem test_decode_truncated : decode [0xB8, 0x34] = .error .truncated := by rfl
theorem test_table_word : decodeTableWord 16 0xF7E3 = some (.mul (.rm16 (.reg .bx))) ∧
    decodeTableWord 16 0x9000 = some .nop := ⟨rfl, rfl⟩

/-! ## One instruction (the rule whose example or corner case gives the values) -/

theorem test_add : -- R230: 7F + 01
    (after (.add (.alImm 1)) (st { zero with ax := 0x007F })).regs.ax = 0x0080 ∧
    arith (after (.add (.alImm 1)) (st { zero with ax := 0x007F })) =
      [false, false, true, false, true, true] := by decide
theorem test_or : -- R231
    (after (.or (.alImm 0x80)) (st { zero with ax := 1 })).regs.ax = 0x0081 ∧
    arith (after (.or (.alImm 0x80)) (st { zero with ax := 1 })) =
      [false, true, false, false, true, false] := by decide
theorem test_adc : -- R232: FF + 00 + carry
    arith (after (.adc (.alImm 0)) (flag .CF (st { zero with ax := 0xFF }))) =
      [true, true, true, true, false, false] := by decide
theorem test_sbb : -- R233
    (after (.sbb (.alImm 0)) (flag .CF (st zero))).regs.ax = 0x00FF ∧
    arith (after (.sbb (.alImm 0)) (flag .CF (st zero))) =
      [true, true, true, false, true, false] := by decide
theorem test_and : -- R234
    arith (after (.and (.alImm 0x0F)) (st { zero with ax := 0xF0 })) =
      [false, true, false, true, false, false] := by decide
theorem test_sub : -- R235: 8000 - 0001
    (after (.sub (.axImm 1)) (st { zero with ax := 0x8000 })).regs.ax = 0x7FFF ∧
    arith (after (.sub (.axImm 1)) (st { zero with ax := 0x8000 })) =
      [false, true, true, false, false, true] := by decide
theorem test_xor : -- R236
    (after (.xor (.rmR16 (.reg .ax) .ax)) (st { zero with ax := 0x1234 })).regs.ax = 0 := by decide
theorem test_cmp : -- R237
    (after (.cmp (.alImm 0x10)) (st { zero with ax := 0x0F })).regs.ax = 0x000F ∧
    arith (after (.cmp (.alImm 0x10)) (st { zero with ax := 0x0F })) =
      [true, true, false, false, true, false] := by decide
theorem test_test : -- R238
    (after (.test (.alImm 1)) (st { zero with ax := 2 })).flags.ZF = true := by decide
theorem test_inc : -- R240, CF kept
    (after (.inc (.reg .ax)) (flag .CF (st { zero with ax := 0x7FFF }))).regs.ax = 0x8000 ∧
    arith (after (.inc (.reg .ax)) (flag .CF (st { zero with ax := 0x7FFF }))) =
      [true, true, true, false, true, true] := by decide
theorem test_dec : -- R241
    (after (.dec (.reg .ax)) (st { zero with ax := 0x8000 })).regs.ax = 0x7FFF ∧
    arith (after (.dec (.reg .ax)) (st { zero with ax := 0x8000 })) =
      [false, true, true, false, false, true] := by decide
theorem test_neg : -- R242
    (after (.neg (.rm16 (.reg .ax))) (st { zero with ax := 1 })).regs.ax = 0xFFFF ∧
    arith (after (.neg (.rm16 (.reg .ax))) (st { zero with ax := 1 })) =
      [true, true, true, false, true, false] := by decide
theorem test_not : -- R243, other half kept
    (after (.not (.rm8 (.reg .al))) (st { zero with ax := 0x120F })).regs.ax = 0x12F0 := by decide
theorem test_mul : -- R310
    (after (.mul (.rm16 (.reg .bx))) (st { zero with ax := 0x1000, bx := 0x0010 })).regs.dx = 1 ∧
    arith (after (.mul (.rm8 (.reg .bl))) (st { zero with ax := 0x10, bx := 0x10 })) =
      [true, true, false, true, false, false] := by decide
theorem test_imul : -- R311
    (after (.imul (.rm8 (.reg .bl))) (st { zero with ax := 0xFF, bx := 2 })).regs.ax = 0xFFFE ∧
    arith (after (.imul (.rm8 (.reg .bl))) (st { zero with ax := 0xFF, bx := 2 })) =
      [true, false, false, false, true, false] := by decide
theorem test_div : -- R312
    (after (.div (.rm8 (.reg .bl))) (st { zero with ax := 0x64, bx := 7 })).regs.ax = 0x020E := by
  decide
theorem test_div_zero : -- R312, R314: AX kept, the following ip pushed
    (after (.div (.rm8 (.reg .bl))) (put 0 [0x00, 0x10, 0x00, 0xF0] (st { zero with ax := 5 }))).regs.ax = 5 ∧
    (after (.div (.rm8 (.reg .bl))) (put 0 [0x00, 0x10, 0x00, 0xF0] (st { zero with ax := 5 }))).ip = 0x1000 ∧
    peek (after (.div (.rm8 (.reg .bl))) (st { zero with ax := 5 })) 0x1FA = [0x02, 0x01] := by
  decide
theorem test_idiv : -- R313: -7 / 2 and the most negative quotient
    (after (.idiv (.rm8 (.reg .bl))) (st { zero with ax := 0xFFF9, bx := 2 })).regs.ax = 0xFFFD ∧
    (after (.idiv (.rm8 (.reg .bl))) (st { zero with ax := 0x0080, bx := 0xFF })).regs.ax = 0x0080 := by
  decide
theorem test_daa : -- R320
    (after .daa (st { zero with ax := 0x7D })).regs.ax = 0x83 ∧
    (after .daa (st { zero with ax := 0x9A })).regs.ax = 0x00 := by decide
theorem test_das : -- R321: the borrow of the first step
    (after .das (flag .AF (st { zero with ax := 0x03 }))).regs.ax = 0xFD ∧
    (after .das (flag .AF (st { zero with ax := 0x03 }))).flags.CF = true := by decide
theorem test_aaa : (after .aaa (st { zero with ax := 0x00FA })).regs.ax = 0x0100 := by decide -- R322
theorem test_aas : -- R323
    (after .aas (flag .AF (st { zero with ax := 0x02FF }))).regs.ax = 0x0109 := by decide
theorem test_rol : -- R282
    (after (.rol (.rm8 (.reg .al) .one)) (st { zero with ax := 0x81 })).regs.ax = 0x03 ∧
    (after (.rol (.rm8 (.reg .al) .one)) (st { zero with ax := 0x81 })).flags.OF = true := by decide
theorem test_ror : -- R283
    (after (.ror (.rm8 (.reg .al) .one)) (st { zero with ax := 0x01 })).regs.ax = 0x80 := by decide
theorem test_rcl : -- R284
    (after (.rcl (.rm8 (.reg .al) .one)) (flag .CF (st { zero with ax := 0x40 }))).regs.ax = 0x81 ∧
    (after (.rcl (.rm8 (.reg .al) (.imm 9))) (flag .CF (st { zero with ax := 0x40 }))).regs.ax = 0x40 := by
  decide
theorem test_rcr : -- R285
    (after (.rcr (.rm8 (.reg .al) .one)) (flag .CF (st { zero with ax := 0x01 }))).regs.ax = 0x80 ∧
    (after (.rcr (.rm8 (.reg .al) .one)) (flag .CF (st { zero with ax := 0x01 }))).flags.OF = true := by
  decide
theorem test_shl : -- R286
    (after (.shl (.rm16 (.reg .ax) .cl)) (st { zero with ax := 0x1234, cx := 4 })).regs.ax = 0x2340 ∧
    (after (.shl (.rm16 (.reg .ax) .cl)) (st { zero with ax := 0x1234, cx := 4 })).flags.CF = true := by
  decide
theorem test_shr : -- R287
    (after (.shr (.rm16 (.reg .ax) (.imm 4))) (st { zero with ax := 0x1234 })).regs.ax = 0x0123 := by
  decide
theorem test_sar : -- R288
    (after (.sar (.rm8 (.reg .al) .one)) (st { zero with ax := 0x81 })).regs.ax = 0xC0 := by decide
theorem test_mov_memory : -- R171: bytes 34 12 at DS:2000
    peek (after (.mov (.rmImm16 0 (.mem (.direct 0x2000)) 0x1234)) (st zero)) 0x2000 = [0x34, 0x12] := by
  decide
theorem test_mov_half : -- R172
    (after (.mov (.r8Imm .ah 0x56)) (st { zero with ax := 0x1234 })).regs.ax = 0x5634 := by decide
theorem test_xchg : -- R176, with the register that addresses the memory operand
    (after (.xchg (.rmR16 (.mem (.base0 .bx)) .bx)) (put 0x300 [0xEF, 0xBE] (st { zero with bx := 0x300 }))).regs.bx
      = 0xBEEF ∧
    peek (after (.xchg (.rmR16 (.mem (.base0 .bx)) .bx)) (put 0x300 [0xEF, 0xBE] (st { zero with bx := 0x300 })))
      0x300 = [0x00, 0x03] := by decide
theorem test_push_sp : -- R180: the value before SP changes
    peek (after (.push (.reg .sp)) (st { zero with sp := 0x100 })) 0xFE = [0x00, 0x01] ∧
    (after (.push (.reg .sp)) (st { zero with sp := 0x100 })).regs.sp = 0xFE := by decide
theorem test_pop_sp : -- R183
    (after (.pop (.reg .sp)) (put 0x200 [0x34, 0x12] (st zero))).regs.sp = 0x1234 := by decide
theorem test_pushf : -- R186
    peek (after .pushf (flag .CF (flag .ZF (flag .IF (st zero))))) 0x1FE = [0x43, 0xF2] := by decide
theorem test_popf : -- R187: a following read is FFD7
    (after .popf (put 0x200 [0xFF, 0xFF] (st zero))).flags.word = 0xFFD7 := by decide
theorem test_lahf : (after .lahf (flag .SF (flag .CF (st zero)))).reg8 .ah = 0x83 := by decide -- R188
theorem test_sahf : -- R190
    arith (after .sahf (st { zero with ax := 0xFF00 })) = [true, true, true, true, true, false] := by
  decide
theorem test_xlat : -- R189
    (after .xlat (put 0x205 [0x41] (st { zero with ax := 5, bx := 0x200 }))).regs.ax = 0x41 := by decide
theorem test_lea : -- R191: 16-bit wrap
    (after (.lea .ax (.base16 .bxsi 0x7FFF)) (st { zero with bx := 0x8000, si := 0x8000 })).regs.ax
      = 0x7FFF := by decide
theorem test_lds : -- R192, the destination addresses the operand
    (after (.lds .bx (.base0 .bx)) (put 0x300 [0x34, 0x12, 0x00, 0x30] (st { zero with bx := 0x300 }))).regs.bx
      = 0x1234 ∧
    (after (.lds .bx (.base0 .bx)) (put 0x300 [0x34, 0x12, 0x00, 0x30] (st { zero with bx := 0x300 }))).segs.ds
      = 0x3000 := by decide
theorem test_les : -- R193
    (after (.les .di (.base0 .bx)) (put 0x300 [0x00, 0x01, 0x00, 0xB8] (st { zero with bx := 0x300 }))).segs.es
      = 0xB800 := by decide
theorem test_cbw : (after .cbw (st { zero with ax := 0x80 })).regs.ax = 0xFF80 := by decide -- R194
theorem test_cwd : (after .cwd (st { zero with ax := 0x8000 })).regs.dx = 0xFFFF := by decide -- R195
theorem test_jmp_far : -- R354
    (after (.jmpFar 0x0100 0xF000) (st zero)).segs.cs = 0xF000 ∧
    (after (.jmpFar 0x0100 0xF000) (st zero)).ip = 0x0100 := by decide
theorem test_jmp_short_wrap : -- R351
    (after (.jmp (.rel8 0x80)) (st zero)).ip = 0x0082 := by decide
theorem test_jcc : -- R356, after CMP AL, 10 with AL = 0F
    let s := after (.cmp (.alImm 0x10)) (st { zero with ax := 0x0F })
    ([.jb 2, .jl 2, .jbe 2, .jle 2, .js 2, .jnz 2].all fun i => (after i s).ip == 0x0104) = true ∧
    ([.ja 2, .jg 2, .jnb 2, .jge 2, .jz 2, .jo 2, .jnp 2].all fun i => (after i s).ip == 0x0102) = true := by
  decide
theorem test_loop : -- R357: CX = 0 becomes FFFF and jumps
    (after (.loop 0xFE) (st zero)).regs.cx = 0xFFFF ∧ (after (.loop 0xFE) (st zero)).ip = 0x0100 := by
  decide
theorem test_loopz_loopnz : -- R358, R359 with CX = 5, ZF = 0
    (after (.loopz 0xFC) (st { zero with cx := 5 })).ip = 0x0102 ∧
    (after (.loopnz 0xFC) (st { zero with cx := 5 })).ip = 0x00FE := by decide
theorem test_jcxz : (after (.jcxz 0x10) (st zero)).ip = 0x0112 := by decide -- R360
theorem test_call : -- R361
    (after (.call 0x000D) (st zero)).ip = 0x010F ∧
    peek (after (.call 0x000D) (st zero)) 0x1FE = [0x02, 0x01] := by decide
theorem test_call_sp : -- R362: CALL SP goes to the old SP
    (after (.callInd (.reg .sp)) (st zero)).ip = 0x0200 := by decide
theorem test_call_far : -- R363
    peek (after (.callFar 0x0100 0xF000) (st zero)) 0x1FE = [0x00, 0x10] ∧
    peek (after (.callFar 0x0100 0xF000) (st zero)) 0x1FC = [0x02, 0x01] := by decide
theorem test_ret : -- R366
    (after (.ret (.imm 4)) (st { zero with sp := 0x1FA })).regs.sp = 0x200 := by decide
theorem test_retf : -- R367
    (after (.retf .plain) (put 0x200 [0x05, 0x01, 0x00, 0x30] (st zero))).segs.cs = 0x3000 ∧
    (after (.retf .plain) (put 0x200 [0x05, 0x01, 0x00, 0x30] (st zero))).ip = 0x0105 := by decide
theorem test_rep_movsb : -- R392, the document's example
    let s := put 0x400 [1, 2, 3, 4] { st { zero with cx := 3, si := 0x400, di := 0x500 } with rep := .rep }
    (after .movsb s).regs.cx = 0 ∧ (after .movsb s).regs.si = 0x403 ∧
    peek (after .movsb s) 0x502 = [3, 0] := by decide
theorem test_repe_cmpsb : -- R393
    let s := put 0x400 [0x41, 0x42, 0x43] (put 0x500 [0x41, 0x42, 0x58]
      { st { zero with cx := 5, si := 0x400, di := 0x500 } with rep := .rep })
    (after .cmpsb s).regs.cx = 2 ∧ (after .cmpsb s).regs.di = 0x503 ∧
    (after .cmpsb s).flags.ZF = false ∧ (after .cmpsb s).flags.CF = true := by decide
theorem test_cmpsw_movsw_down : -- R390: DF counts down by the element size
    (after .cmpsw (flag .DF (st zero))).regs.si = 0xFFFE ∧
    (after .movsw (flag .DF (st zero))).regs.di = 0xFFFE := by decide
theorem test_stosw : -- R394
    peek (after .stosw (st { zero with ax := 0x0720 })) 0 = [0x20, 0x07] ∧
    (after .stosb (st { zero with ax := 0x0720 })).regs.di = 1 := by decide
theorem test_lodsb : -- R395
    (after .lodsb (put 0x10 [0x41] (st { zero with si := 0x10 }))).regs.ax = 0x41 ∧
    (after .lodsw (flag .DF (st { zero with si := 0x10 }))).regs.si = 0x0E := by decide
theorem test_repne_scasb : -- R396
    let s := put 0x100 [0x48, 0x69, 0x00] { st { zero with cx := 0xFFFF, di := 0x100 } with rep := .repne }
    (after .scasb s).regs.cx = 0xFFFC ∧ (after .scasb s).regs.di = 0x103 := by decide +kernel
theorem test_scasw : -- R396
    (after .scasw (st { zero with ax := 1 })).flags.ZF = false := by decide
theorem test_int : -- R420, the rule's example
    let s := put 0x84 [0x00, 0x10, 0x00, 0xF0] (flag .IF (st zero))
    (after (.int 0x21) s).segs.cs = 0xF000 ∧ (after (.int 0x21) s).ip = 0x1000 ∧
    (after (.int 0x21) s).flags.IF = true ∧ peek (after (.int 0x21) s) 0x1FE = [0x02, 0xF2] := by decide
theorem test_int_base : -- R420: base 40, INT 5 reads the entry of vector 45
    let s := put 0x114 [0x78, 0x56] { st zero with master := { Pic.reset with icw2 := 0x40 } }
    (after (.int 5) s).ip = 0x5678 ∧ (after .int3 s).ip = 0 := by decide
theorem test_iret : -- R424
    let s := put 0x1FA [0x02, 0x01, 0x00, 0x30, 0x02, 0xF2] (st { zero with sp := 0x1FA })
    (after .iret s).ip = 0x0102 ∧ (after .iret s).segs.cs = 0x3000 ∧ (after .iret s).flags.IF = true ∧
    (after .iret s).regs.sp = 0x200 := by decide
theorem test_hlt : (after .hlt (st zero)).ip = 0x0101 := by decide -- R426
theorem test_flag_control : -- R427 to R434
    (after .stc (st zero)).flags.CF = true ∧ (after .cmc (flag .CF (st zero))).flags.CF = false ∧
    (after .clc (flag .CF (st zero))).flags.CF = false ∧ (after .std (st zero)).flags.DF = true ∧
    (after .cld (flag .DF (st zero))).flags.DF = false ∧ (after .sti (st zero)).flags.IF = true ∧
    (after .cli (flag .IF (st zero))).flags.IF = false := by decide
theorem test_nothing : -- R432, R435, R437
    exec (.esc 1 0 (.mem (.direct 0))) (st zero) = .next (st zero) ∧
    exec .wait (st zero) = .next (st zero) ∧ exec .nop (st zero) = .next (st zero) := ⟨rfl, rfl, rfl⟩
theorem test_in : -- R465: the master's mask at the data port; word access, R541
    let s := { st zero with master := { Pic.reset with imr := 0xFB } }
    (after (.inPort (.byteImm 0xF3)) s).regs.ax = 0x00FB ∧
    (after (.inPort (.wordImm 0xF2)) s).regs.ax = 0xFB00 ∧
    (after (.inPort (.wordImm 0xF3)) s).regs.ax = 0xFFFB := by decide
theorem test_out : -- R467, R468: mask, then end of interrupt of the lowest line in service
    let s := { st { zero with ax := 0x20, dx := 0xF2 } with
      master := { Pic.reset with initStep := .ready, isr := 0x0C } }
    (after (.outPort .byteDx) s).master.isr = 0x08 ∧
    (after (.outPort (.byteImm 0xF3)) s).master.imr = 0x20 := by decide
theorem test_unmapped_port : exec (.inPort (.byteImm 0x10)) (st zero) = .fault (.portFault 0x10 false) := by
  rfl
theorem test_lock_cancels_rep : -- R436: F3 F0 A4 is a single MOVSB
    (after .prefixLock (after .prefixRep (st zero))).rep = .lock := by decide
theorem test_override : -- R76: BP addresses through SS unless overridden
    (after (.mov (.rRm8 .al (.mem (.base8 .bp 0)))) (put 0x10 [0x77] { st zero with segs := ⟨0, 0, 1, 9⟩ })).regs.ax
      = 0x77 ∧
    (after .prefixEs (st zero)).segOverride = some .es := by decide

/-! ## A step -/

theorem test_step_first : -- R600, R601: the first instruction is fetched at FFFF:0
    (match step (State.reset.withFetchWord 16 0xF900) with
      | .next t => t.flags.CF && t.ip == 1
      | _ => false) = true := by decide
theorem test_vector_size : -- R505, R545: size 4 for lines 0 to 15, ConfigFault above
    (match State.reset.getVectorSize 7, State.reset.getVectorSize 15, State.reset.getVectorSize 16 with
      | .ok a, .ok b, .error e => a == 4 && b == 4 && e == .configLine 16
      | _, _, _ => false) = true := by decide
theorem test_step_interrupt : -- R502, R504: with IF set line 2 vectors, IF is cleared
    (match step { put 0x108 [0x00, 0x10, 0x00, 0xF0] (flag .IF (st zero)) with
        master := { Pic.reset with initStep := .ready, irr := 0x24, icw2 := 0x40 } } with
      | .next t => t.ip == 0x1000 && t.segs.cs == 0xF000 && !t.flags.IF && t.master.isr == 0x04
          && t.master.irr == 0x20
      | _ => false) = true := by decide +kernel
theorem test_step_refused :
    (match step (State.reset.withFetchWord 16 0xCE00) with
      | .fault f => f == .decodeFault 0xCE none
      | _ => false) = true := by decide +kernel
theorem test_arbiter : -- R524: line 1 preempts line 2 in service, line 3 does not
    getNextInterrupt { Pic.reset with initStep := .ready, isr := 0x04, irr := 0x0A } Pic.reset = some 1 ∧
    getNextInterrupt { Pic.reset with initStep := .ready, isr := 0x04, irr := 0x08 } Pic.reset = none := by
  decide

/-! ## Witnesses: states and operands that meet the hypotheses of the statements -/

/-- For AddAdc, SubSbb, OrAndXor, IncDec, NegNot, FlagsReportOrder, MovMoves, XchgSwaps, PopPopf,
DivideErrors' outer hypothesis, WordAccess, StackWords, SoftwareInterrupts, and the outer hypothesis of
PushPushf, Calls: a state with canonical memory (not empty). -/
theorem witness_canonical_memory : (put 0x100 [1, 0, 2] (st zero)).mem.wf = true := by decide

theorem witness_DecodeOfEncode : Instr.wf (.add (.rmImm16 (.mem (.base16 .bpdi 0x8000)) 0xFFFF)) = true := by
  decide
theorem witness_EveryByteStringDecodes : 6 ≤ ([0x81, 0x86, 0, 0x80, 0xFF, 0xFF] : List Byte).length := by
  decide
/-- One opcode under each clause, the least and the greatest refused one, and the neighbours of the
reserved slots. -/
theorem witness_RefusedEncodings : 4 ≤ ([0, 0, 0, 0] : List Byte).length ∧
    refusedOp 0x0F = true ∧ refusedOp 0xF1 = true ∧ refusedOp 0x70 = false ∧ refusedOp 0x5F = false ∧
    refusedModRm 0xFE 0x10 = true ∧ refusedModRm 0xFE 0x08 = false ∧ refusedModRm 0xFF 0xF8 = true ∧
    refusedModRm 0xFF 0xD8 = true ∧ refusedModRm 0xFF 0x98 = false ∧ refusedModRm 0x8D 0xC0 = true ∧
    refusedModRm 0x8D 0xBF = false ∧
    (∀ op m : Byte, refusedOp op = true → refusedModRm op m = false) := by
  refine ⟨by decide, by decide, by decide, by decide, by decide, by decide, by decide, by decide,
    by decide, by decide, by decide, by decide, ?_⟩
  decide +kernel
theorem witness_StepRunsDecodedInstruction :
    NoInterrupt (State.reset.withFetchWord 16 0xB812) ∧
    decode (State.reset.withFetchWord 16 0xB812).window = .ok (.mov (.r16Imm .ax 0x0012), [0, 0, 0]) ∧
    Instr.isPrefix (.mov (.r16Imm .ax 0x0012)) = false := ⟨.inl rfl, rfl, rfl⟩
theorem witness_StepRunsPrefixedBytes :
    let s := put 0x10102 [0xF3, 0x2E, 0xA4] (st zero)
    NoInterrupt s ∧ (∀ p ∈ [Instr.prefixRep, .prefixCs], p.isPrefix = true) ∧
    Instr.isPrefix .movsb = false ∧ Instr.wf .movsb = true ∧
    ([Instr.prefixRep, .prefixCs].flatMap encode ++ encode .movsb).length ≤ 2 ^ 16 ∧
    (∀ k b, ([Instr.prefixRep, .prefixCs].flatMap encode ++ encode .movsb)[k]? = some b →
      s.codeByte k = b) := by
  refine ⟨.inl rfl, by decide, rfl, rfl, by decide, ?_⟩
  intro k b h
  match k with
  | 0 => simp only [encode, List.flatMap_cons, List.flatMap_nil] at h; cases h; decide
  | 1 => simp only [encode, List.flatMap_cons, List.flatMap_nil] at h; cases h; decide
  | 2 => simp only [encode, List.flatMap_cons, List.flatMap_nil] at h; cases h; decide
  | k + 3 => simp [encode] at h
theorem witness_StepTakesInterrupt :
    let s := { flag .IF (st zero) with
      master := { Pic.reset with initStep := .ready, irr := 0x08, icw3 := 0x08 },
      slave := { Pic.reset with initStep := .ready, irr := 0x80 } }
    s.mem.wf = true ∧ s.flags.IF = true ∧ getNextInterrupt s.master s.slave = some 15 := by decide
theorem witness_StepKeepsInv : State.reset.Inv ∧ ∃ t, step State.reset = .next t := by
  refine ⟨?_, _, rfl⟩
  constructor <;> simp [State.reset, Pic.Inv, Pic.reset, portsFrom, Memory.wf, Memory.wfFrom]
theorem witness_EnvironmentKeepsInv : State.reset.Inv ∧
    (∃ t, State.reset.environ (.request 15) = .next t) ∧
    (∃ t, State.reset.attach (.external 0 true) [0x00, 0xFF] = .next t) :=
  ⟨witness_StepKeepsInv.1, ⟨_, rfl⟩, ⟨_, rfl⟩⟩
theorem witness_WhoWritesWhat : Instr.wf (.div (.rm8 (.reg .bl))) = true ∧
    ∃ t, exec (.div (.rm8 (.reg .bl))) (st zero) = .next t := ⟨rfl, _, rfl⟩
theorem witness_EffectiveAddress :
    ({ st zero with segOverride := some .es } : State).segOverride = some .es ∧
    (st zero).segOverride = none := ⟨rfl, rfl⟩
theorem witness_MemoryReadsBackWrites : Memory.wf [(0xFFFFF, 1)] = true ∧ 0xFFFFF < 2 ^ 20 ∧
    ∀ a, Memory.read a [(0xFFFFF, 1)] = Memory.read a (Memory.write 0xFFFFF 1 []) := by
  refine ⟨by decide, by decide, fun a => rfl⟩
theorem witness_ShiftByZero : (st zero).count (ShiftForm.op (.rm16 (.reg .ax) .cl)).2 = 0 ∧
    (st zero).count (ShiftForm.op (.rm8 (.reg .ah) (.imm 0))).2 = 0 := by decide
/-- For RotatesClosedForm, CarryRotatesClosedForm and ShiftsClosedForm: the least and the greatest
count, and a count by one. -/
theorem witness_ShiftCounts : (st zero).mem.wf = true ∧
    (st zero).count (ShiftForm.op (.rm8 (.reg .al) .one)).2 ≠ 0 ∧
    (st { zero with cx := 0xFF }).count (ShiftForm.op (.rm16 (.reg .cx) .cl)).2 ≠ 0 ∧
    (st zero).count (ShiftForm.op (.rm16 (.mem (.direct 0xFFFF)) (.imm 17))).2 ≠ 0 := by decide
theorem witness_MulImul :
    (Instr.mul (.rm8 (.reg .bl)) = .mul (.rm8 (.reg .bl)) ∧
      0xFE01 = ((st { zero with ax := 0xFF, bx := 0xFF }).reg8 .al).toNat *
        ((st { zero with ax := 0xFF, bx := 0xFF }).get8 (.ofRm (.reg .bl))).toNat) ∧
    0x4000 = (BitVec.ofInt 16 (((st { zero with ax := 0x80, bx := 0x80 }).reg8 .al).toInt *
      ((st { zero with ax := 0x80, bx := 0x80 }).get8 (.ofRm (.reg .bl))).toInt)).toNat ∧
    0x40000000 = (BitVec.ofInt 32 ((st { zero with ax := 0x8000 }).regs.ax.toInt *
      ((st { zero with ax := 0x8000 }).get16 (.ofRm (.reg .ax))).toInt)).toNat := by decide
/-- Each clause at the greatest quotient that fits, and the most negative one. -/
theorem witness_DivIdivComplete :
    (let s := st { zero with ax := 0x00FF, bx := 1 }
     (s.get8 (.ofRm (.reg .bl))).toNat ≠ 0 ∧
       s.regs.ax.toNat / (s.get8 (.ofRm (.reg .bl))).toNat < 2 ^ 8) ∧
    (let s := st { zero with ax := 0xFFFF, dx := 0, bx := 1 }
     (s.get16 (.ofRm (.reg .bx))).toNat ≠ 0 ∧
       (s.regs.dx.toNat * 2 ^ 16 + s.regs.ax.toNat) / (s.get16 (.ofRm (.reg .bx))).toNat < 2 ^ 16) ∧
    (let s := st { zero with ax := 0x0080, bx := 0xFF }
     (s.get8 (.ofRm (.reg .bl))).toInt ≠ 0 ∧
       -128 ≤ s.regs.ax.toInt.tdiv (s.get8 (.ofRm (.reg .bl))).toInt ∧
       s.regs.ax.toInt.tdiv (s.get8 (.ofRm (.reg .bl))).toInt ≤ 127) ∧
    (let s := st { zero with ax := 0x8000, dx := 0xFFFF, bx := 1 }
     (s.get16 (.ofRm (.reg .bx))).toInt ≠ 0 ∧
       -32768 ≤ (s.regs.dx ++ s.regs.ax : BitVec 32).toInt.tdiv (s.get16 (.ofRm (.reg .bx))).toInt ∧
       (s.regs.dx ++ s.regs.ax : BitVec 32).toInt.tdiv (s.get16 (.ofRm (.reg .bx))).toInt ≤ 32767) := by
  decide
/-- Each clause: a zero divisor, and the least quotient that does not fit. -/
theorem witness_DivideErrors :
    (st zero).mem.wf = true ∧ ((st zero).get8 (.ofRm (.reg .bl))).toNat = 0 ∧
    (let s := st { zero with ax := 0x0100, bx := 1 }
     2 ^ 8 ≤ s.regs.ax.toNat / (s.get8 (.ofRm (.reg .bl))).toNat) ∧
    (let s := st { zero with ax := 0xFF80, bx := 0xFF }
     127 < s.regs.ax.toInt.tdiv (s.get8 (.ofRm (.reg .bl))).toInt) ∧
    (let s := st { zero with ax := 0xFF7F, bx := 1 }
     s.regs.ax.toInt.tdiv (s.get8 (.ofRm (.reg .bl))).toInt < -128) ∧
    (let s := st { zero with dx := 1, bx := 1 }
     2 ^ 16 ≤ (s.regs.dx ++ s.regs.ax : BitVec 32).toNat / (s.get16 (.ofRm (.reg .bx))).toNat) ∧
    (let s := st { zero with dx := 0xFFFF, ax := 0x8000, bx := 0xFFFF }
     32767 < (s.regs.dx ++ s.regs.ax : BitVec 32).toInt.tdiv (s.get16 (.ofRm (.reg .bx))).toInt) ∧
    (let s := st { zero with dx := 0xFFFF, ax := 0x7FFF, bx := 1 }
     (s.regs.dx ++ s.regs.ax : BitVec 32).toInt.tdiv (s.get16 (.ofRm (.reg .bx))).toInt < -32768) := by
  decide
/-- DaaDas and AaaAas: the low digit 9 and 10, the byte 99 and 9A. -/
theorem witness_Adjusts : ¬ 9 < (0x09#8 &&& 0x0F).toNat ∧ 9 < (0x0A#8 &&& 0x0F).toNat ∧
    ¬ 0x99 < (0x99#8).toNat ∧ 0x99 < (0x9A#8).toNat := by decide
theorem witness_PushPushf : (st zero).mem.wf = true ∧
    (∃ f : PushForm, Instr.push (.reg .sp) = .push f ∧ (0x0200 : Word) = (st zero).get16 f.op) ∧
    (Instr.pushf = .pushf ∧ (0xF002 : Word) = (st zero).flags.word) :=
  ⟨by decide, ⟨.reg .sp, rfl, rfl⟩, rfl, by decide⟩
theorem witness_PopPopf : (st zero).mem.wf = true ∧ PopForm.op (.reg .ax) ≠ .reg .sp ∧
    PopForm.op (.rm 0 (.reg .sp)) = .reg .sp := by decide
theorem witness_Calls : (st zero).mem.wf = true ∧
    (∃ d, Instr.call 0xFF00 = .call d ∧ (0x0002 : Word) = (st zero).ip + d) ∧
    (∃ rm, Instr.callInd (.reg .sp) = .callInd rm ∧ (0x0200 : Word) = (st zero).get16 (.ofRm rm)) ∧
    (∃ m, Instr.callFarInd (.direct 0xFFFE) = .callFarInd m ∧
      (0 : Word) = (st zero).read16 ((st zero).eaSeg m) ((st zero).eaOff m) ∧
      (0 : Word) = (st zero).read16 ((st zero).eaSeg m) ((st zero).eaOff m + 2)) :=
  ⟨by decide, ⟨0xFF00, rfl, by decide⟩, ⟨.reg .sp, rfl, rfl⟩, ⟨.direct 0xFFFE, rfl, by decide, by decide⟩⟩
theorem witness_ReturnsPop : (RetForm.plain = .plain ∧ (0 : Word) = 0) ∧ RetForm.imm 0xFFFF = .imm 0xFFFF :=
  ⟨⟨rfl, rfl⟩, rfl⟩
theorem witness_ReturnsUndoCalls : (st zero).mem.wf = true ∧
    (∃ t, exec (.call 5) (st zero) = .next t ∧ t.mem = (after (.call 5) (st zero)).mem) ∧
    (∃ t, exec (.callFar 5 6) (st zero) = .next t) ∧ (∃ t, exec (.int 0xFF) (st zero) = .next t) :=
  ⟨by decide, ⟨_, rfl, rfl⟩, ⟨_, rfl⟩, ⟨_, rfl⟩⟩
/-- For StringMovesOnce and StringComparesOnce. -/
theorem witness_StringsOnce : (st zero).mem.wf = true ∧ (st zero).rep = .none ∧
    (after .prefixLock (st zero)).rep = .lock := by decide
theorem witness_RepeatLoop :
    (after .prefixRep (st zero)).rep = .rep ∧ (after .prefixRep (st zero)).regs.cx = 0 ∧
    (after .prefixRepne (st { zero with cx := 1 })).rep = .repne ∧
    (after .prefixRepne (st { zero with cx := 1 })).regs.cx ≠ 0 ∧
    Instr.scasw ∈ [Instr.movsb, .movsw, .cmpsb, .cmpsw, .stosb, .stosw, .lodsb, .lodsw, .scasb, .scasw] := by
  decide
/-- RepeatedBlocks: three bytes each way, source and destination adjacent, at the end of the segment. -/
theorem witness_RepeatedBlocks :
    let s := after .prefixRep (st { zero with cx := 3, si := 0xFFFD, di := 0 })
    s.mem.wf = true ∧ s.rep = .rep ∧
    ∀ j < s.regs.cx.toNat, ∀ k < s.regs.cx.toNat,
      phys (s.segOr .ds) (s.regs.si + BitVec.ofNat 16 j * 1) ≠
        phys s.segs.es (s.regs.di + BitVec.ofNat 16 k * 1) := by decide
/-- ControllerPorts: the command port, the data port and a foreign port of the master, and a byte and a
word form at its ports. -/
theorem witness_ControllerPorts :
    0xF2 = (Params.cmdPort State.reset.params .master).toNat ∧
    (¬ 0xF3 = (Params.cmdPort State.reset.params .master).toNat ∧
      0xF3 = (Params.dataPort State.reset.params .master).toNat) ∧
    (¬ 0xF4 = (Params.cmdPort State.reset.params .master).toNat ∧
      ¬ 0xF4 = (Params.dataPort State.reset.params .master).toNat) ∧
    State.reset.portDevice (State.reset.portNumber (.byteImm 0xF2)) = some (.pic .master) ∧
    PortForm.isByte (.byteImm 0xF2) = true ∧
    (st { zero with dx := 0xF1 }).portDevice ((st { zero with dx := 0xF1 }).portNumber .wordDx)
      = some (.pic .slave) ∧
    PortForm.isByte .wordDx = false := by decide
theorem witness_DevicePorts :
    let s : State := { State.reset with ports := [(0x00, .external 1 false), (0xFF, .external 2 true)] }
    s.portDevice (s.portNumber (.byteImm 0x00)) = some (.external 1 false) ∧
    s.portDevice (s.portNumber (.wordImm 0xFF)) = some (.external 2 true) := by decide
/-- PortFaults: 256, an empty slot, and the mapped slot below the end of the table. -/
theorem witness_PortFaults :
    (256 = (st { zero with dx := 256 }).portNumber .byteDx ∧ 255 < 256) ∧
    (255 = (st zero).portNumber (.byteImm 0xFF) ∧ ∀ d, (255, d) ∉ (st zero).ports) ∧
    (0xF3 = (st zero).portNumber (.wordImm 0xF3) ∧ 0xF3 ≤ 255 ∧ ∃ d, (0xF3, d) ∈ (st zero).ports) := by
  refine ⟨by decide, ⟨by decide, ?_⟩, by decide, by decide, .pic .master, by decide⟩
  intro d h
  simp [st, State.reset] at h
theorem witness_LineCalls : 15 ≤ 15 ∧ 15 < 16 ∧ 7 ≤ 7 ∧ 8 ≤ 8 ∧ 8 ≤ 15 ∧ 7 < 8 ∧ State.reset.master.cascadeLine = none ∧
    ({ Pic.reset with icw3 := 0x88 } : Pic).cascadeLine = some 3 := by decide
theorem witness_ControllerProgramming :
    (0x11#8).getLsbD 4 = true ∧ Pic.reset.initStep = .never ∧
    (Pic.reset.writeCommand 0x11).initStep = .waitIcw2 ∧
    ((Pic.reset.writeCommand 0x11).writeData 0x40).initStep = .waitIcw3 ∧
    (((Pic.reset.writeCommand 0x11).writeData 0x40).writeData 0x08).initStep = .waitIcw4 ∧
    ((((Pic.reset.writeCommand 0x11).writeData 0x40).writeData 0x08).writeData 0x01).initStep = .ready ∧
    (0x0B#8).getLsbD 4 = false ∧ (0x0B#8).getLsbD 3 = true ∧ (0x20#8).getLsbD 3 = false ∧
    (0x80#8).getLsbD 7 = true ∧ (∀ j < 7, (0x80#8).getLsbD j = false) := by decide
/-- ArbiterGives: a master line, and a slave line through the cascade line. -/
theorem witness_ArbiterGives :
    getNextInterrupt { Pic.reset with initStep := .ready, irr := 0x01 } Pic.reset = some 0 ∧
    getNextInterrupt { Pic.reset with initStep := .ready, irr := 0x08, icw3 := 0x08 }
      { Pic.reset with initStep := .ready, level := 0x01 } = some 8 := by decide

end Sys2Proof.Tests
end

namespace Sys2Proof.Machine

/-! The invariant under what the environment does: a call on an interrupt line, a memory byte, a port
claimed for a device. -/

/-- The in-service invariant of a controller does not look at the request and level bits. -/
theorem Pic.Inv.of_sameButRequests {c d : Pic} (h : c.Inv)
    (k : { d with irr := c.irr, level := c.level } = c) : d.Inv :=
  h.of_isr (congrArg Pic.isr k :) (congrArg Pic.initStep k :) (congrArg Pic.icw4 k :)

theorem State.Inv.of_deviceKeeps {s t : State} (h : s.Inv) (k : DeviceKeeps s t) : t.Inv where
  mem := k.mem ▸ h.mem
  segOverride := k.segOverride.trans h.segOverride
  rep := k.rep.trans h.rep
  ports := k.ports ▸ h.ports
  master := h.master.of_sameButRequests k.master
  slave := h.slave.of_sameButRequests k.slave

theorem State.Inv.lineCall {s : State} (h : s.Inv) (c : LineCall) : (s.lineCall c).Inv :=
  h.of_deviceKeeps (s.lineCall_keeps c)

theorem State.Inv.store {s : State} (h : s.Inv) (a : BitVec 20) (v : Byte) :
    State.Inv { s with mem := s.mem.write a.toNat v } :=
  { h with mem := Memory.wf_write _ _ _ h.mem a.isLt }

/-- What an event can do: a call on a line 0..15 (60_exceptions.md R521, R526, R527), or one memory
byte changed (20_memory.md R87). -/
theorem State.environ_cases {s t : State} {e : EnvEvent} (h : s.environ e = .next t) :
    (∃ c, t = s.lineCall c) ∨
      ∃ (a : BitVec 20) (v : Byte), t = { s with mem := s.mem.write a.toNat v } := by
  cases e with
  | request l =>
    simp only [State.environ] at h
    split at h
    · cases h
    · cases h; exact .inl ⟨.request ⟨l, by omega⟩, rfl⟩
  | ack l =>
    simp only [State.environ] at h
    split at h
    · cases h
    · cases h; exact .inl ⟨.ack ⟨l, by omega⟩, rfl⟩
  | level l v => cases h; exact .inl ⟨.level l v, rfl⟩
  | store a v => cases h; exact .inr ⟨a, v, rfl⟩

theorem State.Inv.environ {s t : State} {e : EnvEvent} (h : s.Inv) (he : s.environ e = .next t) :
    t.Inv := by
  obtain ⟨c, rfl⟩ | ⟨a, v, rfl⟩ := State.environ_cases he
  · exact h.lineCall c
  · exact h.store a v

/-- Claiming a slot keeps the table in rising order below 256 (47_io.md R464). -/
theorem portsFrom_portClaim {d : Device} {p lo : Nat} {l u : List (Nat × Device)}
    (h : portsFrom lo l) (hlo : lo ≤ p) (hp : p < 256) (hc : portClaim d p l = .ok u) :
    portsFrom lo u := by
  induction l generalizing lo u with
  | nil => cases hc; exact ⟨hlo, hp, trivial⟩
  | cons x l ih =>
    obtain ⟨q, e⟩ := x
    obtain ⟨hq, hq', hl⟩ := h
    simp only [portClaim] at hc
    split at hc
    · cases hc
    · split at hc
      · rename_i hpq
        cases hc
        exact ⟨hlo, hp, hpq, hq', hl⟩
      · split at hc
        · rename_i w hw
          cases hc
          exact ⟨hq, hq', ih hl (by omega) hw⟩
        · cases hc

theorem State.Inv.attach {s t : State} {d : Device} {ps : List Byte} (h : s.Inv)
    (ha : s.attach d ps = .next t) : t.Inv := by
  induction ps generalizing s with
  | nil => cases ha; exact h
  | cons p ps ih =>
    simp only [State.attach] at ha
    split at ha
    · rename_i u hu
      exact ih (s := { s with ports := u })
        { h with ports := portsFrom_portClaim h.ports (Nat.zero_le _) p.isLt hu } ha
    · cases ha

/-- Settles O13: an event is a line call, which leaves alone all that the invariant reads, or a write
below 2^20; an attachment claims its ports one by one. -/
theorem environmentKeepsInv : Obligations.EnvironmentKeepsInv :=
  ⟨fun _ _ _ h he => h.environ he, fun _ _ _ _ h ha => h.attach ha⟩

end Sys2Proof.Machine

namespace Sys2Proof.Machine

/-! Reset, byte halves and the FLAGS word (10_state.md R31, R37, R50, R51). -/

/-- Settles O10: every value is read off the reset state, one flag and one controller at a time. -/
theorem resetValues : Obligations.ResetValues := by
  have hflags : ∀ k, State.reset.flags.get k = false := fun k => by cases k <;> rfl
  refine ⟨⟨rfl, rfl, rfl, rfl, rfl, rfl, hflags, by decide, rfl, rfl⟩, fun k => ?_, rfl⟩
  cases k with
  | master => decide
  | slave => decide

/-- Settles O11: memory lists nothing, the four slots of the port table rise, and no line is in
service. -/
theorem resetInv : Obligations.ResetInv where
  mem := rfl
  segOverride := rfl
  rep := rfl
  ports := by simp [State.reset, portsFrom]
  master := .of_zero rfl
  slave := .of_zero rfl

/-- Settles O15: a half reads as its bits of the owner by definition; the write and its frame are
the rules of `setReg8`. -/
theorem byteHalves : Obligations.ByteHalves := fun s v =>
  ⟨⟨rfl, rfl, rfl, rfl, rfl, rfl, rfl, rfl⟩,
    fun r => ⟨s.reg8_setReg8_same r v, s.setReg8_only r v⟩⟩

/-- Each tracked flag stands at its bit of the word that a program reads (R36). -/
theorem Flags.word_bits (f : Flags) :
    f.word.getLsbD 0 = f.CF ∧ f.word.getLsbD 2 = f.PF ∧ f.word.getLsbD 4 = f.AF ∧
    f.word.getLsbD 6 = f.ZF ∧ f.word.getLsbD 7 = f.SF ∧ f.word.getLsbD 8 = f.TF ∧
    f.word.getLsbD 9 = f.IF ∧ f.word.getLsbD 10 = f.DF ∧ f.word.getLsbD 11 = f.OF :=
  Flags.mk.inj f.ofWord_word

/-- Outside the tracked bits the word reads as the always-one bits (R37). -/
theorem Flags.word_untracked (f : Flags) : f.word &&& ~~~0x0FD5#16 = 0xF002#16 := by
  have masks : (0x0FD5#16 &&& ~~~0x0FD5#16 = 0#16) ∧ 0xF002#16 &&& ~~~0x0FD5#16 = 0xF002#16 := by
    decide
  calc f.word &&& ~~~0x0FD5#16
      = ((f.word &&& 0x0FD5#16) ||| 0xF002#16) &&& ~~~0x0FD5#16 := by
        rw [← Flags.word_ofWord, f.ofWord_word]
    _ = f.word &&& (0x0FD5#16 &&& ~~~0x0FD5#16) ||| (0xF002#16 &&& ~~~0x0FD5#16) := by
        rw [BitVec.and_comm, BitVec.and_or_distrib_left, BitVec.and_comm, BitVec.and_assoc,
          BitVec.and_comm _ 0xF002#16]
    _ = 0xF002#16 := by rw [masks.1, masks.2, BitVec.and_zero, BitVec.zero_or]

/-- Settles O16: the tracked bits and the always-one bits of the word, and the two round trips. -/
theorem flagsWord : Obligations.FlagsWord :=
  ⟨Flags.word_bits, Flags.word_untracked, Flags.word_ofWord, Flags.ofWord_word⟩

end Sys2Proof.Machine

namespace Sys2Proof.Machine

/-! Which places of the machine's control state an instruction may write (10_state.md R34, R38,
47_io.md R464): a scope for each instruction, and one proof that `exec` stays inside it. -/

/-- The flags and segment registers that may be written, and whether the controllers and the log of
device calls may. General registers, `ip`, memory and the free-value counter are not limited. -/
structure WriteScope where
  flags : List Flag := []
  sregs : List SReg := []
  devices : Bool := false

/-- The change from `s` to `t` stays inside the scope, and touches no port slot and no parameter. -/
structure WritesWithin (w : WriteScope) (s t : State) : Prop where
  flags : ∀ k, k ∉ w.flags → t.flags.get k = s.flags.get k
  sregs : ∀ r, r ∉ w.sregs → t.sreg r = s.sreg r
  devices : w.devices = false → t.master = s.master ∧ t.slave = s.slave ∧ t.portLog = s.portLog
  ports : t.ports = s.ports
  params : t.params = s.params

/-- The nine tracked flags. -/
def allFlags : List Flag := [.CF, .PF, .AF, .ZF, .SF, .TF, .IF, .DF, .OF]

theorem mem_allFlags (k : Flag) : k ∈ allFlags := by cases k <;> decide

/-- The scope of an instruction. The six flags of an arithmetic result are free for all that are not
named. -/
def writeScope : Instr → WriteScope
  | .popf => { flags := allFlags }
  | .iret => { flags := allFlags, sregs := [.cs] }
  | .cld => { flags := [.DF] }
  | .std => { flags := [.DF] }
  | .cli => { flags := [.IF] }
  | .sti => { flags := [.IF] }
  | .mov (.sregRm _ r _) => { sregs := [r] }
  | .pop (.sreg r) => { sregs := [r] }
  | .lds _ _ => { sregs := [.ds] }
  | .les _ _ => { sregs := [.es] }
  | .jmpFar _ _ => { sregs := [.cs] }
  | .jmpFarInd _ => { sregs := [.cs] }
  | .callFar _ _ => { sregs := [.cs] }
  | .callFarInd _ => { sregs := [.cs] }
  | .retf _ => { sregs := [.cs] }
  | .int _ => { sregs := [.cs] }
  | .int3 => { sregs := [.cs] }
  | .div _ => { flags := aluFlags, sregs := [.cs] }
  | .idiv _ => { flags := aluFlags, sregs := [.cs] }
  | .inPort _ => { devices := true }
  | .outPort _ => { devices := true }
  | _ => { flags := aluFlags }

/-! ## How the relation composes -/

theorem WritesWithin.refl {w : WriteScope} (s : State) : WritesWithin w s s :=
  ⟨fun _ _ => rfl, fun _ _ => rfl, fun _ => ⟨rfl, rfl, rfl⟩, rfl, rfl⟩

theorem WritesWithin.trans {w : WriteScope} {s t u : State} (h : WritesWithin w s t)
    (k : WritesWithin w t u) : WritesWithin w s u where
  flags j hj := (k.flags j hj).trans (h.flags j hj)
  sregs r hr := (k.sregs r hr).trans (h.sregs r hr)
  devices hd :=
    have ⟨hm, hs, hl⟩ := h.devices hd
    have ⟨km, ks, kl⟩ := k.devices hd
    ⟨km.trans hm, ks.trans hs, kl.trans hl⟩
  ports := k.ports.trans h.ports
  params := k.params.trans h.params

/-- A frame stays inside every scope that names its flags and segment registers. -/
theorem Only.writesWithin {c : Changes} {w : WriteScope} {s t : State} (h : Only c s t)
    (hf : c.flags ⊆ w.flags) (hr : c.sregs ⊆ w.sregs) : WritesWithin w s t where
  flags k hk := h.flags k fun m => hk (hf m)
  sregs r hk := h.sregs r fun m => hk (hr m)
  devices _ := ⟨h.master, h.slave, h.portLog⟩
  ports := h.ports
  params := h.params

theorem FlagsOnly.writesWithin {ks : List Flag} {fr : Bool} {w : WriteScope} {s t : State}
    (h : FlagsOnly ks fr s t) (hf : ks ⊆ w.flags) : WritesWithin w s t :=
  h.only.writesWithin hf (List.nil_subset _)

/-- A device of the platform reaches the request and level bits only (47_io.md R462). -/
theorem DeviceKeeps.writesWithin {w : WriteScope} {s t : State} (h : DeviceKeeps s t)
    (hd : w.devices = true) : WritesWithin w s t where
  flags _ _ := congrArg (Flags.get · _) h.flags
  sregs _ _ := State.sreg_congr _ _ _ h.segs
  devices hn := absurd (hd.symm.trans hn) (by decide)
  ports := h.ports
  params := h.params

end Sys2Proof.Machine

namespace Sys2Proof

/-! ## Operands that are no control state -/

/-- The operand is not a segment register and not the FLAGS word. -/
def Op16.isPlain : Op16 → Bool
  | .reg _ => true
  | .sreg _ => false
  | .flags => false
  | .mem _ => true
  | .imm _ => true

/-- Operand 1 of the form is plain; the byte operands are. -/
def Pair.isPlain : Pair → Bool
  | .b _ _ => true
  | .w o _ => o.isPlain

def Single.isPlain : Single → Bool
  | .b _ => true
  | .w o => o.isPlain

theorem Op16.ofRm_isPlain (rm : Rm16) : (Op16.ofRm rm).isPlain = true := by cases rm <;> rfl

theorem AluForm.isPlain (f : AluForm) : f.ops.isPlain = true := by
  cases f with
  | rmR16 rm | rmImm16 rm | rmImmSx rm => exact Op16.ofRm_isPlain rm
  | _ => rfl

theorem IncForm.isPlain (f : IncForm) : f.op.isPlain = true := by
  cases f with
  | rm16 rm => exact Op16.ofRm_isPlain rm
  | _ => rfl

theorem UnForm.isPlain (f : UnForm) : f.op.isPlain = true := by
  cases f with
  | rm16 rm => exact Op16.ofRm_isPlain rm
  | _ => rfl

end Sys2Proof

namespace Sys2Proof.Machine

/-! ## One more operation on the state

Each lemma says what one operation adds to a change that stays inside the scope. -/

section Operations

variable {w : WriteScope} {s t : State}

theorem WritesWithin.setReg16 {r : Reg16} {v : Word} (h : WritesWithin w s t) :
    WritesWithin w s (t.setReg16 r v) :=
  h.trans ((t.setReg16_only r v).writesWithin (List.nil_subset _) (List.nil_subset _))

theorem WritesWithin.setReg8 {r : Reg8} {v : Byte} (h : WritesWithin w s t) :
    WritesWithin w s (t.setReg8 r v) :=
  h.trans ((t.setReg8_only r v).writesWithin (List.nil_subset _) (List.nil_subset _))

theorem WritesWithin.setSreg {r : SReg} {v : Word} (h : WritesWithin w s t) (hr : [r] ⊆ w.sregs) :
    WritesWithin w s (t.setSreg r v) :=
  h.trans ((t.setSreg_only r v).writesWithin (List.nil_subset _) hr)

theorem WritesWithin.setIp {v : Word} (h : WritesWithin w s t) : WritesWithin w s (t.setIp v) :=
  h.trans ((t.setIp_only v).writesWithin (List.nil_subset _) (List.nil_subset _))

theorem WritesWithin.write8 {seg off : Word} {v : Byte} (h : WritesWithin w s t) :
    WritesWithin w s (t.write8 seg off v) :=
  h.trans ((t.write8_only seg off v).writesWithin (List.nil_subset _) (List.nil_subset _))

theorem WritesWithin.write16 {seg off v : Word} (h : WritesWithin w s t) :
    WritesWithin w s (t.write16 seg off v) :=
  h.trans ((t.write16_only seg off v).writesWithin (List.nil_subset _) (List.nil_subset _))

theorem WritesWithin.push16 {v : Word} (h : WritesWithin w s t) : WritesWithin w s (t.push16 v) :=
  h.trans ((t.push16_only v).writesWithin (List.nil_subset _) (List.nil_subset _))

theorem WritesWithin.drop16 (h : WritesWithin w s t) : WritesWithin w s t.drop16 :=
  h.trans (t.drop16_only.writesWithin (List.nil_subset _) (List.nil_subset _))

theorem WritesWithin.mapFlags {g : Flags → Flags} (h : WritesWithin w s t)
    (hg : ∀ k, k ∉ w.flags → (g t.flags).get k = t.flags.get k) :
    WritesWithin w s (t.mapFlags g) :=
  h.trans ((t.mapFlags_only g w.flags hg).writesWithin (List.Subset.refl _) (List.nil_subset _))

theorem WritesWithin.setFlag {k : Flag} {v : Bool} (h : WritesWithin w s t) (hk : [k] ⊆ w.flags) :
    WritesWithin w s (t.mapFlags fun f => f.set k v) :=
  h.mapFlags fun _ hj => Flags.get_set_other _ _ _ _ fun e => hj (hk (e ▸ List.mem_singleton_self k))

/-- Where the scope names the six arithmetic flags, only TF, IF and DF are left to look at. -/
theorem WritesWithin.mapFlags_alu {g : Flags → Flags} (h : WritesWithin w s t)
    (hw : aluFlags ⊆ w.flags) (hTF : (g t.flags).TF = t.flags.TF)
    (hIF : (g t.flags).IF = t.flags.IF) (hDF : (g t.flags).DF = t.flags.DF) :
    WritesWithin w s (t.mapFlags g) :=
  h.mapFlags fun k hk => by
    cases k with
    | TF => exact hTF
    | IF => exact hIF
    | DF => exact hDF
    | CF | PF | AF | ZF | SF | OF => exact absurd (hw (by decide)) hk

theorem WritesWithin.undef {k : Flag} (h : WritesWithin w s t) (hk : [k] ⊆ w.flags) :
    WritesWithin w s (t.undef k) :=
  h.trans ((t.undef_only k).writesWithin hk (List.nil_subset _))

theorem WritesWithin.undefs {ks : List Flag} (h : WritesWithin w s t) (hk : ks ⊆ w.flags) :
    WritesWithin w s (t.undefs ks) :=
  h.trans ((t.undefs_only ks).writesWithin hk (List.nil_subset _))

theorem WritesWithin.put8 {o : Op8} {v : Byte} (h : WritesWithin w s t) :
    WritesWithin w s (t.put8 o v) := by
  cases o with
  | reg r => exact h.setReg8
  | mem m => exact h.write8
  | imm v => exact h

theorem WritesWithin.put16 {o : Op16} {v : Word} (h : WritesWithin w s t) (ho : o.isPlain = true) :
    WritesWithin w s (t.put16 o v) := by
  cases o with
  | reg r => exact h.setReg16
  | sreg r => cases ho
  | flags => cases ho
  | mem m => exact h.write16
  | imm v => exact h

theorem WritesWithin.jumpIf {c : Bool} {d : Byte} (h : WritesWithin w s t) :
    WritesWithin w s (t.jumpIf c d) := by
  unfold State.jumpIf
  split
  · exact h.setIp
  · exact h

/-- A software interrupt writes CS and no flag (60_exceptions.md R504). -/
theorem WritesWithin.vector_software {n : Nat} (h : WritesWithin w s t) (hr : [.cs] ⊆ w.sregs) :
    WritesWithin w s (t.vector n .software) :=
  h.push16.push16.push16.setIp.setSreg hr

end Operations

/-! ## The skeletons -/

section Skeletons

variable {w : WriteScope} {s : State}

theorem State.binary_writesWithin {op : BinaryOp} {p : Pair} (hp : p.isPlain = true)
    (hop : ∀ {n : Nat} (a b : BitVec n), WritesWithin w s (op a b s).2) :
    WritesWithin w s (s.binary op p) := by
  cases p with
  | b o1 o2 => exact (hop _ _).put8
  | w o1 o2 => exact (hop _ _).put16 hp

theorem State.compare_writesWithin {op : BinaryOp} {p : Pair}
    (hop : ∀ {n : Nat} (a b : BitVec n), WritesWithin w s (op a b s).2) :
    WritesWithin w s (s.compare op p) := by
  cases p with
  | b o1 o2 => exact hop _ _
  | w o1 o2 => exact hop _ _

theorem State.unary_writesWithin {op : UnaryOp} {o : Single} (ho : o.isPlain = true)
    (hop : ∀ {n : Nat} (a : BitVec n), WritesWithin w s (op a s).2) :
    WritesWithin w s (s.unary op o) := by
  cases o with
  | b o1 => exact (hop _).put8
  | w o1 => exact (hop _).put16 ho

/-- Any operation of the group: the carry, the overflow expression and the three result flags are
arithmetic flags (42_shift_rotate.md R281). -/
theorem State.shift_writesWithin {op : ShiftOp} {f : ShiftForm} (hw : aluFlags ⊆ w.flags) :
    WritesWithin w s (s.shift op f) := by
  have hflags : (if op.szp then aluFlags else [.CF, .OF]) ⊆ w.flags := by
    refine List.Subset.trans ?_ hw
    split <;> simp [aluFlags]
  have after {n : Nat} {t : State} (h : WritesWithin w s t) (k : Nat) (v : BitVec n) (c : Bool) :
      WritesWithin w s (t.shiftFlags op k v c) :=
    h.trans ((t.shiftFlags_spec op k v c).1.writesWithin hflags)
  by_cases hk : s.count f.op.2 = 0
  · rw [s.shift_zero op f hk]
    exact .refl s
  · cases f with
    | rm8 rm n =>
      rw [State.shift, if_neg hk]
      exact after (WritesWithin.refl s).put8 _ _ _
    | rm16 rm n =>
      rw [State.shift, if_neg hk]
      exact after ((WritesWithin.refl s).put16 (Op16.ofRm_isPlain rm)) _ _ _

/-- The repeat loop stays inside the scope that every iteration stays in (45_string.md R391). -/
theorem repLoop_writesWithin {iter : State → State} {c : Bool}
    (hi : ∀ t, WritesWithin w t (iter t)) (k : Nat) (s : State) :
    WritesWithin w s (repLoop iter c k s) := by
  induction k generalizing s with
  | zero => exact .refl s
  | succ k ih =>
    rw [repLoop_succ]
    split
    · exact (hi s).setReg16
    · exact (hi s).setReg16.trans (ih _)

theorem State.string_writesWithin {iter : State → State} {c : Bool}
    (hi : ∀ t, WritesWithin w t (iter t)) : WritesWithin w s (s.string iter c) := by
  unfold State.string
  split
  · exact hi s
  · exact hi s
  · exact repLoop_writesWithin hi _ s
  · exact repLoop_writesWithin hi _ s

end Skeletons

/-! ## The operations of the arithmetic instructions -/

section Arithmetic

variable {w : WriteScope} {n : Nat} (hw : aluFlags ⊆ w.flags) (a b : BitVec n) (s : State)

include hw

theorem addOp_writesWithin : WritesWithin w s (addOp a b s).2 :=
  (WritesWithin.refl s).mapFlags_alu hw rfl rfl rfl

theorem adcOp_writesWithin : WritesWithin w s (adcOp a b s).2 :=
  (WritesWithin.refl s).mapFlags_alu hw rfl rfl rfl

theorem subOp_writesWithin : WritesWithin w s (subOp a b s).2 :=
  (WritesWithin.refl s).mapFlags_alu hw rfl rfl rfl

theorem sbbOp_writesWithin : WritesWithin w s (sbbOp a b s).2 :=
  (WritesWithin.refl s).mapFlags_alu hw rfl rfl rfl

theorem logicResult_writesWithin : WritesWithin w s (logicResult a s).2 :=
  (logicResult_flagsOnly a s).writesWithin hw

theorem incOp_writesWithin : WritesWithin w s (incOp a s).2 :=
  (WritesWithin.refl s).mapFlags_alu
    (g := fun f => { flagsAdd a 1#n (a.toNat + 1) f with CF := f.CF }) hw rfl rfl rfl

theorem decOp_writesWithin : WritesWithin w s (decOp a s).2 :=
  (WritesWithin.refl s).mapFlags_alu
    (g := fun f => { flagsSub a 1#n (a.toNat - 1) f with CF := f.CF }) hw rfl rfl rfl

theorem negOp_writesWithin : WritesWithin w s (negOp a s).2 :=
  (WritesWithin.refl s).mapFlags_alu hw rfl rfl rfl

end Arithmetic

/-! ## Division, moves, ports -/

section Arms

variable {w : WriteScope} {s t : State}

/-- A division completes into AX and DX with its six flags undefined, or enters through vector 0
(43_muldiv_bcd.md R312 to R314). -/
theorem division_writesWithin {f : UnForm} (hf : aluFlags ⊆ w.flags) (hr : [.cs] ⊆ w.sregs)
    (h : execDiv f s = .next t ∨ execIdiv f s = .next t) : WritesWithin w s t := by
  have hdiv : divFlags ⊆ w.flags := List.Subset.trans (by decide) hf
  have byte (q r : Byte) : WritesWithin w s (s.quotient8 q r) :=
    (WritesWithin.refl s).setReg16.undefs hdiv
  have word (q r : Word) : WritesWithin w s (s.quotient16 q r) :=
    (WritesWithin.refl s).setReg16.setReg16.undefs hdiv
  have error : WritesWithin w s s.divideError := (WritesWithin.refl s).vector_software hr
  rcases h with h | h <;> cases f <;> simp only [execDiv, execIdiv, UnForm.op] at h <;>
    split at h <;> cases h
  exacts [byte _ _, error, word _ _, error, byte _ _, error, word _ _, error]

theorem State.product8_writesWithin {a b : Byte} {raw : Nat} (hf : aluFlags ⊆ w.flags) :
    WritesWithin w s (s.product8 a b raw) :=
  (WritesWithin.refl s).setReg16.mapFlags_alu hf rfl rfl rfl

theorem State.product16_writesWithin {a b : Word} {raw : Nat} (hf : aluFlags ⊆ w.flags) :
    WritesWithin w s (s.product16 a b raw) :=
  (WritesWithin.refl s).setReg16.setReg16.mapFlags_alu hf rfl rfl rfl

/-- AL, the flags of DAA and DAS, and OF undefined. -/
theorem State.decimalResult_writesWithin {al : Byte} {af cf : Bool} (hf : aluFlags ⊆ w.flags) :
    WritesWithin w s (s.decimalResult al af cf) :=
  ((WritesWithin.refl s).setReg8.mapFlags_alu hf rfl rfl rfl).undef
    (List.Subset.trans (by decide) hf)

theorem State.asciiResult_writesWithin {al ah : Byte} {c : Bool} (hf : aluFlags ⊆ w.flags) :
    WritesWithin w s (s.asciiResult al ah c) :=
  ((WritesWithin.refl s).setReg16.mapFlags_alu hf rfl rfl rfl).undefs
    (List.Subset.trans (by decide) hf)

/-- SAHF writes from AH the flags below bit 8, and gives TF, IF and DF their own bits back
(40_data_transfer.md R190). -/
theorem execSahf_writesWithin (hf : aluFlags ⊆ w.flags) (h : execSahf s = .next t) :
    WritesWithin w s t := by
  obtain ⟨-, -, -, -, -, hTF, hIF, hDF, -⟩ := s.flags.word_bits
  cases h
  refine (WritesWithin.refl s).mapFlags_alu hf ?_ ?_ ?_
  · simpa [Flags.ofWord, zext16] using hTF
  · simpa [Flags.ofWord, zext16] using hIF
  · simpa [Flags.ofWord, zext16] using hDF

/-- Only the form with a segment register as operand 1 writes one. -/
theorem execMov_writesWithin {f : MovForm} (h : execMov f s = .next t) :
    WritesWithin (writeScope (.mov f)) s t := by
  cases f with
  | rmR8 | rRm8 | alMoffs | moffsAl | r8Imm | rmImm8 => cases h; exact (WritesWithin.refl s).put8
  | rmR16 rm | rmSreg _ rm | rmImm16 _ rm =>
    cases h; exact (WritesWithin.refl s).put16 (Op16.ofRm_isPlain rm)
  | rRm16 | axMoffs | moffsAx | r16Imm => cases h; exact (WritesWithin.refl s).put16 rfl
  | sregRm => cases h; exact (WritesWithin.refl s).setSreg (List.Subset.refl _)

theorem execXchg_writesWithin {f : XchgForm} (h : execXchg f s = .next t) : WritesWithin w s t := by
  cases f with
  | rmR8 => cases h; exact (WritesWithin.refl s).put8.put8
  | rmR16 rm => cases h; exact ((WritesWithin.refl s).put16 (Op16.ofRm_isPlain rm)).put16 rfl
  | axR => cases h; exact ((WritesWithin.refl s).put16 rfl).put16 rfl

theorem execPop_writesWithin {f : PopForm} (h : execPop f s = .next t) :
    WritesWithin (writeScope (.pop f)) s t := by
  cases f with
  | sreg => cases h; exact (WritesWithin.refl s).drop16.setSreg (List.Subset.refl _)
  | reg => cases h; exact (WritesWithin.refl s).drop16.put16 rfl
  | rm _ x => cases h; exact (WritesWithin.refl s).drop16.put16 (Op16.ofRm_isPlain x)

/-- The return of IRET takes back every flag and CS (46_system.md R424). -/
theorem State.returnFromInterrupt_writesWithin (hf : allFlags ⊆ w.flags) (hr : [.cs] ⊆ w.sregs) :
    WritesWithin w s s.returnFromInterrupt :=
  ((WritesWithin.refl s).drop16.setIp.drop16.setSreg hr).drop16.mapFlags
    (g := fun _ => _) fun k hk => absurd (hf (mem_allFlags k)) hk

/-- The prefix record is no part of any scope (30_encoding.md R102). -/
theorem WritesWithin.prefixRecord {o : Option SReg} {r : RepPrefix} :
    WritesWithin w s { s with segOverride := o, rep := r } :=
  ⟨fun _ _ => rfl, fun _ _ => State.sreg_congr _ _ _ rfl, fun _ => ⟨rfl, rfl, rfl⟩, rfl, rfl⟩

theorem State.setPic_writesWithin {k : Ctl} {c : Pic} (hd : w.devices = true) :
    WritesWithin w s (s.setPic k c) where
  flags _ _ := by rw [State.setPic_flags]
  sregs _ _ := State.sreg_congr _ _ _ (s.setPic_segs k c)
  devices hn := absurd (hd.symm.trans hn) (by decide)
  ports := s.setPic_ports k c
  params := s.setPic_params k c

theorem State.devReadByte_writesWithin (hd : w.devices = true) (d : Device) (p : Nat) (s : State) :
    WritesWithin w s (s.devReadByte d p).2 := by
  cases d with
  | pic c => exact .refl s
  | external => exact (State.deviceCall_keeps _ s).writesWithin hd

theorem State.devWriteByte_writesWithin (hd : w.devices = true) (d : Device) (p : Nat) (v : Byte)
    (s : State) : WritesWithin w s (s.devWriteByte d p v) := by
  cases d with
  | pic c =>
    simp only [State.devWriteByte, State.ctlWrite]
    split
    · exact s.setPic_writesWithin hd
    · split
      · exact s.setPic_writesWithin hd
      · exact .refl s
  | external => exact (State.deviceCall_keeps _ s).writesWithin hd

theorem State.devReadTwice_writesWithin (hd : w.devices = true) (d : Device) (p : Nat) (s : State) :
    WritesWithin w s (s.devReadTwice d p).2 :=
  (s.devReadByte_writesWithin hd d p).trans (State.devReadByte_writesWithin hd d (p + 1) _)

theorem State.devWriteTwice_writesWithin (hd : w.devices = true) (d : Device) (p : Nat) (v : Word)
    (s : State) : WritesWithin w s (s.devWriteTwice d p v) :=
  (s.devWriteByte_writesWithin hd d p _).trans (State.devWriteByte_writesWithin hd d (p + 1) _ _)

theorem State.devReadWord_writesWithin (hd : w.devices = true) (d : Device) (p : Nat) (s : State) :
    WritesWithin w s (s.devReadWord d p).2 := by
  unfold State.devReadWord
  split
  · exact (State.deviceCall_keeps _ s).writesWithin hd
  · exact s.devReadTwice_writesWithin hd _ p
  · exact s.devReadTwice_writesWithin hd _ p

theorem State.devWriteWord_writesWithin (hd : w.devices = true) (d : Device) (p : Nat) (v : Word)
    (s : State) : WritesWithin w s (s.devWriteWord d p v) := by
  unfold State.devWriteWord
  split
  · exact (State.deviceCall_keeps _ s).writesWithin hd
  · exact s.devWriteTwice_writesWithin hd _ p v
  · exact s.devWriteTwice_writesWithin hd _ p v

theorem execIn_writesWithin {f : PortForm} (hd : w.devices = true) (h : execIn f s = .next t) :
    WritesWithin w s t := by
  cases f with
  | byteImm | byteDx =>
    simp only [execIn, State.inByte] at h
    split at h <;> cases h
    exact (s.devReadByte_writesWithin hd _ _).setReg8
  | wordImm | wordDx =>
    simp only [execIn, State.inWord] at h
    split at h <;> cases h
    exact (s.devReadWord_writesWithin hd _ _).setReg16

theorem execOut_writesWithin {f : PortForm} (hd : w.devices = true) (h : execOut f s = .next t) :
    WritesWithin w s t := by
  cases f with
  | byteImm | byteDx =>
    simp only [execOut, State.outByte] at h
    split at h <;> cases h
    exact s.devWriteByte_writesWithin hd _ _ _
  | wordImm | wordDx =>
    simp only [execOut, State.outWord] at h
    split at h <;> cases h
    exact s.devWriteWord_writesWithin hd _ _ _

end Arms

/-! ## Every instruction -/

/-- An instruction that completes stays inside its scope. -/
theorem exec_writesWithin {i : Instr} {s t : State} (h : exec i s = .next t) :
    WritesWithin (writeScope i) s t := by
  have alu : aluFlags ⊆ aluFlags := List.Subset.refl _
  have cs : [SReg.cs] ⊆ [SReg.cs] := List.Subset.refl _
  have keep {w : WriteScope} : WritesWithin w s s := .refl s
  cases i with
  | add f => cases h; exact s.binary_writesWithin f.isPlain fun a b => addOp_writesWithin alu a b s
  | adc f => cases h; exact s.binary_writesWithin f.isPlain fun a b => adcOp_writesWithin alu a b s
  | sub f => cases h; exact s.binary_writesWithin f.isPlain fun a b => subOp_writesWithin alu a b s
  | sbb f => cases h; exact s.binary_writesWithin f.isPlain fun a b => sbbOp_writesWithin alu a b s
  | or f | and f | xor f =>
    cases h
    exact s.binary_writesWithin f.isPlain fun _ _ => logicResult_writesWithin alu _ s
  | cmp => cases h; exact s.compare_writesWithin fun a b => subOp_writesWithin alu a b s
  | test => cases h; exact s.compare_writesWithin fun _ _ => logicResult_writesWithin alu _ s
  | inc f => cases h; exact s.unary_writesWithin f.isPlain fun a => incOp_writesWithin alu a s
  | dec f => cases h; exact s.unary_writesWithin f.isPlain fun a => decOp_writesWithin alu a s
  | neg f => cases h; exact s.unary_writesWithin f.isPlain fun a => negOp_writesWithin alu a s
  | not f => cases h; exact s.unary_writesWithin f.isPlain fun _ => keep
  | mul f | imul f =>
    cases f with
    | rm8 => cases h; exact s.product8_writesWithin alu
    | rm16 => cases h; exact s.product16_writesWithin alu
  | div => exact division_writesWithin alu cs (.inl h)
  | idiv => exact division_writesWithin alu cs (.inr h)
  | daa | das => cases h; exact s.decimalResult_writesWithin alu
  | aaa =>
    simp only [exec, execAaa] at h
    split at h <;> cases h <;> exact s.asciiResult_writesWithin alu
  | aas =>
    simp only [exec, execAas] at h
    split at h <;> cases h <;> exact s.asciiResult_writesWithin alu
  | rol | ror | rcl | rcr | shl | shr | sar => cases h; exact s.shift_writesWithin alu
  | mov => exact execMov_writesWithin h
  | xchg => exact execXchg_writesWithin h
  | pop => exact execPop_writesWithin h
  | push | pushf => cases h; exact keep.push16
  | popf =>
    cases h
    exact keep.drop16.mapFlags (g := fun _ => _) fun k hk => absurd (mem_allFlags k) hk
  | sahf => exact execSahf_writesWithin alu h
  | lahf | xlat => cases h; exact keep.setReg8
  | lea | cbw | cwd => cases h; exact keep.setReg16
  | lds | les => cases h; exact keep.setReg16.setSreg (List.Subset.refl _)
  | jmp | jmpInd | hlt => cases h; exact keep.setIp
  | jmpFar | jmpFarInd => cases h; exact keep.setIp.setSreg cs
  | jo | jno | jb | jnb | jz | jnz | jbe | ja | js | jns | jp | jnp | jl | jge | jle | jg | jcxz =>
    cases h; exact keep.jumpIf
  | loop | loopz | loopnz => cases h; exact keep.setReg16.jumpIf
  | call | callInd => cases h; exact keep.push16.setIp
  | callFar | callFarInd => cases h; exact keep.push16.push16.setIp.setSreg cs
  | ret => cases h; exact keep.drop16.setIp.setReg16
  | retf => cases h; exact (keep.drop16.setIp.drop16.setSreg cs).setReg16
  | movsb =>
    cases h
    exact s.string_writesWithin fun t => (WritesWithin.refl t).write8.setReg16.setReg16
  | movsw =>
    cases h
    exact s.string_writesWithin fun t => (WritesWithin.refl t).write16.setReg16.setReg16
  | cmpsb | cmpsw =>
    cases h
    exact s.string_writesWithin fun t => (subOp_writesWithin alu _ _ t).setReg16.setReg16
  | stosb => cases h; exact s.string_writesWithin fun t => (WritesWithin.refl t).write8.setReg16
  | stosw => cases h; exact s.string_writesWithin fun t => (WritesWithin.refl t).write16.setReg16
  | lodsb => cases h; exact s.string_writesWithin fun t => (WritesWithin.refl t).setReg8.setReg16
  | lodsw => cases h; exact s.string_writesWithin fun t => (WritesWithin.refl t).setReg16.setReg16
  | scasb | scasw =>
    cases h; exact s.string_writesWithin fun t => (subOp_writesWithin alu _ _ t).setReg16
  | int | int3 => cases h; exact keep.vector_software cs
  | iret => cases h; exact s.returnFromInterrupt_writesWithin (List.Subset.refl _) cs
  | clc | stc | cmc => cases h; exact keep.mapFlags_alu alu rfl rfl rfl
  | cld | std => cases h; exact keep.setFlag (k := .DF) (List.Subset.refl _)
  | cli | sti => cases h; exact keep.setFlag (k := .IF) (List.Subset.refl _)
  | esc | wait | nop => cases h; exact keep
  | inPort => exact execIn_writesWithin rfl h
  | outPort => exact execOut_writesWithin rfl h
  | prefixEs | prefixCs | prefixSs | prefixDs | prefixLock | prefixRepne | prefixRep =>
    cases h; exact .prefixRecord
  | escape0F | undocumented | reserved | into | aam | aad | leaReg | lesReg | ldsReg | callFarReg
  | jmpFarReg => cases h

/-! ## What the scopes say -/

/-- Only six rows have a flag in their scope that is no arithmetic flag (10_state.md R38). -/
theorem writeScope_flags (i : Instr) :
    (writeScope i).flags ⊆ aluFlags ∨ i ∈ [.popf, .iret, .cld, .std, .cli, .sti] := by
  cases i with
  | popf | iret | cld | std | cli | sti => exact .inr (by decide)
  | lds | les | jmpFar | jmpFarInd | callFar | callFarInd | retf | int | int3 | inPort | outPort =>
    exact .inl (List.nil_subset _)
  | mov f =>
    cases f with
    | sregRm => exact .inl (List.nil_subset _)
    | _ => exact .inl (List.Subset.refl _)
  | pop f =>
    cases f with
    | sreg => exact .inl (List.nil_subset _)
    | _ => exact .inl (List.Subset.refl _)
  | _ => exact .inl (List.Subset.refl _)

/-- So which rows may write a control flag is asked of those six alone. -/
theorem mem_of_flag_mem_writeScope {i : Instr} {k : Flag} {rows : List Instr}
    (hm : k ∈ (writeScope i).flags) (hk : k ∉ aluFlags)
    (hrows : ∀ j ∈ [Instr.popf, .iret, .cld, .std, .cli, .sti],
      k ∈ (writeScope j).flags → j ∈ rows) : i ∈ rows := by
  rcases writeScope_flags i with h | h
  · exact absurd (h hm) hk
  · exact hrows i h hm

/-- Only IN and OUT have the devices in their scope. -/
theorem writeScope_devices {i : Instr} (hin : ∀ f, i ≠ .inPort f) (hout : ∀ f, i ≠ .outPort f) :
    (writeScope i).devices = false := by
  cases i with
  | inPort f => exact absurd rfl (hin f)
  | outPort f => exact absurd rfl (hout f)
  | mov f => cases f <;> rfl
  | pop f => cases f <;> rfl
  | _ => rfl

/-- Settles O14: an instruction that completes stays inside its scope, and the scopes hold the places
of the statement for the rows that it names only. There is no POP CS (40_data_transfer.md R184). -/
theorem whoWritesWhat : Obligations.WhoWritesWhat := by
  intro i s t hwf h
  have k := exec_writesWithin h
  refine ⟨k.ports, k.params, fun hin hout => k.devices (writeScope_devices hin hout),
    fun hi => k.flags .TF fun m => hi (mem_of_flag_mem_writeScope m (by decide) (by decide)),
    fun hi => k.flags .DF fun m => hi (mem_of_flag_mem_writeScope m (by decide) (by decide)),
    fun hi => k.flags .IF fun m => hi (mem_of_flag_mem_writeScope m (by decide) (by decide)), ?_⟩
  intro mov jmpFar jmpFarInd callFar callFarInd retf int int3 iret div idiv
  refine k.sregs .cs fun m => ?_
  cases i with
  | mov f =>
    cases f with
    | sregRm hi r rm =>
      obtain rfl := List.mem_singleton.1 m
      exact mov hi rm rfl
    | _ => cases m
  | pop f =>
    cases f with
    | sreg r =>
      obtain rfl := List.mem_singleton.1 m
      cases hwf
    | _ => cases m
  | lds | les => cases List.mem_singleton.1 m
  | jmpFar o g => exact jmpFar o g rfl
  | jmpFarInd x => exact jmpFarInd x rfl
  | callFar o g => exact callFar o g rfl
  | callFarInd x => exact callFarInd x rfl
  | retf f => exact retf f rfl
  | int n => exact int n rfl
  | int3 => exact int3 rfl
  | iret => exact iret rfl
  | div f => exact div f rfl
  | idiv f => exact idiv f rfl
  | _ => cases m

end Sys2Proof.Machine

namespace Sys2Proof.Machine

/-! The canonical form of memory, and the accesses of a segment (20_memory.md R71 to R77). -/

theorem Memory.wfFrom_cons {lo x : Nat} {w : Byte} {m : Memory} :
    Memory.wfFrom lo ((x, w) :: m) = true ↔
      lo ≤ x ∧ x < 2 ^ 20 ∧ w ≠ Memory.unlisted ∧ Memory.wfFrom (x + 1) m = true := by
  simp [Memory.wfFrom, and_assoc]

/-- The first cell of a canonical memory stands at the lowest address that does not read as an
unlisted one. -/
theorem Memory.head_le_of_read_ne {lo y a : Nat} {v : Byte} {n : Memory}
    (h : Memory.wfFrom lo ((y, v) :: n) = true)
    (ha : Memory.read a ((y, v) :: n) ≠ Memory.unlisted) : y ≤ a := by
  obtain ⟨-, hy, hv, hn⟩ := Memory.wfFrom_cons.1 h
  by_contra hlt
  exact ha (Memory.read_of_lt _ y a (Memory.wfFrom_cons.2 ⟨le_refl y, hy, hv, hn⟩) (by omega))

theorem Memory.read_head {x : Nat} {w : Byte} {m : Memory} : Memory.read x ((x, w) :: m) = w := by
  simp [Memory.read]

theorem Memory.read_tail {x a : Nat} {w : Byte} {m : Memory} (h : x ≠ a) :
    Memory.read a ((x, w) :: m) = m.read a := by
  simp [Memory.read, h]

/-- Canonical memories that read alike are the same list: their first cells stand at the same address,
and past it the rests read alike. -/
theorem Memory.eq_of_read_eq {m n : Memory} {lo lo' : Nat} (hm : Memory.wfFrom lo m = true)
    (hn : Memory.wfFrom lo' n = true) (h : ∀ a, m.read a = n.read a) : m = n := by
  induction m generalizing n lo lo' with
  | nil =>
    cases n with
    | nil => rfl
    | cons d n =>
      obtain ⟨y, v⟩ := d
      obtain ⟨-, -, hv, -⟩ := Memory.wfFrom_cons.1 hn
      exact absurd ((h y).trans Memory.read_head).symm hv
  | cons c m ih =>
    obtain ⟨x, w⟩ := c
    obtain ⟨-, -, hw, hm'⟩ := Memory.wfFrom_cons.1 hm
    cases n with
    | nil => exact absurd (Memory.read_head.symm.trans (h x)) hw
    | cons d n =>
      obtain ⟨y, v⟩ := d
      obtain ⟨-, -, hv, hn'⟩ := Memory.wfFrom_cons.1 hn
      have hyx : y ≤ x := Memory.head_le_of_read_ne hn (by rwa [← h, Memory.read_head])
      have hxy : x ≤ y := Memory.head_le_of_read_ne hm (by rwa [h, Memory.read_head])
      obtain rfl : x = y := le_antisymm hxy hyx
      obtain rfl : w = v := Memory.read_head.symm.trans ((h x).trans Memory.read_head)
      have tails : ∀ a, Memory.read a m = Memory.read a n := fun a => by
        by_cases hx : x = a
        · subst hx
          rw [Memory.read_of_lt m _ x hm' (Nat.lt_succ_self x),
            Memory.read_of_lt n _ x hn' (Nat.lt_succ_self x)]
        · rw [← Memory.read_tail (w := w) hx, h a, Memory.read_tail hx]
      rw [ih hm' hn' tails]

/-- Settles O17: the rules of a write, and that the canonical form is determined by what it reads. -/
theorem memoryReadsBackWrites : Obligations.MemoryReadsBackWrites :=
  ⟨fun m a v hm ha => ⟨m.wf_write a v hm ha, m.read_write_same a v hm,
    fun b hb => m.read_write_other a b v hb⟩, fun _ _ hm hn h => Memory.eq_of_read_eq hm hn h⟩

/-- Settles O18: the address and the two bytes of a word are by definition; what is read back and the
frame are the rules of `write8` and `write16`. -/
theorem wordAccess : Obligations.WordAccess := fun s seg off v b hw =>
  ⟨rfl, s.read8_write8_same seg off b hw, s.write8_only seg off b, rfl, s.write16_low seg off v hw,
    s.write16_high seg off v hw, s.read16_write16_same seg off v hw, s.write16_only seg off v⟩

/-- A pop after a push gives the registers back, SP by its wrap-around arithmetic. -/
theorem State.drop16_push16_regs (s : State) (v : Word) : (s.push16 v).drop16.regs = s.regs := by
  simp [Regs.set]

/-- Settles O19: what a push writes and what a pop takes back; the word read at the top after a push
is the word pushed. -/
theorem stackWords : Obligations.StackWords := fun s v hw =>
  ⟨s.push16_sp v, s.push16_word v hw, s.push16_only v, rfl, rfl, s.push16_word v hw,
    s.drop16_push16_regs v⟩

/-- Without an override the segment of a memory operand is its default (R111). -/
theorem State.eaSeg_of_no_override {s : State} (h : s.segOverride = none) (m : MemRef) :
    s.eaSeg m = s.sreg m.defaultSeg := by
  simp [State.eaSeg, State.segOr, h]

/-- An override is the segment of every memory operand (R111). -/
theorem State.eaSeg_of_override {s : State} {r : SReg} (h : s.segOverride = some r) (m : MemRef) :
    s.eaSeg m = s.sreg r := by
  simp [State.eaSeg, State.segOr, h]

/-- The bases with BP have SS as their default segment, the others DS (R76). -/
theorem State.sreg_base_default (s : State) (b : Base) :
    s.sreg (if b.usesBp then .ss else .ds) =
      if b ∈ [Base.bpsi, .bpdi, .bp] then s.segs.ss else s.segs.ds := by
  cases b <;> rfl

/-- Settles O20: the offsets are by definition, the segment by the override or the base. -/
theorem effectiveAddress : Obligations.EffectiveAddress := by
  intro s b d8 d a
  refine ⟨⟨rfl, rfl, rfl, rfl, rfl, rfl, rfl, rfl⟩, ⟨rfl, rfl, rfl, rfl⟩,
    fun r m h => State.eaSeg_of_override h m, fun h => ⟨State.eaSeg_of_no_override h _, ?_⟩⟩
  intro m hm
  have hd : m.defaultSeg = if b.usesBp then .ss else .ds := by
    simp only [List.mem_cons, List.not_mem_nil, or_false] at hm
    obtain rfl | rfl | rfl := hm <;> rfl
  rw [State.eaSeg_of_no_override h, hd, s.sreg_base_default]

end Sys2Proof.Machine

namespace Sys2Proof.Machine

/-! Every step keeps the invariant. Memory: no instruction leaves the canonical form (20_memory.md R71).
Controllers: only IN and OUT reach them inside an instruction, and interrupt entry delivers a line that
the arbiter gives, so of an initialized controller (60_exceptions.md R524, R528). -/

/-! ## Memory through the shared operations -/

@[simp] theorem State.undefs_mem (s : State) (ks : List Flag) : (s.undefs ks).mem = s.mem := by
  induction ks generalizing s with
  | nil => rfl
  | cons k ks ih => exact (ih (s.undef k)).trans (s.undef_mem k)

@[simp] theorem State.jumpIf_mem (s : State) (c : Bool) (d : Byte) : (s.jumpIf c d).mem = s.mem := by
  unfold State.jumpIf
  split <;> rfl

theorem State.binary_wf {op : BinaryOp} {s : State}
    (hop : ∀ {n : Nat} (a b : BitVec n), (op a b s).2.mem = s.mem) (hw : s.mem.wf = true)
    (p : Pair) : (s.binary op p).mem.wf = true := by
  cases p with
  | b o1 o2 => exact State.put8_wf _ o1 _ (by rwa [hop])
  | w o1 o2 => exact State.put16_wf _ o1 _ (by rwa [hop])

theorem State.compare_wf {op : BinaryOp} {s : State}
    (hop : ∀ {n : Nat} (a b : BitVec n), (op a b s).2.mem = s.mem) (hw : s.mem.wf = true)
    (p : Pair) : (s.compare op p).mem.wf = true := by
  cases p with
  | b o1 o2 => exact (hop _ _).symm ▸ hw
  | w o1 o2 => exact (hop _ _).symm ▸ hw

theorem State.unary_wf {op : UnaryOp} {s : State}
    (hop : ∀ {n : Nat} (a : BitVec n), (op a s).2.mem = s.mem) (hw : s.mem.wf = true)
    (o : Single) : (s.unary op o).mem.wf = true := by
  cases o with
  | b o1 => exact State.put8_wf _ o1 _ (by rwa [hop])
  | w o1 => exact State.put16_wf _ o1 _ (by rwa [hop])

/-- A bitwise operation draws at most an undefined flag (41_alu.md R224). -/
theorem logicResult_mem {n : Nat} (r : BitVec n) (s : State) : (logicResult r s).2.mem = s.mem :=
  (logicResult_flagsOnly r s).mem

/-- Any shift or rotate: the operand, then flags only (42_shift_rotate.md R281). -/
theorem State.shift_wf {s : State} (hw : s.mem.wf = true) (op : ShiftOp) (f : ShiftForm) :
    (s.shift op f).mem.wf = true := by
  have after {n : Nat} {t : State} (ht : t.mem.wf = true) (k : Nat) (v : BitVec n) (c : Bool) :
      (t.shiftFlags op k v c).mem.wf = true := by
    rwa [(t.shiftFlags_spec op k v c).1.mem]
  by_cases hk : s.count f.op.2 = 0
  · rwa [s.shift_zero op f hk]
  · rw [State.shift, if_neg hk]
    cases f with
    | rm8 rm n => exact after (s.put8_wf _ _ hw) _ _ _
    | rm16 rm n => exact after (s.put16_wf _ _ hw) _ _ _

/-- The repeat loop keeps the canonical form if every iteration does (45_string.md R391). -/
theorem repLoop_wf {iter : State → State} (hi : ∀ t, t.mem.wf = true → (iter t).mem.wf = true)
    (c : Bool) (k : Nat) {s : State} (hw : s.mem.wf = true) :
    (repLoop iter c k s).mem.wf = true := by
  induction k generalizing s with
  | zero => exact hw
  | succ k ih =>
    rw [repLoop_succ]
    split
    · exact hi s hw
    · exact ih (s := (iter s).countDown) (hi s hw)

theorem State.string_wf {iter : State → State}
    (hi : ∀ t, t.mem.wf = true → (iter t).mem.wf = true) (c : Bool) {s : State}
    (hw : s.mem.wf = true) : (s.string iter c).mem.wf = true := by
  unfold State.string
  split
  · exact hi s hw
  · exact hi s hw
  · exact repLoop_wf hi c _ hw
  · exact repLoop_wf hi c _ hw

/-- A division that completes leaves quotient and remainder in AX, or in AX and DX, or enters through
vector 0 (43_muldiv_bcd.md R312 to R314). -/
theorem division_cases {f : UnForm} {s t : State}
    (h : execDiv f s = .next t ∨ execIdiv f s = .next t) :
    (∃ q r, t = s.quotient8 q r) ∨ (∃ q r, t = s.quotient16 q r) ∨ t = s.divideError := by
  cases f with
  | rm8 rm =>
    rcases h with h | h <;> simp only [execDiv, execIdiv, UnForm.op] at h <;> split at h <;> cases h
    exacts [.inl ⟨_, _, rfl⟩, .inr (.inr rfl), .inl ⟨_, _, rfl⟩, .inr (.inr rfl)]
  | rm16 rm =>
    rcases h with h | h <;> simp only [execDiv, execIdiv, UnForm.op] at h <;> split at h <;> cases h
    exacts [.inr (.inl ⟨_, _, rfl⟩), .inr (.inr rfl), .inr (.inl ⟨_, _, rfl⟩), .inr (.inr rfl)]

theorem division_wf {f : UnForm} {s t : State} (hw : s.mem.wf = true)
    (h : execDiv f s = .next t ∨ execIdiv f s = .next t) : t.mem.wf = true := by
  obtain ⟨q, r, rfl⟩ | ⟨q, r, rfl⟩ | rfl := division_cases h
  · simpa [State.quotient8] using hw
  · simpa [State.quotient16] using hw
  · exact s.vector_wf 0 .software hw

theorem execMov_wf {f : MovForm} {s t : State} (hw : s.mem.wf = true) (h : execMov f s = .next t) :
    t.mem.wf = true := by
  unfold execMov at h
  split at h <;> cases h
  · exact s.put8_wf _ _ hw
  · exact s.put16_wf _ _ hw

theorem execXchg_wf {f : XchgForm} {s t : State} (hw : s.mem.wf = true)
    (h : execXchg f s = .next t) : t.mem.wf = true := by
  unfold execXchg at h
  split at h <;> cases h
  · exact State.put8_wf _ _ _ (s.put8_wf _ _ hw)
  · exact State.put16_wf _ _ _ (s.put16_wf _ _ hw)

/-! ## Port accesses -/

/-- What a port access keeps: memory, and the in-service invariant of each controller. -/
structure PortKeeps (s t : State) : Prop where
  mem : t.mem = s.mem
  pic : ∀ k, (s.pic k).Inv → (t.pic k).Inv

theorem PortKeeps.refl (s : State) : PortKeeps s s := ⟨rfl, fun _ h => h⟩

theorem PortKeeps.trans {s t u : State} (h : PortKeeps s t) (k : PortKeeps t u) : PortKeeps s u :=
  ⟨k.mem.trans h.mem, fun c hc => k.pic c (h.pic c hc)⟩

theorem DeviceKeeps.portKeeps {s t : State} (h : DeviceKeeps s t) : PortKeeps s t where
  mem := h.mem
  pic k hk := by
    cases k with
    | master => exact hk.of_sameButRequests h.master
    | slave => exact hk.of_sameButRequests h.slave

theorem State.setPic_portKeeps (s : State) {c : Ctl} {p : Pic} (hp : (s.pic c).Inv → p.Inv) :
    PortKeeps s (s.setPic c p) where
  mem := s.setPic_mem c p
  pic k hk := by
    cases c <;> cases k
    · exact hp hk
    · exact hk
    · exact hk
    · exact hp hk

/-- A command or data byte written to a controller (60_exceptions.md R541). -/
theorem State.ctlWrite_portKeeps (s : State) (c : Ctl) (p : Nat) (v : Byte) :
    PortKeeps s (s.ctlWrite c p v) := by
  unfold State.ctlWrite
  split
  · exact s.setPic_portKeeps (Pic.writeCommand_inv _ v)
  · split
    · exact s.setPic_portKeeps (Pic.writeData_inv _ v)
    · exact .refl s

theorem State.devReadByte_portKeeps (s : State) (d : Device) (p : Nat) :
    PortKeeps s (s.devReadByte d p).2 := by
  cases d with
  | pic c => exact .refl s
  | external => exact (State.deviceCall_keeps _ s).portKeeps

theorem State.devWriteByte_portKeeps (s : State) (d : Device) (p : Nat) (v : Byte) :
    PortKeeps s (s.devWriteByte d p v) := by
  cases d with
  | pic c => exact s.ctlWrite_portKeeps c p v
  | external => exact (State.deviceCall_keeps _ s).portKeeps

theorem State.devReadWord_portKeeps (s : State) (d : Device) (p : Nat) :
    PortKeeps s (s.devReadWord d p).2 := by
  have twice : PortKeeps s (s.devReadTwice d p).2 :=
    (s.devReadByte_portKeeps d p).trans (State.devReadByte_portKeeps _ d (p + 1))
  unfold State.devReadWord
  split
  · exact (State.deviceCall_keeps _ s).portKeeps
  · exact twice
  · exact twice

theorem State.devWriteWord_portKeeps (s : State) (d : Device) (p : Nat) (v : Word) :
    PortKeeps s (s.devWriteWord d p v) := by
  have twice : PortKeeps s (s.devWriteTwice d p v) :=
    (s.devWriteByte_portKeeps d p _).trans (State.devWriteByte_portKeeps _ d (p + 1) _)
  unfold State.devWriteWord
  split
  · exact (State.deviceCall_keeps _ s).portKeeps
  · exact twice
  · exact twice

theorem State.setReg16_portKeeps (s : State) (r : Reg16) (v : Word) :
    PortKeeps s (s.setReg16 r v) := ⟨rfl, fun _ h => h⟩

theorem execIn_portKeeps {f : PortForm} {s t : State} (h : execIn f s = .next t) :
    PortKeeps s t := by
  cases f with
  | byteImm | byteDx =>
    simp only [execIn, State.inByte] at h
    split at h <;> cases h
    exact (s.devReadByte_portKeeps _ _).trans (State.setReg16_portKeeps _ _ _)
  | wordImm | wordDx =>
    simp only [execIn, State.inWord] at h
    split at h <;> cases h
    exact (s.devReadWord_portKeeps _ _).trans (State.setReg16_portKeeps _ _ _)

theorem execOut_portKeeps {f : PortForm} {s t : State} (h : execOut f s = .next t) :
    PortKeeps s t := by
  cases f with
  | byteImm | byteDx =>
    simp only [execOut, State.outByte] at h
    split at h <;> cases h
    exact s.devWriteByte_portKeeps _ _ _
  | wordImm | wordDx =>
    simp only [execOut, State.outWord] at h
    split at h <;> cases h
    exact s.devWriteWord_portKeeps _ _ _

/-! ## Every instruction -/

/-- An instruction that completes keeps memory canonical. -/
theorem exec_mem_wf {i : Instr} {s t : State} (hw : s.mem.wf = true) (h : exec i s = .next t) :
    t.mem.wf = true := by
  cases i with
  | add | adc | sub | sbb => cases h; exact State.binary_wf (fun _ _ => rfl) hw _
  | or | and | xor => cases h; exact State.binary_wf (fun _ _ => logicResult_mem _ s) hw _
  | cmp => cases h; exact State.compare_wf (fun _ _ => rfl) hw _
  | test => cases h; exact State.compare_wf (fun _ _ => logicResult_mem _ s) hw _
  | inc | dec | neg | not => cases h; exact State.unary_wf (fun _ => rfl) hw _
  | mul f | imul f => cases f <;> cases h <;> exact hw
  | div => exact division_wf hw (.inl h)
  | idiv => exact division_wf hw (.inr h)
  | daa | das => cases h; simpa [State.decimalResult] using hw
  | aaa | aas =>
    simp only [exec, execAaa, execAas] at h
    split at h <;> cases h <;> simpa [State.asciiResult] using hw
  | rol | ror | rcl | rcr | shl | shr | sar => cases h; exact State.shift_wf hw _ _
  | mov => exact execMov_wf hw h
  | xchg => exact execXchg_wf hw h
  | push | pushf | call | callInd => cases h; exact s.push16_wf _ hw
  | callFar | callFarInd => cases h; exact State.push16_wf _ _ (s.push16_wf _ hw)
  | pop => cases h; exact State.put16_wf s.drop16 _ _ hw
  | jo | jno | jb | jnb | jz | jnz | jbe | ja | js | jns | jp | jnp | jl | jge | jle | jg | jcxz
  | loop | loopz | loopnz => cases h; rwa [State.jumpIf_mem]
  | movsb | stosb =>
    cases h
    refine State.string_wf (fun t ht => ?_) _ hw
    exact t.write8_wf _ _ _ ht
  | movsw | stosw =>
    cases h
    refine State.string_wf (fun t ht => ?_) _ hw
    exact t.write16_wf _ _ _ ht
  | cmpsb | cmpsw | lodsb | lodsw | scasb | scasw =>
    cases h
    refine State.string_wf (fun t ht => ?_) _ hw
    exact ht
  | int | int3 => cases h; exact s.vector_wf _ _ hw
  | inPort => exact (execIn_portKeeps h).mem ▸ hw
  | outPort => exact (execOut_portKeeps h).mem ▸ hw
  | popf | lahf | sahf | xlat | lea | lds | les | cbw | cwd | jmp | jmpInd | jmpFar | jmpFarInd | ret
  | retf | iret | hlt | clc | stc | cmc | cld | std | cli | sti | esc | wait | nop | prefixEs
  | prefixCs | prefixSs | prefixDs | prefixLock | prefixRepne | prefixRep => cases h; exact hw
  | escape0F | undocumented | reserved | into | aam | aad | leaReg | lesReg | ldsReg | callFarReg
  | jmpFarReg => cases h

theorem WritesWithin.pic {w : WriteScope} {s t : State} (h : WritesWithin w s t)
    (hd : w.devices = false) (k : Ctl) : t.pic k = s.pic k := by
  obtain ⟨hm, hs, -⟩ := h.devices hd
  cases k with
  | master => exact hm
  | slave => exact hs

/-- An instruction that completes keeps the in-service invariant of each controller. -/
theorem exec_picInv {i : Instr} {s t : State} (h : exec i s = .next t) (k : Ctl)
    (hk : (s.pic k).Inv) : (t.pic k).Inv := by
  cases i with
  | inPort => exact (execIn_portKeeps h).pic k hk
  | outPort => exact (execOut_portKeeps h).pic k hk
  | _ =>
    have keeps := (exec_writesWithin h).pic (writeScope_devices nofun nofun) k
    exact keeps ▸ hk

/-- The invariant but for the prefix record, which an instruction may find filled. -/
theorem exec_noPrefix_inv {i : Instr} {s t : State} (hs : s.noPrefix.Inv)
    (h : exec i s = .next t) : t.noPrefix.Inv where
  mem := exec_mem_wf (s := s) (t := t) hs.mem h
  segOverride := rfl
  rep := rfl
  ports := (exec_writesWithin h).ports ▸ hs.ports
  master := exec_picInv h .master hs.master
  slave := exec_picInv h .slave hs.slave

/-! ## The step -/

/-- The next state of a prefix walk: an item ran, and it was a prefix after which the walk went on, or
the instruction itself, which was then retired (30_encoding.md R102). -/
theorem runItems_cases {k : Nat} {s t : State} (h : runItems (k + 1) s = .next t) :
    ∃ i n u, exec i (s.advance n) = .next u ∧
      (runItems k u = .next t ∨ ∃ c, t = u.retire c) := by
  simp only [runItems, runItem] at h
  split at h
  · cases h
  · rename_i i n _
    cases hu : exec i (s.advance n) with
    | next u =>
      rw [hu] at h
      refine ⟨i, n, u, hu, ?_⟩
      split at h
      · exact .inl h
      · cases h; exact .inr ⟨_, rfl⟩
    | fault | refused => rw [hu] at h; split at h <;> cases h

theorem State.retire_inv {s : State} (h : s.noPrefix.Inv) (c : BitVec 32) : (s.retire c).Inv :=
  ⟨h.mem, rfl, rfl, h.ports, h.master, h.slave⟩

theorem State.Inv.noPrefix {s : State} (h : s.Inv) : s.noPrefix.Inv :=
  { h with segOverride := rfl, rep := rfl }

theorem State.advance_noPrefix_inv {s : State} (h : s.noPrefix.Inv) (n : Nat) :
    (s.advance n).noPrefix.Inv :=
  ⟨h.mem, rfl, rfl, h.ports, h.master, h.slave⟩

theorem runItems_inv {k : Nat} {s t : State} (hs : s.noPrefix.Inv) (h : runItems k s = .next t) :
    t.Inv := by
  induction k generalizing s with
  | zero => cases h
  | succ k ih =>
    obtain ⟨i, n, u, hu, hrest⟩ := runItems_cases h
    have inv : u.noPrefix.Inv := exec_noPrefix_inv (State.advance_noPrefix_inv hs n) hu
    obtain hwalk | ⟨c, rfl⟩ := hrest
    · exact ih inv hwalk
    · exact State.retire_inv inv c

theorem State.Inv.setPic {s : State} {c : Ctl} {p : Pic} (h : s.Inv) (hp : p.Inv) :
    (s.setPic c p).Inv := by
  cases c with
  | master => exact { h with master := hp }
  | slave => exact { h with slave := hp }

/-- A line that the arbiter gives is delivered in an initialized controller, and where it is a slave's
line, the cascade line in the initialized master (60_exceptions.md R524, R528). -/
theorem State.Inv.deliver {s : State} {line : Nat} (h : s.Inv)
    (hl : s.nextInterrupt = some line) : (s.deliver line).Inv := by
  obtain ⟨hm, h15, hs⟩ := getNextInterrupt_ready hl
  have acked : DeviceKeeps s (s.ackLine line) := s.lineCall_keeps (.ack ⟨line, by omega⟩)
  have inv : (s.ackLine line).Inv := h.of_deviceKeeps acked
  have hm' : (s.ackLine line).master.initStep = .ready :=
    (congrArg Pic.initStep acked.master :).trans hm
  have master (i : Nat) : ((s.ackLine line).master.requestService i).Inv :=
    Pic.requestService_inv _ i hm' inv.master
  simp only [State.deliver]
  split
  · exact inv.setPic (c := .master) (master line)
  · rename_i h7
    have hs' : (s.ackLine line).slave.initStep = .ready :=
      (congrArg Pic.initStep acked.slave :).trans (hs (by omega))
    have inv' := inv.setPic (c := .slave)
      (Pic.requestService_inv _ (line - 8) hs' inv.slave)
    split
    · rename_i k _
      exact inv'.setPic (c := .master) (master k)
    · exact inv'

/-- Interrupt entry changes neither controller and no port slot (60_exceptions.md R504). -/
theorem State.Inv.vector {s : State} (h : s.Inv) (n : Nat) (k : VectorKind) :
    (s.vector n k).Inv := by
  have mem := s.vector_wf n k h.mem
  cases k <;> exact { h with mem }

/-- Settles O12: a step delivers a line of the arbiter and enters through its vector, or walks the
prefixes and runs one instruction; each keeps all but the prefix record, which the step empties. -/
theorem stepKeepsInv : Obligations.StepKeepsInv := by
  intro s t hs h
  simp only [step, stepCore] at h
  split at h
  · rename_i line hline
    obtain ⟨-, hl⟩ : s.flags.IF = true ∧ s.nextInterrupt = some line := by
      simpa [State.interruptTaken] using hline
    cases h
    exact State.retire_inv ((hs.deliver hl).vector line .hardware).noPrefix _
  · exact runItems_inv hs.noPrefix.noPrefix h

end Sys2Proof.Machine

namespace Sys2Proof.Laws.RoundTrip

/-! ## Decoding what the encoder writes (30_encoding.md R101 to R114) -/

/-- One lemma per constructor, in the order of Syntax.lean. -/
theorem decode_encode (i : Instr) : Statement i := by
  cases i
  exacts [
    -- arithmetic and logic
    add _, or _, adc _, sbb _, and _, sub _, xor _, cmp _, test _, inc _, dec _, not _, neg _,
    mul _, imul _, div _, idiv _, daa, das, aaa, aas,
    -- shifts and rotates
    rol _, ror _, rcl _, rcr _, shl _, shr _, sar _,
    -- data transfer
    mov _, xchg _, push _, pop _, pushf, popf, lahf, sahf, xlat, lea _ _, lds _ _, les _ _, cbw, cwd,
    -- control transfer
    jmp _, jmpFar _ _, jmpInd _, jmpFarInd _, jo _, jno _, jb _, jnb _, jz _, jnz _, jbe _, ja _,
    js _, jns _, jp _, jnp _, jl _, jge _, jle _, jg _, loop _, loopz _, loopnz _, jcxz _,
    call _, callFar _ _, callInd _, callFarInd _, ret _, retf _,
    -- strings
    movsb, movsw, cmpsb, cmpsw, stosb, stosw, lodsb, lodsw, scasb, scasw,
    -- system
    int _, int3, iret, hlt, clc, stc, cmc, cld, std, cli, sti, esc _ _ _, wait, nop,
    -- port input and output
    inPort _, outPort _,
    -- the rows of format PREFIX
    prefixEs, prefixCs, prefixSs, prefixDs, prefixLock, prefixRepne, prefixRep,
    -- refused encodings
    escape0F, undocumented _, reserved _ _, into, aam, aad, leaReg _ _, lesReg _ _, ldsReg _ _,
    callFarReg _, jmpFarReg _]

end Sys2Proof.Laws.RoundTrip

namespace Sys2Proof

/-- Settles O1: the round trip of each constructor. -/
theorem decodeOfEncode : Obligations.DecodeOfEncode := Laws.RoundTrip.decode_encode

/-! ## Encoding what the decoder read (30_encoding.md R104 to R128)

One lemma for each tail that an opcode can have, then one for each row of the opcode map. -/

/-- After the opcode byte `op`, `d` reads from `bs` a well-formed item whose encoding, with the bytes
left, is `op` and `bs` again. -/
def ReadsBack (op : Byte) (bs : List Byte) (d : List Byte → Decoded) : Prop :=
  ∃ i rest, d bs = .ok (i, rest) ∧ i.wf = true ∧ encode i ++ rest = op :: bs

/-- `i` is well formed and its encoding is `bs`. -/
def Spells (bs : List Byte) (i : Instr) : Prop := i.wf = true ∧ encode i = bs

/-! The fields of the ModRM byte and the bytes of a word, put together again. -/

theorem mkModRm_fields : ∀ b : Byte, mkModRm (modOf b) (regOf b) (rmOf b) = b := by decide

theorem wordBytes_mkWord (lo hi : Byte) : wordBytes (mkWord lo hi) = [lo, hi] := by
  simp [wordBytes]

theorem Reg16.num_ofNum : ∀ n : BitVec 3, (Reg16.ofNum n).num = n := by decide
theorem Reg8.num_ofNum : ∀ n : BitVec 3, (Reg8.ofNum n).num = n := by decide
theorem Base.num_ofNum : ∀ n : BitVec 3, (Base.ofNum n).num = n := by decide

/-- The ignored bit and the segment register of `8C` and `8E` make up the `reg` field. -/
theorem sreg_join : ∀ r : BitVec 3, r.extractLsb' 2 1 ++ (SReg.ofNum (r.extractLsb' 0 2)).num = r := by
  decide

/-! An operand whose width is not known yet. -/

def Ea.wf : Ea → Bool
  | .reg _ => true
  | .mem m => m.wf

/-- The ModRM byte and displacement of the operand (R109). -/
def encodeEa (reg : BitVec 3) : Ea → List Byte
  | .reg n => [mkModRm 3 reg n]
  | .mem m => encodeMem reg m

theorem Ea.rm8_wf (ea : Ea) (h : ea.wf = true) : ea.rm8.wf = true := by
  cases ea with
  | reg => rfl
  | mem => exact h

theorem Ea.rm16_wf (ea : Ea) (h : ea.wf = true) : ea.rm16.wf = true := by
  cases ea with
  | reg => rfl
  | mem => exact h

theorem Ea.encode_rm8 (ea : Ea) {k reg : BitVec 3} (h : k = reg) :
    encodeRm8 k ea.rm8 = encodeEa reg ea := by
  cases ea <;> simp [Ea.rm8, encodeRm8, encodeEa, Reg8.num_ofNum, h]

theorem Ea.encode_rm16 (ea : Ea) {k reg : BitVec 3} (h : k = reg) :
    encodeRm16 k ea.rm16 = encodeEa reg ea := by
  cases ea <;> simp [Ea.rm16, encodeRm16, encodeEa, Reg16.num_ofNum, h]

/-- The operand read after a ModRM byte encodes to the bytes read, and two bytes are left for an
immediate. -/
theorem decodeEa_readsBack (m : Byte) {bs : List Byte} (hb : 4 ≤ bs.length) :
    ∃ ea x y rest, decodeEa m bs = .ok (ea, x :: y :: rest) ∧ ea.wf = true ∧
      encodeEa (regOf m) ea ++ x :: y :: rest = m :: bs := by
  obtain ⟨a, b, c, d, t, rfl⟩ : ∃ a b c d t, bs = a :: b :: c :: d :: t := by
    match bs, hb with
    | a :: b :: c :: d :: t, _ => exact ⟨a, b, c, d, t, rfl⟩
  have join {k : BitVec 2} (hk : modOf m = k) : mkModRm k (regOf m) (rmOf m) = m := by
    rw [← hk, mkModRm_fields]
  have modes : ∀ k : BitVec 2, k = 0#2 ∨ k = 1#2 ∨ k = 2#2 ∨ k = 3#2 := by decide
  rcases modes (modOf m) with e | e | e | e
  · by_cases h6 : rmOf m = 6#3
    · refine ⟨.mem (.direct (mkWord a b)), c, d, t, by simp [decodeEa, e, h6], rfl, ?_⟩
      simp [encodeEa, encodeMem, wordBytes_mkWord, ← h6, join e]
    · refine ⟨.mem (.base0 (.ofNum (rmOf m))), a, b, c :: d :: t, by simp [decodeEa, e, h6], ?_, ?_⟩
      · have hbp : ∀ n : BitVec 3, n ≠ 6#3 → Base.ofNum n ≠ .bp := by decide
        simpa [Ea.wf, MemRef.wf] using hbp _ h6
      · simp [encodeEa, encodeMem, Base.num_ofNum, join e]
  · refine ⟨.mem (.base8 (.ofNum (rmOf m)) a), b, c, d :: t, by simp [decodeEa, e], rfl, ?_⟩
    simp [encodeEa, encodeMem, Base.num_ofNum, join e]
  · refine ⟨.mem (.base16 (.ofNum (rmOf m)) (mkWord a b)), c, d, t, by simp [decodeEa, e], rfl, ?_⟩
    simp [encodeEa, encodeMem, Base.num_ofNum, wordBytes_mkWord, join e]
  · refine ⟨.reg (rmOf m), a, b, c :: d :: t, by simp [decodeEa, e], rfl, ?_⟩
    simp [encodeEa, join e]

/-- An instruction whose bytes after the opcode are a byte operand. -/
theorem spells_rm8 {op : Byte} {k r : BitVec 3} {ea : Ea} {i : Instr} (h : ea.wf = true) (hk : k = r)
    (hw : i.wf = ea.rm8.wf) (he : encode i = op :: encodeRm8 k ea.rm8) :
    Spells (op :: encodeEa r ea) i :=
  ⟨hw.trans (ea.rm8_wf h), he.trans (congrArg _ (ea.encode_rm8 hk))⟩

/-- An instruction whose bytes after the opcode are a word operand. -/
theorem spells_rm16 {op : Byte} {k r : BitVec 3} {ea : Ea} {i : Instr} (h : ea.wf = true) (hk : k = r)
    (hw : i.wf = ea.rm16.wf) (he : encode i = op :: encodeRm16 k ea.rm16) :
    Spells (op :: encodeEa r ea) i :=
  ⟨hw.trans (ea.rm16_wf h), he.trans (congrArg _ (ea.encode_rm16 hk))⟩

/-! ### The tails -/

section Tails

variable {op m : Byte} {r : BitVec 3} {bs : List Byte}

theorem plain_readsBack {i : Instr} (hw : i.wf = true) (he : encode i = [op]) :
    ReadsBack op bs (plain i) :=
  ⟨i, bs, rfl, hw, by rw [he]; rfl⟩

theorem withByte_readsBack {f : Byte → Instr} (hf : ∀ v, Spells [op, v] (f v)) :
    ReadsBack op (m :: bs) (withByte f) :=
  ⟨f m, bs, rfl, (hf m).1, by rw [(hf m).2]; rfl⟩

/-- The `reg` field chooses a slot that the group leaves empty: the item is the two bytes. -/
theorem group_reserved_readsBack {choose : Nat → Option (List Byte → Decoded)} (hr : regOf m = r)
    (hc : choose r.toNat = none) (hs : reservedSlot op m = true) :
    ReadsBack op (m :: bs) (group op choose) :=
  ⟨.reserved op m, bs, by simp [group, hr, hc], hs, rfl⟩

theorem group_readsBack {choose : Nat → Option (List Byte → Decoded)} {d : List Byte → Decoded}
    (hr : regOf m = r) (hc : choose r.toNat = some d) (h : ReadsBack op (m :: bs) d) :
    ReadsBack op (m :: bs) (group op choose) := by
  simpa [ReadsBack, group, hr, hc] using h

variable (hb : 4 ≤ bs.length)

include hb

theorem withWord_readsBack {f : Word → Instr} (hf : ∀ w, Spells (op :: wordBytes w) (f w)) :
    ReadsBack op (m :: bs) (withWord f) := by
  match bs, hb with
  | a :: t, _ =>
    obtain ⟨hw, he⟩ := hf (mkWord m a)
    exact ⟨_, t, rfl, hw, by simp [he, wordBytes_mkWord]⟩

theorem withFar_readsBack {f : Word → Word → Instr}
    (hf : ∀ o g, Spells (op :: (wordBytes o ++ wordBytes g)) (f o g)) :
    ReadsBack op (m :: bs) (withFar f) := by
  match bs, hb with
  | a :: b :: c :: t, _ =>
    obtain ⟨hw, he⟩ := hf (mkWord m a) (mkWord b c)
    exact ⟨_, t, rfl, hw, by simp [he, wordBytes_mkWord]⟩

theorem withRm_readsBack {f : BitVec 3 → Ea → Instr} (hr : regOf m = r)
    (hf : ∀ ea : Ea, ea.wf = true → Spells (op :: encodeEa r ea) (f r ea)) :
    ReadsBack op (m :: bs) (withRm f) := by
  subst hr
  obtain ⟨ea, x, y, rest, hd, hea, hm⟩ := decodeEa_readsBack m hb
  obtain ⟨hw, he⟩ := hf ea hea
  exact ⟨_, _, by rw [withRm, hd], hw, by rw [he, List.cons_append, hm]⟩

theorem withRmByte_readsBack {f : BitVec 3 → Ea → Byte → Instr} (hr : regOf m = r)
    (hf : ∀ ea : Ea, ea.wf = true → ∀ v, Spells (op :: (encodeEa r ea ++ [v])) (f r ea v)) :
    ReadsBack op (m :: bs) (withRmByte f) := by
  subst hr
  obtain ⟨ea, x, y, rest, hd, hea, hm⟩ := decodeEa_readsBack m hb
  obtain ⟨hw, he⟩ := hf ea hea x
  exact ⟨_, y :: rest, by rw [withRmByte, hd]; rfl, hw, by rw [he, ← hm]; simp⟩

theorem withRmWord_readsBack {f : BitVec 3 → Ea → Word → Instr} (hr : regOf m = r)
    (hf : ∀ ea : Ea, ea.wf = true → ∀ w, Spells (op :: (encodeEa r ea ++ wordBytes w)) (f r ea w)) :
    ReadsBack op (m :: bs) (withRmWord f) := by
  subst hr
  obtain ⟨ea, x, y, rest, hd, hea, hm⟩ := decodeEa_readsBack m hb
  obtain ⟨hw, he⟩ := hf ea hea (mkWord x y)
  exact ⟨_, rest, by rw [withRmWord, hd]; rfl, hw, by rw [he, ← hm]; simp [wordBytes_mkWord]⟩

/-- A memory-only operand: with a register in its place the item is the opcode and the ModRM byte. -/
theorem withMem_readsBack {f : BitVec 3 → MemRef → Instr} {g : BitVec 3 → BitVec 3 → Instr}
    (hr : regOf m = r) (hf : ∀ x : MemRef, x.wf = true → Spells (op :: encodeMem r x) (f r x))
    (hg : ∀ n, Spells [op, mkModRm 3 r n] (g r n)) :
    ReadsBack op (m :: bs) (withMem f g) := by
  subst hr
  obtain ⟨ea, x, y, rest, hd, hea, hm⟩ := decodeEa_readsBack m hb
  cases ea with
  | mem a =>
    obtain ⟨hw, he⟩ := hf a hea
    exact ⟨_, _, by rw [withMem, hd], hw, by rw [he, ← hm]; rfl⟩
  | reg n =>
    have hn : rmOf m = n := by rw [← (List.cons.inj hm).1, rmOf_mkModRm]
    obtain ⟨hw, he⟩ := hg n
    exact ⟨_, _, by rw [withMem, hd, hn], hw, by rw [he, ← hm]; rfl⟩

end Tails

/-! ### The blocks and groups -/

theorem aluOp_spells (n : BitVec 3) {f : AluForm} {bs : List Byte} (hw : f.wf = true)
    (he : encodeAlu n f = bs) : Spells bs (aluOp n.toNat f) := by
  rcases three_bits n with e | e | e | e | e | e | e | e <;> subst e <;> exact ⟨hw, he⟩

theorem shiftOp_spells (n : BitVec 3) {c : ShiftForm → Instr} (hc : shiftOp n.toNat = some c)
    {f : ShiftForm} {bs : List Byte} (hw : f.wf = true) (he : encodeShift n f = bs) :
    Spells bs (c f) := by
  rcases three_bits n with e | e | e | e | e | e | e | e <;> subst e <;> cases hc <;> exact ⟨hw, he⟩

/-- Slot 6 of the shift group is reserved (42_shift_rotate.md R289). -/
theorem reservedSlot_shift {op m : Byte}
    (hop : op ∈ [0xC0#8, 0xC1#8, 0xD0#8, 0xD1#8, 0xD2#8, 0xD3#8]) (hm : modrmReg m = 6#3) :
    reservedSlot op m = true := by
  simp only [List.mem_cons, List.not_mem_nil, or_false] at hop
  simp [reservedSlot, hm, or_assoc, hop]

/-- A one-operand instruction of G3 that is not TEST (R123). -/
theorem unOp_spells (n : BitVec 3) (hn : 2 ≤ n.toNat) {f : UnForm} {bs : List Byte}
    (hw : f.wf = true) (he : encodeUn n f = bs) : Spells bs (unOp n.toNat f) := by
  rcases three_bits n with e | e | e | e | e | e | e | e <;> subst e
  · exact absurd hn (by decide)
  · exact absurd hn (by decide)
  all_goals exact ⟨hw, he⟩

/-- Slots 0 and 1 of G3 and G4 are special, the others alike (R123 to R125). -/
theorem slot_cases : ∀ r : BitVec 3, r = 0 ∨ r = 1 ∨ 2 ≤ r.toNat := by decide

theorem slotsG3B_un : ∀ {n : Nat}, 2 ≤ n →
    slotsG3B n = some (withRm fun _ ea => unOp n (.rm8 ea.rm8))
  | _ + 2, _ => rfl

theorem slotsG3W_un : ∀ {n : Nat}, 2 ≤ n →
    slotsG3W n = some (withRm fun _ ea => unOp n (.rm16 ea.rm16))
  | _ + 2, _ => rfl

theorem slotsG4_reserved : ∀ {n : Nat}, 2 ≤ n → slotsG4 n = none
  | _ + 2, _ => rfl

section Rows

variable {m : Byte} {bs : List Byte} (hb : 4 ≤ bs.length)

include hb

/-- The six columns of an operation in the ALU block (R226). -/
theorem decodeAlu_readsBack (n : BitVec 3) (k : Nat) (hk : k < 6) :
    ReadsBack (8 * n.setWidth 8 + BitVec.ofNat 8 k) (m :: bs) (decodeAlu n.toNat k) := by
  have column0 : 8 * n.setWidth 8 = 8 * n.setWidth 8 + BitVec.ofNat 8 0 := (BitVec.add_zero _).symm
  unfold decodeAlu
  match k, hk with
  | 0, _ =>
    exact withRm_readsBack hb rfl fun ea h => aluOp_spells n (ea.rm8_wf h)
      (congrArg₂ List.cons column0 (ea.encode_rm8 (Reg8.num_ofNum _)))
  | 2, _ =>
    exact withRm_readsBack hb rfl fun ea h => aluOp_spells n (ea.rm8_wf h)
      (congrArg (_ :: ·) (ea.encode_rm8 (Reg8.num_ofNum _)))
  | 1, _ | 3, _ =>
    exact withRm_readsBack hb rfl fun ea h => aluOp_spells n (ea.rm16_wf h)
      (congrArg (_ :: ·) (ea.encode_rm16 (Reg16.num_ofNum _)))
  | 4, _ => exact withByte_readsBack fun _ => aluOp_spells n rfl rfl
  | 5, _ => exact withWord_readsBack hb fun _ => aluOp_spells n rfl rfl
  | _ + 6, h => exact absurd h (by omega)

/-- Opcodes `00`..`3F` (R120). -/
theorem decodeBlock0_readsBack (hi lo : Nat) (hhi : hi < 8) (hlo : lo < 8) :
    ReadsBack (BitVec.ofNat 8 (8 * hi + lo)) (m :: bs) (decodeBlock0 hi lo) := by
  rcases Nat.lt_or_ge lo 6 with h | h
  · have alu := decodeAlu_readsBack (m := m) hb (BitVec.ofNat 3 hi) lo h
    have hn : (BitVec.ofNat 3 hi).toNat = hi := by simp; omega
    have hop : 8 * (BitVec.ofNat 3 hi).setWidth 8 + BitVec.ofNat 8 lo =
        BitVec.ofNat 8 (8 * hi + lo) := by
      apply BitVec.eq_of_toNat_eq
      simp
      omega
    rw [hn, hop] at alu
    simpa only [decodeBlock0, h, if_true] using alu
  · interval_cases lo <;> interval_cases hi <;> exact plain_readsBack rfl rfl

/-- Group G1, opcodes `80`..`83` (R121). -/
theorem decodeG1_readsBack (k : Nat) (hk : k < 4) :
    ReadsBack (BitVec.ofNat 8 (0x80 + k)) (m :: bs) (decodeG1 k) := by
  unfold decodeG1
  match k, hk with
  | 0, _ | 2, _ =>
    exact withRmByte_readsBack hb rfl fun ea h v => aluOp_spells _ (ea.rm8_wf h)
      (congrArg (_ :: · ++ [v]) (ea.encode_rm8 rfl))
  | 1, _ =>
    exact withRmWord_readsBack hb rfl fun ea h w => aluOp_spells _ (ea.rm16_wf h)
      (congrArg (_ :: · ++ wordBytes w) (ea.encode_rm16 rfl))
  | 3, _ =>
    exact withRmByte_readsBack hb rfl fun ea h v => aluOp_spells _ (ea.rm16_wf h)
      (congrArg (_ :: · ++ [v]) (ea.encode_rm16 rfl))
  | _ + 4, h => exact absurd h (by omega)

omit hb in
/-- Group G2 (R122, 42_shift_rotate.md R289): slot 6 is reserved, the others are shifts. -/
theorem decodeG2_readsBack {op : Byte} {d : (ShiftForm → Instr) → List Byte → Decoded}
    (hop : op ∈ [0xC0#8, 0xC1#8, 0xD0#8, 0xD1#8, 0xD2#8, 0xD3#8])
    (hd : ∀ c, (∀ f es, f.wf = true → encodeShift (regOf m) f = es → Spells es (c f)) →
      ReadsBack op (m :: bs) (d c)) :
    ReadsBack op (m :: bs) (decodeG2 op d) := by
  cases hc : shiftOp (regOf m).toNat with
  | none =>
    have six : ∀ n : BitVec 3, shiftOp n.toNat = none → n = 6#3 := by decide
    exact group_reserved_readsBack rfl (by rw [hc]; rfl) (reservedSlot_shift hop (six _ hc))
  | some c => exact group_readsBack rfl (by rw [hc]; rfl) (hd c fun f es => shiftOp_spells _ hc)

/-- Group G3B, opcode `F6` (R123). -/
theorem decodeG3B_readsBack : ReadsBack 0xF6 (m :: bs) decodeG3B := by
  rcases slot_cases (regOf m) with e | e | hn
  · exact group_readsBack e rfl (withRmByte_readsBack hb e fun ea h v =>
      ⟨ea.rm8_wf h, congrArg (0xF6 :: · ++ [v]) (ea.encode_rm8 rfl)⟩)
  · exact group_reserved_readsBack e rfl (by simp [reservedSlot, show modrmReg m = 1#3 from e])
  · exact group_readsBack rfl (slotsG3B_un hn) (withRm_readsBack hb rfl fun ea h =>
      unOp_spells _ hn (ea.rm8_wf h) (congrArg (0xF6 :: ·) (ea.encode_rm8 rfl)))

/-- Group G3W, opcode `F7` (R124). -/
theorem decodeG3W_readsBack : ReadsBack 0xF7 (m :: bs) decodeG3W := by
  rcases slot_cases (regOf m) with e | e | hn
  · exact group_readsBack e rfl (withRmWord_readsBack hb e fun ea h w =>
      ⟨ea.rm16_wf h, congrArg (0xF7 :: · ++ wordBytes w) (ea.encode_rm16 rfl)⟩)
  · exact group_reserved_readsBack e rfl (by simp [reservedSlot, show modrmReg m = 1#3 from e])
  · exact group_readsBack rfl (slotsG3W_un hn) (withRm_readsBack hb rfl fun ea h =>
      unOp_spells _ hn (ea.rm16_wf h) (congrArg (0xF7 :: ·) (ea.encode_rm16 rfl)))

/-- Group G4, opcode `FE` (R125). -/
theorem decodeG4_readsBack : ReadsBack 0xFE (m :: bs) decodeG4 := by
  rcases slot_cases (regOf m) with e | e | hn
  · exact group_readsBack e rfl (withRm_readsBack hb e fun _ h => spells_rm8 h rfl rfl rfl)
  · exact group_readsBack e rfl (withRm_readsBack hb e fun _ h => spells_rm8 h rfl rfl rfl)
  · exact group_reserved_readsBack rfl (slotsG4_reserved hn)
      (by simp [reservedSlot, show 2 ≤ (modrmReg m).toNat from hn])

/-- Group G5, opcode `FF` (R126): slots 3 and 5 are memory-only, slot 7 is reserved. -/
theorem decodeG5_readsBack : ReadsBack 0xFF (m :: bs) decodeG5 := by
  rcases three_bits (regOf m) with e | e | e | e | e | e | e | e
  · exact group_readsBack e rfl (withRm_readsBack hb e fun _ h => spells_rm16 h rfl rfl rfl)
  · exact group_readsBack e rfl (withRm_readsBack hb e fun _ h => spells_rm16 h rfl rfl rfl)
  · exact group_readsBack e rfl (withRm_readsBack hb e fun _ h => spells_rm16 h rfl rfl rfl)
  · exact group_readsBack e rfl (withMem_readsBack hb e (fun _ h => ⟨h, rfl⟩) fun _ => ⟨rfl, rfl⟩)
  · exact group_readsBack e rfl (withRm_readsBack hb e fun _ h => spells_rm16 h rfl rfl rfl)
  · exact group_readsBack e rfl (withMem_readsBack hb e (fun _ h => ⟨h, rfl⟩) fun _ => ⟨rfl, rfl⟩)
  · exact group_readsBack e rfl (withRm_readsBack hb e fun _ h => spells_rm16 h rfl rfl rfl)
  · exact group_reserved_readsBack e rfl (by simp [reservedSlot, show modrmReg m = 7#3 from e])

/-! ### The rows of the opcode map (R120) -/

/-- Opcodes `80`..`8F`. -/
theorem decode8_readsBack (lo : Nat) (hlo : lo < 16) :
    ReadsBack (BitVec.ofNat 8 (0x80 + lo)) (m :: bs) (decode8 lo) := by
  unfold decode8
  match lo, hlo with
  | 0, _ | 1, _ | 2, _ | 3, _ => exact decodeG1_readsBack hb _ (by decide)
  | 4, _ | 6, _ | 8, _ | 10, _ =>
    exact withRm_readsBack hb rfl fun _ h => spells_rm8 h (Reg8.num_ofNum _) rfl rfl
  | 5, _ | 7, _ | 9, _ | 11, _ =>
    exact withRm_readsBack hb rfl fun _ h => spells_rm16 h (Reg16.num_ofNum _) rfl rfl
  | 12, _ | 14, _ => exact withRm_readsBack hb rfl fun _ h => spells_rm16 h (sreg_join _) rfl rfl
  | 13, _ =>
    exact withMem_readsBack hb rfl
      (fun x h => ⟨h, congrArg (_ :: encodeMem · x) (Reg16.num_ofNum _)⟩) fun _ => ⟨rfl, rfl⟩
  | 15, _ => exact withRm_readsBack hb rfl fun _ h => spells_rm16 h rfl rfl rfl
  | _ + 16, h => exact absurd h (by omega)

/-- Opcodes `90`..`9F`. -/
theorem decode9_readsBack (lo : Nat) (hlo : lo < 16) :
    ReadsBack (BitVec.ofNat 8 (0x90 + lo)) (m :: bs) (decode9 lo) := by
  unfold decode9
  match lo, hlo with
  | 10, _ => exact withFar_readsBack hb fun _ _ => ⟨rfl, rfl⟩
  | 0, _ | 1, _ | 2, _ | 3, _ | 4, _ | 5, _ | 6, _ | 7, _ | 8, _ | 9, _ | 11, _ | 12, _ | 13, _
  | 14, _ | 15, _ => exact plain_readsBack rfl rfl
  | _ + 16, h => exact absurd h (by omega)

/-- Opcodes `A0`..`AF`. -/
theorem decodeA_readsBack (lo : Nat) (hlo : lo < 16) :
    ReadsBack (BitVec.ofNat 8 (0xA0 + lo)) (m :: bs) (decodeA lo) := by
  unfold decodeA
  match lo, hlo with
  | 0, _ | 1, _ | 2, _ | 3, _ | 9, _ => exact withWord_readsBack hb fun _ => ⟨rfl, rfl⟩
  | 8, _ => exact withByte_readsBack fun _ => ⟨rfl, rfl⟩
  | 4, _ | 5, _ | 6, _ | 7, _ | 10, _ | 11, _ | 12, _ | 13, _ | 14, _ | 15, _ =>
    exact plain_readsBack rfl rfl
  | _ + 16, h => exact absurd h (by omega)

/-- Opcodes `C0`..`CF`. -/
theorem decodeC_readsBack (lo : Nat) (hlo : lo < 16) :
    ReadsBack (BitVec.ofNat 8 (0xC0 + lo)) (m :: bs) (decodeC lo) := by
  unfold decodeC
  match lo, hlo with
  | 0, _ =>
    exact decodeG2_readsBack (by decide) fun _ hc =>
      withRmByte_readsBack hb rfl fun ea h v =>
        hc _ _ (ea.rm8_wf h) (congrArg (_ :: · ++ [v]) (ea.encode_rm8 rfl))
  | 1, _ =>
    exact decodeG2_readsBack (by decide) fun _ hc =>
      withRmByte_readsBack hb rfl fun ea h v =>
        hc _ _ (ea.rm16_wf h) (congrArg (_ :: · ++ [v]) (ea.encode_rm16 rfl))
  | 2, _ | 10, _ => exact withWord_readsBack hb fun _ => ⟨rfl, rfl⟩
  | 4, _ | 5, _ =>
    exact withMem_readsBack hb rfl
      (fun x h => ⟨h, congrArg (_ :: encodeMem · x) (Reg16.num_ofNum _)⟩) fun _ => ⟨rfl, rfl⟩
  | 6, _ =>
    exact withRmByte_readsBack hb rfl fun ea h v =>
      ⟨ea.rm8_wf h, congrArg (_ :: · ++ [v]) (ea.encode_rm8 rfl)⟩
  | 7, _ =>
    exact withRmWord_readsBack hb rfl fun ea h w =>
      ⟨ea.rm16_wf h, congrArg (_ :: · ++ wordBytes w) (ea.encode_rm16 rfl)⟩
  | 13, _ => exact withByte_readsBack fun _ => ⟨rfl, rfl⟩
  | 3, _ | 8, _ | 9, _ | 11, _ | 12, _ | 14, _ | 15, _ => exact plain_readsBack rfl rfl
  | _ + 16, h => exact absurd h (by omega)

/-- Opcodes `D0`..`DF`. -/
theorem decodeD_readsBack (lo : Nat) (hlo : lo < 16) :
    ReadsBack (BitVec.ofNat 8 (0xD0 + lo)) (m :: bs) (decodeD lo) := by
  unfold decodeD
  match lo, hlo with
  | 0, _ | 2, _ =>
    exact decodeG2_readsBack (by decide) fun _ hc =>
      withRm_readsBack hb rfl fun ea h =>
        hc _ _ (ea.rm8_wf h) (congrArg (_ :: ·) (ea.encode_rm8 rfl))
  | 1, _ | 3, _ =>
    exact decodeG2_readsBack (by decide) fun _ hc =>
      withRm_readsBack hb rfl fun ea h =>
        hc _ _ (ea.rm16_wf h) (congrArg (_ :: ·) (ea.encode_rm16 rfl))
  | 4, _ | 5, _ | 6, _ | 7, _ => exact plain_readsBack rfl rfl
  | 8, _ | 9, _ | 10, _ | 11, _ | 12, _ | 13, _ | 14, _ | 15, _ =>
    exact withRm_readsBack hb rfl fun _ h => spells_rm16 h rfl rfl rfl
  | _ + 16, h => exact absurd h (by omega)

/-- Opcodes `E0`..`EF`. -/
theorem decodeE_readsBack (lo : Nat) (hlo : lo < 16) :
    ReadsBack (BitVec.ofNat 8 (0xE0 + lo)) (m :: bs) (decodeE lo) := by
  unfold decodeE
  match lo, hlo with
  | 0, _ | 1, _ | 2, _ | 3, _ | 4, _ | 5, _ | 6, _ | 7, _ | 11, _ =>
    exact withByte_readsBack fun _ => ⟨rfl, rfl⟩
  | 8, _ | 9, _ => exact withWord_readsBack hb fun _ => ⟨rfl, rfl⟩
  | 10, _ => exact withFar_readsBack hb fun _ _ => ⟨rfl, rfl⟩
  | 12, _ | 13, _ | 14, _ | 15, _ => exact plain_readsBack rfl rfl
  | _ + 16, h => exact absurd h (by omega)

/-- Opcodes `F0`..`FF`. -/
theorem decodeF_readsBack (lo : Nat) (hlo : lo < 16) :
    ReadsBack (BitVec.ofNat 8 (0xF0 + lo)) (m :: bs) (decodeF lo) := by
  unfold decodeF
  match lo, hlo with
  | 6, _ => exact decodeG3B_readsBack hb
  | 7, _ => exact decodeG3W_readsBack hb
  | 14, _ => exact decodeG4_readsBack hb
  | 15, _ => exact decodeG5_readsBack hb
  | 0, _ | 1, _ | 2, _ | 3, _ | 4, _ | 5, _ | 8, _ | 9, _ | 10, _ | 11, _ | 12, _ | 13, _ =>
    exact plain_readsBack rfl rfl
  | _ + 16, h => exact absurd h (by omega)

theorem decodeOp_readsBack (op : Byte) : ReadsBack op (m :: bs) (decodeOp op) := by
  obtain ⟨hi, hhi, lo, hlo, rfl⟩ : ∃ hi < 16, ∃ lo < 16, op = BitVec.ofNat 8 (16 * hi + lo) := by
    refine ⟨op.toNat / 16, by omega, op.toNat % 16, by omega, ?_⟩
    rw [Nat.div_add_mod, BitVec.ofNat_toNat, BitVec.setWidth_eq]
  have hop : (BitVec.ofNat 8 (16 * hi + lo)).toNat = 16 * hi + lo := by simp; omega
  have hdiv : (16 * hi + lo) / 16 = hi := by omega
  have hmod : (16 * hi + lo) % 16 = lo := by omega
  have block : hi < 4 → ReadsBack (BitVec.ofNat 8 (16 * hi + lo)) (m :: bs)
      (decodeBlock0 ((16 * hi + lo) / 8) ((16 * hi + lo) % 8)) := by
    intro h
    have b := decodeBlock0_readsBack (m := m) hb ((16 * hi + lo) / 8) ((16 * hi + lo) % 8)
      (by omega) (by omega)
    rwa [Nat.div_add_mod] at b
  simp only [decodeOp, hop, hdiv, hmod]
  match hi, hhi with
  | 0, _ | 1, _ | 2, _ | 3, _ => exact block (by decide)
  | 4, _ | 5, _ | 6, _ => interval_cases lo <;> exact plain_readsBack rfl rfl
  | 7, _ => interval_cases lo <;> exact withByte_readsBack fun _ => ⟨rfl, rfl⟩
  | 8, _ => exact decode8_readsBack hb lo hlo
  | 9, _ => exact decode9_readsBack hb lo hlo
  | 10, _ => exact decodeA_readsBack hb lo hlo
  | 11, _ =>
    by_cases h : lo < 8
    · simp only [if_pos h]
      interval_cases lo <;> exact withByte_readsBack fun _ => ⟨rfl, rfl⟩
    · simp only [if_neg h]
      interval_cases lo <;> exact withWord_readsBack hb fun _ => ⟨rfl, rfl⟩
  | 12, _ => exact decodeC_readsBack hb lo hlo
  | 13, _ => exact decodeD_readsBack hb lo hlo
  | 14, _ => exact decodeE_readsBack hb lo hlo
  | 15, _ => exact decodeF_readsBack hb lo hlo
  | _ + 16, h => exact absurd h (by omega)

end Rows

/-- Settles O2: what follows the opcode byte reads back in each row of the opcode map. -/
theorem everyByteStringDecodes : Obligations.EveryByteStringDecodes := by
  intro bs h
  match bs, h with
  | op :: m :: bs, h => exact decodeOp_readsBack (Nat.le_of_add_le_add_right (b := 2) h) op

/-- An item has six bytes at most (R101): the first six bytes of a longer encoding would decode to an
item of their own, and an item is determined by the bytes it begins with. -/
theorem encode_length_le {i : Instr} (h : i.wf = true) : (encode i).length ≤ maxItemBytes := by
  by_contra! hlong
  have six : ((encode i).take 6).length = 6 := List.length_take_of_le (Nat.le_of_lt hlong)
  obtain ⟨j, rest, -, hj, hspell⟩ := everyByteStringDecodes ((encode i).take 6) six.ge
  have whole : encode j ++ (rest ++ (encode i).drop 6) = encode i ++ [] := by
    rw [← List.append_assoc, hspell, List.take_append_drop, List.append_nil]
  have same : (j, rest ++ (encode i).drop 6) = (i, []) :=
    Except.ok.inj <| calc
      .ok (j, rest ++ (encode i).drop 6) = decode (encode j ++ (rest ++ (encode i).drop 6)) :=
        (decodeOfEncode j hj _).symm
      _ = decode (encode i ++ []) := congrArg decode whole
      _ = .ok (i, []) := decodeOfEncode i h []
  have none_left : (encode i).drop 6 = [] := (List.append_eq_nil_iff.1 (Prod.mk.inj same).2).2
  exact absurd (List.drop_eq_nil_iff.1 none_left) (Nat.not_le.2 hlong)

theorem encode_length_pos {i : Instr} (h : i.wf = true) : 0 < (encode i).length := by
  refine List.length_pos_iff.2 fun hnil => ?_
  have hdec := decodeOfEncode i h []
  rw [hnil] at hdec
  cases hdec

/-- A prefix is one byte and well formed (R102). -/
theorem Instr.isPrefix_spec {p : Instr} (h : p.isPrefix = true) :
    p.wf = true ∧ (encode p).length = 1 := by
  cases p with
  | prefixEs | prefixCs | prefixSs | prefixDs | prefixLock | prefixRepne | prefixRep =>
    exact ⟨rfl, rfl⟩
  | _ => cases h

theorem length_flatMap_encode {ps : List Instr} (h : ∀ p ∈ ps, p.isPrefix = true) :
    (ps.flatMap encode).length = ps.length := by
  rw [List.length_flatMap, List.map_congr_left fun p hp => (Instr.isPrefix_spec (h p hp)).2]
  simp

end Sys2Proof

namespace Sys2Proof.Machine

/-! ## The step on encoded items (30_encoding.md R100 to R102, R113, R119) -/

/-- The bytes `bs` stand in the code segment from `CS:ip` on. -/
def State.CodeHolds (s : State) (bs : List Byte) : Prop :=
  ∀ k b, bs[k]? = some b → s.codeByte k = b

theorem State.window_getElem? (s : State) {k : Nat} (h : k < maxItemBytes) :
    s.window[k]? = some (s.codeByte k) := by
  unfold maxItemBytes at h
  interval_cases k <;> rfl

/-- A well-formed item that stands at `CS:ip` is what is fetched, and all its bytes are consumed. -/
theorem State.fetch_of_codeHolds {s : State} {i : Instr} (hw : i.wf = true)
    (h : s.CodeHolds (encode i)) : s.fetch = .ok (i, (encode i).length) := by
  have hlen := encode_length_le hw
  obtain ⟨rest, hrest⟩ : encode i <+: s.window := by
    refine List.prefix_iff_getElem?.2 fun k hk => ?_
    rw [s.window_getElem? (by omega), h k _ (List.getElem?_eq_getElem hk)]
  have hcount : (encode i).length + rest.length = maxItemBytes := by
    rw [← List.length_append, hrest]
    rfl
  have hdec : decode s.window = .ok (i, rest) := by rw [← hrest, decodeOfEncode i hw]
  rw [fetch_of_decode hdec]
  unfold maxItemBytes at hcount
  congr
  omega

/-- What stands after the bytes `bs` is found with `ip` past them. -/
theorem State.CodeHolds.append {s : State} {bs cs : List Byte} (h : s.CodeHolds (bs ++ cs)) :
    s.CodeHolds bs ∧ (s.advance bs.length).CodeHolds cs := by
  refine ⟨fun k b hk => h k b ?_, fun k b hk => ?_⟩
  · rw [List.getElem?_append_left (List.getElem?_eq_some_iff.1 hk).1, hk]
  · rw [← h (bs.length + k) b
      (by rwa [List.getElem?_append_right (Nat.le_add_right _ _), Nat.add_sub_cancel_left])]
    simp only [State.codeByte, State.advance, BitVec.ofNat_add, BitVec.add_assoc]
    rfl

/-- The state in which the instruction after the prefixes `ps` runs, when the walk begins in `s` and
`n` bytes are fetched. -/
def State.afterItems (s : State) (ps : List Instr) (n : Nat) : State :=
  { s with segOverride := (ps.foldl afterPrefix (s.segOverride, s.rep)).1,
           rep := (ps.foldl afterPrefix (s.segOverride, s.rep)).2,
           ip := s.ip + BitVec.ofNat 16 n }

theorem runsFrom_eq_afterItems (s : State) (ps : List Instr) (n : Nat) :
    runsFrom s ps n = s.noPrefix.afterItems ps n := rfl

/-- A prefix of `n` bytes is recorded before the others. -/
theorem State.afterItems_cons (s : State) (p : Instr) (ps : List Instr) (n k : Nat) :
    s.afterItems (p :: ps) (n + k) = State.afterItems
      { s.advance n with segOverride := (afterPrefix (s.segOverride, s.rep) p).1,
                         rep := (afterPrefix (s.segOverride, s.rep) p).2 } ps k := by
  simp only [State.afterItems, State.advance, List.foldl_cons, BitVec.ofNat_add, BitVec.add_assoc]

/-- The walk over prefixes that stand before an instruction, by induction on the prefixes. -/
theorem runItems_prefixes {ps : List Instr} {i : Instr} {s : State} {k : Nat}
    (hps : ∀ p ∈ ps, p.isPrefix = true) (hi : i.isPrefix = false) (hw : i.wf = true)
    (hk : ps.length ≤ k) (hc : s.CodeHolds (ps.flatMap encode ++ encode i)) :
    runItems (k + 1) s =
      stepOf (clockCost i (s.afterItems ps (ps.flatMap encode ++ encode i).length))
        (exec i (s.afterItems ps (ps.flatMap encode ++ encode i).length)) := by
  induction ps generalizing s k with
  | nil => exact runItems_instr k (State.fetch_of_codeHolds hw hc) hi
  | cons p ps ih =>
    obtain ⟨hp, hps⟩ := List.forall_mem_cons.1 hps
    obtain ⟨k, rfl⟩ := Nat.exists_eq_add_one_of_ne_zero (Nat.ne_zero_of_lt hk)
    rw [List.flatMap_cons, List.append_assoc] at hc ⊢
    obtain ⟨hhead, htail⟩ := hc.append
    rw [runItems_prefix (k + 1) (State.fetch_of_codeHolds (Instr.isPrefix_spec hp).1 hhead) hp
      (exec_prefix hp _), List.length_append, State.afterItems_cons]
    exact ih hps (Nat.le_of_succ_le_succ hk) htail

/-- Settles O7: the walk over the prefixes, whose fuel is more than the number of prefix bytes. -/
theorem stepRunsPrefixedBytes : Obligations.StepRunsPrefixedBytes := by
  intro s ps i hint hps hi hw hlen hc
  have hfuel : ps.length ≤ segmentBytes - 1 := by
    have hpos := encode_length_pos hw
    have hbytes := length_flatMap_encode hps
    rw [List.length_append] at hlen
    unfold segmentBytes
    omega
  rw [step_of_noInterrupt hint, runsFrom_eq_afterItems]
  exact runItems_prefixes hps hi hw hfuel hc

/-- Settles O6: the walk ends at its first item. -/
theorem stepRunsDecodedInstruction : Obligations.StepRunsDecodedInstruction := by
  intro s i rest hint hdec hi
  rw [step_of_noInterrupt hint]
  exact runItems_instr _ (fetch_of_decode (s := s.noPrefix) hdec) hi

end Sys2Proof.Machine

namespace Sys2Proof

/-! ## The refused encodings (30_encoding.md R103, R109, R116, R118) -/

/-- The opcode byte that a refused row stops at, with the ModRM byte where it is refused for that. -/
def Instr.refusal : Instr → Option (Byte × Option Byte)
  | .escape0F => some (0x0F, none)
  | .undocumented op => some (op, none)
  | .reserved op m => some (op, some m)
  | .into => some (0xCE, none)
  | .aam => some (0xD4, none)
  | .aad => some (0xD5, none)
  | .leaReg reg rm => some (0x8D, some (mkModRm 3 reg rm))
  | .lesReg reg rm => some (0xC4, some (mkModRm 3 reg rm))
  | .ldsReg reg rm => some (0xC5, some (mkModRm 3 reg rm))
  | .callFarReg rm => some (0xFF, some (mkModRm 3 3 rm))
  | .jmpFarReg rm => some (0xFF, some (mkModRm 3 5 rm))
  | _ => none

/-- A refused row is encoded by the bytes it is refused for. -/
theorem encode_of_refusal {i : Instr} {o : Byte} {r : Option Byte} (h : i.refusal = some (o, r)) :
    encode i = o :: r.toList := by
  cases i with
  | escape0F | undocumented | reserved | into | aam | aad | leaReg | lesReg | ldsReg | callFarReg
  | jmpFarReg => cases h; rfl
  | _ => cases h

theorem decode_of_refusal {i : Instr} {o : Byte} {r : Option Byte} (hw : i.wf = true)
    (h : i.refusal = some (o, r)) (rest : List Byte) :
    decode (o :: (r.toList ++ rest)) = .ok (i, rest) := by
  rw [← List.cons_append, ← encode_of_refusal h, decodeOfEncode i hw]

end Sys2Proof

namespace Sys2Proof.Machine

/-- What an instruction can answer: a next state, `PortFault` (47_io.md R469), or, in a refused row,
`DecodeFault` with its bytes. -/
theorem exec_outcome (i : Instr) (s : State) :
    (∃ t, exec i s = .next t) ∨ (∃ p w, exec i s = .fault (.portFault p w)) ∨
      ∃ o r, i.refusal = some (o, r) ∧ exec i s = .fault (.decodeFault o r) := by
  cases i with
  | escape0F | undocumented | reserved | into | aam | aad | leaReg | lesReg | ldsReg | callFarReg
  | jmpFarReg => exact .inr (.inr ⟨_, _, rfl, rfl⟩)
  | mul f | imul f | mov f | xchg f | pop f => cases f <;> exact .inl ⟨_, rfl⟩
  | div f | idiv f =>
    left
    cases f <;> simp only [exec, execDiv, execIdiv, UnForm.op] <;> split <;> exact ⟨_, rfl⟩
  | aaa | aas =>
    left
    simp only [exec, execAaa, execAas]
    split <;> exact ⟨_, rfl⟩
  | inPort f =>
    cases f <;> simp only [exec, execIn, State.inByte, State.inWord] <;> split <;> simp
  | outPort f =>
    cases f <;> simp only [exec, execOut, State.outByte, State.outWord] <;> split <;> simp
  | _ => exact .inl ⟨_, rfl⟩

theorem exec_of_refusal {i : Instr} {o : Byte} {r : Option Byte} (h : i.refusal = some (o, r))
    (s : State) : exec i s = .fault (.decodeFault o r) := by
  cases i with
  | escape0F | undocumented | reserved | into | aam | aad | leaReg | lesReg | ldsReg | callFarReg
  | jmpFarReg => cases h; rfl
  | _ => cases h

/-- No other row raises `DecodeFault`. -/
theorem refusal_of_exec {i : Instr} {s : State} {o : Byte} {r : Option Byte}
    (h : exec i s = .fault (.decodeFault o r)) : i.refusal = some (o, r) := by
  obtain ⟨t, ht⟩ | ⟨p, w, hp⟩ | ⟨o', r', href, hd⟩ := exec_outcome i s
  · cases h.symm.trans ht
  · cases h.symm.trans hp
  · cases h.symm.trans hd
    exact href

theorem refusedOp_iff : ∀ op : Byte, refusedOp op = true ↔
    op = 0x0F ∨ op = 0xCE ∨ op = 0xD4 ∨ op = 0xD5 ∨ undocumentedOp op = true := by decide

/-- The refused primary opcodes are the refused rows of one byte. -/
theorem refusedOp_iff_refusal {op : Byte} :
    refusedOp op = true ↔ ∃ i : Instr, i.wf = true ∧ i.refusal = some (op, none) := by
  rw [refusedOp_iff]
  constructor
  · rintro (rfl | rfl | rfl | rfl | h)
    exacts [⟨.escape0F, rfl, rfl⟩, ⟨.into, rfl, rfl⟩, ⟨.aam, rfl, rfl⟩, ⟨.aad, rfl, rfl⟩,
      ⟨.undocumented op, h, rfl⟩]
  · rintro ⟨i, hw, h⟩
    cases i with
    | escape0F | into | aam | aad => cases h; simp
    | undocumented => cases h; exact .inr (.inr (.inr (.inr hw)))
    | _ => cases h

theorem refusedModRm_iff {op m : Byte} : refusedModRm op m = true ↔
    reservedSlot op m = true ∨
      modOf m = 3 ∧ (op = 0x8D ∨ op = 0xC4 ∨ op = 0xC5 ∨ op = 0xFF ∧ (regOf m = 3 ∨ regOf m = 5)) := by
  have hnum : ∀ n : BitVec 3, (n.toNat == 6) = (n == 6#3) ∧ (n.toNat == 1) = (n == 1#3) ∧
      (n.toNat == 7) = (n == 7#3) ∧ (n.toNat == 3) = (n == 3#3) ∧ (n.toNat == 5) = (n == 5#3) := by
    decide
  obtain ⟨h6, h1, h7, h3, h5⟩ := hnum (regOf m)
  have hreg : m.extractLsb' 3 3 = regOf m := rfl
  have hmod : m.extractLsb' 6 2 = modOf m := rfl
  simp only [refusedModRm, reservedSlot, modrmReg, hreg, hmod, h6, h1, h7, h3, h5]
  grind

/-- The refused combinations of opcode and ModRM byte are the refused rows of two bytes. -/
theorem refusedModRm_iff_refusal {op m : Byte} :
    refusedModRm op m = true ↔ ∃ i : Instr, i.wf = true ∧ i.refusal = some (op, some m) := by
  rw [refusedModRm_iff]
  constructor
  · rintro (h | ⟨hmod, h⟩)
    · exact ⟨.reserved op m, h, rfl⟩
    · have row (o : Byte) {r : BitVec 3} (hr : regOf m = r) :
          some (o, some (mkModRm 3 r (rmOf m))) = some (o, some m) := by
        rw [← hr, ← hmod, mkModRm_fields]
      obtain rfl | rfl | rfl | ⟨rfl, hreg | hreg⟩ := h
      exacts [⟨.leaReg _ _, rfl, row _ rfl⟩, ⟨.lesReg _ _, rfl, row _ rfl⟩,
        ⟨.ldsReg _ _, rfl, row _ rfl⟩, ⟨.callFarReg _, rfl, row _ hreg⟩,
        ⟨.jmpFarReg _, rfl, row _ hreg⟩]
  · rintro ⟨i, hw, h⟩
    cases i with
    | reserved => cases h; exact .inl hw
    | leaReg | lesReg | ldsReg | callFarReg | jmpFarReg =>
      cases h
      simp [modOf_mkModRm, regOf_mkModRm]
    | _ => cases h

/-- Settles O4: the refused first bytes are those of the refused rows, which decode to their row; other
bytes decode to no refused row, as such a row is encoded by its own bytes. -/
theorem refusedEncodings : Obligations.RefusedEncodings := by
  intro op m tail s htail
  obtain ⟨i, rest, hdec, hwf, hbytes⟩ :=
    everyByteStringDecodes (op :: m :: tail) (Nat.add_le_add_right htail 2)
  have refused {r : Option Byte} {after : List Byte} {j : Instr} (hw : j.wf = true)
      (hj : j.refusal = some (op, r)) (hsplit : m :: tail = r.toList ++ after) :
      rest = after ∧ exec i s = .fault (.decodeFault op r) := by
    have hdec' := decode_of_refusal hw hj after
    rw [← hsplit, hdec] at hdec'
    cases hdec'
    exact ⟨rfl, exec_of_refusal hj s⟩
  refine ⟨i, rest, hdec, fun h => ?_, fun h => ?_, fun hop hmod o r hfault => ?_⟩
  · obtain ⟨j, hw, hj⟩ := refusedOp_iff_refusal.1 h
    exact refused hw hj rfl
  · obtain ⟨j, hw, hj⟩ := refusedModRm_iff_refusal.1 h
    exact refused hw hj rfl
  · have href := refusal_of_exec hfault
    rw [encode_of_refusal href] at hbytes
    cases r with
    | none =>
      obtain ⟨rfl, -⟩ := List.cons.inj hbytes
      rw [refusedOp_iff_refusal.2 ⟨i, hwf, href⟩] at hop
      cases hop
    | some =>
      obtain ⟨rfl, hrest⟩ := List.cons.inj hbytes
      obtain ⟨rfl, -⟩ := List.cons.inj hrest
      rw [refusedModRm_iff_refusal.2 ⟨i, hwf, href⟩] at hmod
      cases hmod

/-- Settles O5: the opcodes and the reserved slot of the shift group decode to their rows by the round
trip, and the meaning of each row is its own fault. -/
theorem refusedRowsFault : Obligations.RefusedRowsFault := by
  refine ⟨fun rest => ⟨?_, ?_, ?_, ?_⟩, fun op hop mod rm rest => ?_, fun s => ?_⟩
  · exact decodeOfEncode .escape0F rfl rest
  · exact decodeOfEncode .into rfl rest
  · exact decodeOfEncode .aam rfl rest
  · exact decodeOfEncode .aad rfl rest
  · have hslot := reservedSlot_shift (m := mkModRm mod 6 rm) hop (regOf_mkModRm mod 6 rm)
    exact decodeOfEncode (.reserved op (mkModRm mod 6 rm)) hslot rest
  · exact ⟨rfl, fun _ => rfl, fun _ _ => rfl, rfl, rfl, rfl, fun _ _ => rfl, fun _ _ => rfl,
      fun _ _ => rfl, fun _ => rfl, fun _ => rfl⟩

/-- Settles O3: the decoder evaluated on each word. -/
theorem decodesSpecWords : Obligations.DecodesSpecWords :=
  ⟨rfl, rfl, rfl, rfl, rfl, rfl, rfl, rfl, rfl, rfl, rfl, rfl⟩

end Sys2Proof.Machine

namespace Sys2Proof

/-! ## Operands of the data transfer forms (40_data_transfer.md R170 to R185) -/

theorem MovForm.writable (f : MovForm) : f.ops.writable := by
  cases f with
  | rmR8 | rmImm8 => exact Op8.ofRm_ne_imm _
  | rmR16 | rmSreg | rmImm16 => exact ⟨Op16.ofRm_ne_flags _, Op16.ofRm_ne_imm _⟩
  | rRm8 | alMoffs | moffsAl | r8Imm => exact nofun
  | rRm16 | sregRm | axMoffs | moffsAx | r16Imm => exact ⟨nofun, nofun⟩

/-- Operand 2 of every form is a register, and operand 1 is a register or memory (R176, R177). -/
theorem XchgForm.ops_cases (f : XchgForm) :
    (∃ rm r, f.ops = .b (.ofRm rm) (.reg r)) ∨ ∃ rm r, f.ops = .w (.ofRm rm) (.reg r) := by
  cases f with
  | rmR8 rm r => exact .inl ⟨rm, r, rfl⟩
  | rmR16 rm r => exact .inr ⟨rm, r, rfl⟩
  | axR r => exact .inr ⟨.reg .ax, r, rfl⟩

theorem PopForm.writable (f : PopForm) : f.op ≠ .flags ∧ ∀ v, f.op ≠ .imm v := by
  cases f with
  | sreg | reg => exact ⟨nofun, nofun⟩
  | rm _ x => exact ⟨Op16.ofRm_ne_flags x, Op16.ofRm_ne_imm x⟩

end Sys2Proof

namespace Sys2Proof.Machine

/-! Data transfer (40_data_transfer.md R170 to R195). -/

/-! ## MOV -/

/-- MOV as an operation of the two-operand skeleton: the second operand, and no flag. -/
def movOp : BinaryOp := fun _ b s => (b, s)

theorem execMov_eq_binary (f : MovForm) (s : State) :
    execMov f s = .next (s.binary movOp f.ops) := by
  unfold execMov
  cases f.ops <;> rfl

/-- A state seen as a change of no flag, so that the rules for an operand written after a change of
flags speak of an operand written alone. -/
theorem FlagsOnly.refl (s : State) : FlagsOnly [] false s s :=
  s.mapFlags_flagsOnly id [] false fun _ _ => rfl

/-- Settles O37: MOV is the two-operand skeleton with an operation that gives operand 2 back. -/
theorem movMoves : Obligations.MovMoves := by
  intro f s hw
  rw [show exec (.mov f) s = _ from execMov_eq_binary f s]
  exact s.binary_spec movOp f.ops [] false _ _ f.writable hw
    fun _ _ => ⟨rfl, FlagsOnly.refl s, trivial⟩

/-! ## XCHG -/

theorem State.look8_setReg8 (s t : State) (o : Op8) (r : Reg8) (v : Byte) :
    s.look8 (t.setReg8 r v) o = if o = .reg r then v else s.look8 t o := by
  cases o with
  | reg q =>
    by_cases h : q = r
    · simp [State.look8, h]
    · simp [State.look8, h, State.reg8_setReg8_other _ _ _ _ h]
  | mem m | imm w => rfl

theorem State.look16_setReg16 (s t : State) (o : Op16) (r : Reg16) (v : Word) :
    s.look16 (t.setReg16 r v) o = if o = .reg r then v else s.look16 t o := by
  cases o with
  | reg q => simp [State.look16, State.reg16_setReg16]
  | sreg | flags | mem | imm => rfl

/-- The register written last does not spoil operand 1: where it is operand 1, both held one value. -/
theorem State.look8_exchange {s : State} (hw : s.mem.wf = true) (rm : Rm8) (r : Reg8) :
    s.look8 ((s.put8 (.ofRm rm) (s.reg8 r)).setReg8 r (s.get8 (.ofRm rm))) (.ofRm rm) = s.reg8 r := by
  rw [State.look8_setReg8]
  split
  · rename_i same
    rw [same]
    rfl
  · exact (FlagsOnly.refl s).look8 _ _ hw (Op8.ofRm_ne_imm rm)

theorem State.look16_exchange {s : State} (hw : s.mem.wf = true) (rm : Rm16) (r : Reg16) :
    s.look16 ((s.put16 (.ofRm rm) (s.reg16 r)).setReg16 r (s.get16 (.ofRm rm))) (.ofRm rm) =
      s.reg16 r := by
  rw [State.look16_setReg16]
  split
  · rename_i same
    rw [same]
    rfl
  · exact (FlagsOnly.refl s).look16 _ _ hw (Op16.ofRm_ne_flags rm) (Op16.ofRm_ne_imm rm)

/-- Settles O38: operand 1 by the rule of an exchange; operand 2 is the register written last. -/
theorem xchgSwaps : Obligations.XchgSwaps := by
  intro f s hw
  show ∃ t, execXchg f s = .next t ∧ _
  unfold execXchg
  obtain ⟨rm, r, hops⟩ | ⟨rm, r, hops⟩ := f.ops_cases <;> rw [hops]
  · exact ⟨_, rfl, (s.put8_only _ _).trans (State.setReg8_only _ r _), s.look8_exchange hw rm r,
      State.reg8_setReg8_same _ r _⟩
  · exact ⟨_, rfl, (s.put16_only _ _).trans (State.setReg16_only _ r _),
      s.look16_exchange hw rm r, State.reg16_setReg16_same _ r _⟩

/-! ## PUSH and PUSHF -/

/-- Settles O39: either is a push of a word read before SP changes. -/
theorem pushPushf : Obligations.PushPushf := by
  intro s hw i v hi
  have hpush : exec i s = .next (s.push16 v) := by
    obtain ⟨f, rfl, rfl⟩ | ⟨rfl, rfl⟩ := hi <;> rfl
  exact ⟨_, hpush, s.push16_sp v, s.push16_word v hw, s.push16_only v⟩

/-! ## POP and POPF -/

/-- No addressing mode uses SP (20_memory.md R76), so a pop leaves the offset of every operand. -/
@[simp] theorem State.drop16_eaOff (s : State) (m : MemRef) : s.drop16.eaOff m = s.eaOff m := by
  have hbase : ∀ b, s.drop16.baseValue b = s.baseValue b := fun b => by cases b <;> rfl
  cases m <;> simp [State.eaOff, hbase]

@[simp] theorem State.drop16_eaSeg (s : State) (m : MemRef) : s.drop16.eaSeg m = s.eaSeg m :=
  State.sreg_congr _ _ _ rfl

theorem State.drop16_place16 (s : State) (o : Op16) : s.drop16.place16 o = s.place16 o := by
  cases o <;> simp [State.place16]

theorem State.drop16_look16 (s t : State) (o : Op16) : s.drop16.look16 t o = s.look16 t o := by
  cases o <;> simp [State.look16]

theorem State.put16_sp (s : State) {o : Op16} (v : Word) (h : o ≠ .reg .sp) :
    (s.put16 o v).regs.sp = s.regs.sp := by
  cases o with
  | reg r => exact s.reg16_setReg16_other r .sp v fun e => h (e ▸ rfl)
  | sreg | flags | mem | imm => rfl

theorem Changes.join_comm_within (c d : Changes) : (c.join d).Within (d.join c) := by
  constructor <;> simp [Changes.join] <;> tauto

/-- After a pop the operand holds the word that was on top, at the address computed before. -/
theorem State.look16_pop {s : State} (hw : s.mem.wf = true) (f : PopForm) (v : Word) :
    s.look16 (s.drop16.put16 f.op v) f.op = v := by
  obtain ⟨hflags, himm⟩ := f.writable
  rw [← State.drop16_look16]
  exact (FlagsOnly.refl s.drop16).look16 _ _ hw hflags himm

theorem State.pop_only (s : State) (o : Op16) (v : Word) :
    Only ((s.place16 o).join { regs := [.sp] }) s (s.drop16.put16 o v) := by
  rw [← State.drop16_place16]
  exact (s.drop16_only.trans (s.drop16.put16_only o v)).mono (Changes.join_comm_within _ _)

/-- Settles O40: SP is raised, then the operand or FLAGS written, so POP SP keeps the word. -/
theorem popPopf : Obligations.PopPopf := by
  intro s hw
  constructor
  · intro f
    exact ⟨_, rfl, State.look16_pop hw f _, fun hsp => State.put16_sp _ _ hsp, s.pop_only f.op _⟩
  · exact ⟨_, rfl, rfl, rfl, s.drop16_only.trans (s.drop16.put16_only .flags _)⟩

/-! ## LAHF and SAHF -/

/-- The low byte of FLAGS: five tracked bits, bit 1 always one, bits 3 and 5 always zero
(10_state.md R36, R37). -/
theorem Flags.loByte_word (f : Flags) :
    loByte f.word = bit f.SF ++ bit f.ZF ++ 0#1 ++ bit f.AF ++ 0#1 ++ bit f.PF ++ 1#1 ++ bit f.CF := by
  have setBit1 : ∀ sf zf af pf cf : Bool,
      (bit sf ++ bit zf ++ 0#1 ++ bit af ++ 0#1 ++ bit pf ++ 0#1 ++ bit cf : Byte) |||
          loByte flagsAlwaysOne =
        bit sf ++ bit zf ++ 0#1 ++ bit af ++ 0#1 ++ bit pf ++ 1#1 ++ bit cf := by decide
  calc loByte f.word
      = loByte f.tracked ||| loByte flagsAlwaysOne := BitVec.extractLsb'_or
    _ = _ := by
      rw [show loByte f.tracked = _ from loByte_mkWord _ _]
      exact setBit1 f.SF f.ZF f.AF f.PF f.CF

/-- The flags of a FLAGS word whose low byte is replaced, as SAHF replaces it (R190). -/
theorem Flags.ofWord_replace_loByte (f : Flags) (b : Byte) :
    Flags.ofWord ((f.word &&& 0xFF00#16) ||| zext16 b) =
      { f with SF := b.getLsbD 7, ZF := b.getLsbD 6, AF := b.getLsbD 4, PF := b.getLsbD 2,
               CF := b.getLsbD 0 } := by
  obtain ⟨-, -, -, -, -, hTF, hIF, hDF, hOF⟩ := f.word_bits
  simpa [Flags.ofWord, zext16] using ⟨hTF, hIF, hDF, hOF⟩

/-- Settles O41: LAHF by the low byte of FLAGS, SAHF by the flags of the word with AH as its low
byte. -/
theorem lahfSahf : Obligations.LahfSahf := by
  intro s
  refine ⟨⟨_, rfl, s.setReg8_only .ah _, ?_⟩, _, rfl, s.mapFlags_only _ _ fun k hk => ?_, ?_⟩
  · rw [State.reg8_setReg8_same, Flags.loByte_word]
  · rw [Flags.ofWord_replace_loByte]
    cases k with
    | TF | IF | DF | OF => rfl
    | CF | PF | AF | ZF | SF => simp at hk
  · rw [State.mapFlags_flags, Flags.ofWord_replace_loByte]
    exact ⟨rfl, rfl, rfl, rfl, rfl⟩

/-! ## XLAT, LEA, LDS, LES, CBW, CWD -/

/-- Sign extension keeps the byte and fills the high half with its sign. -/
theorem sext16_eq_mkWord (b : Byte) : sext16 b = mkWord b (if b.getLsbD 7 then 0xFF else 0x00) := by
  rw [sext16, BitVec.signExtend_eq_append_of_le (by decide), BitVec.msb_eq_getLsbD_last]
  rfl

/-- CBW writes AX, but AL with its own value: only AH changes (R194). -/
theorem execCbw_eq_setReg8 (s : State) :
    execCbw s = .next (s.setReg8 .ah (if (s.reg8 .al).getLsbD 7 then 0xFF else 0x00)) := by
  rw [execCbw, sext16_eq_mkWord]
  rfl

theorem execCwd_eq (s : State) :
    execCwd s = .next (s.setReg16 .dx (if s.regs.ax.getLsbD 15 then 0xFFFF else 0x0000)) := by
  rw [execCwd, BitVec.msb_eq_getLsbD_last]
  rfl

/-- LDS and LES: the register and the segment register take the two words of the pointer. -/
theorem State.loadFar_spec (s : State) (r : Reg16) (q : SReg) (off seg : Word) :
    Only { regs := [r], sregs := [q] } s ((s.setReg16 r off).setSreg q seg) ∧
      ((s.setReg16 r off).setSreg q seg).reg16 r = off ∧
      ((s.setReg16 r off).setSreg q seg).sreg q = seg :=
  ⟨(s.setReg16_only r off).trans (State.setSreg_only _ q seg),
    (State.reg16_congr _ _ r rfl).trans (s.reg16_setReg16_same r off),
    State.sreg_setSreg_same _ q seg⟩

/-- Settles O42: each is one write of a register, LDS and LES a second one of a segment register. -/
theorem loadsAndExtends : Obligations.LoadsAndExtends := by
  intro s r m
  refine ⟨?xlat, ?lea, ?lds, ?les, ?cbw, ?cwd, ?regForms⟩
  case xlat => exact ⟨_, rfl, s.setReg8_only .al _, s.reg8_setReg8_same .al _⟩
  case lea => exact ⟨_, rfl, s.setReg16_only r _, s.reg16_setReg16_same r _⟩
  case lds => exact ⟨_, rfl, s.loadFar_spec r .ds _ _⟩
  case les => exact ⟨_, rfl, s.loadFar_spec r .es _ _⟩
  case cbw => exact ⟨_, execCbw_eq_setReg8 s, s.setReg8_only .ah _, s.reg8_setReg8_same .ah _⟩
  case cwd => exact ⟨_, execCwd_eq s, s.setReg16_only .dx _, s.reg16_setReg16_same .dx _⟩
  case regForms => rintro i ⟨reg, rm, rfl | rfl | rfl⟩ <;> exact ⟨_, _, rfl⟩

end Sys2Proof.Machine

namespace Sys2Proof.Machine

/-! Arithmetic and logic (41_alu.md R220 to R243). -/

/-! ## From one flag rule to another -/

section Consequences

variable {o : Out} {s : State} {ks : List Flag} {fr : Bool}
  {rule rule' : {n : Nat} → BitVec n → BitVec n → Flags → Prop}
  {rule₁ rule₁' : {n : Nat} → BitVec n → Flags → Prop}

/-- A two-operand instruction obeys whatever follows from its rule at the widths of operands. -/
theorem ComputesPair.imp {p : Pair} {res res' : {n : Nat} → BitVec n → BitVec n → BitVec n}
    (h : ComputesPair o s p ks fr res rule)
    (hres : ∀ {n : Nat} (a b : BitVec n), res a b = res' a b)
    (hrule : ∀ {n : Nat} (a b : BitVec n) (g : Flags), 8 ≤ n → rule a b g → rule' a b g) :
    ComputesPair o s p ks fr res' rule' := by
  obtain ⟨t, ho, only, hp⟩ := h
  refine ⟨t, ho, only, ?_⟩
  cases p with
  | b o1 o2 => exact ⟨hp.1.trans (hres _ _), hrule _ _ _ (by decide) hp.2⟩
  | w o1 o2 => exact ⟨hp.1.trans (hres _ _), hrule _ _ _ (by decide) hp.2⟩

theorem ComparesPair.imp {p : Pair} (h : ComparesPair o s p ks fr rule)
    (hrule : ∀ {n : Nat} (a b : BitVec n) (g : Flags), 8 ≤ n → rule a b g → rule' a b g) :
    ComparesPair o s p ks fr rule' := by
  obtain ⟨t, ho, only, hp⟩ := h
  refine ⟨t, ho, only, ?_⟩
  cases p with
  | b o1 o2 => exact hrule _ _ _ (by decide) hp
  | w o1 o2 => exact hrule _ _ _ (by decide) hp

theorem ComputesSingle.imp {p : Single} {res : {n : Nat} → BitVec n → BitVec n}
    (h : ComputesSingle o s p ks res rule₁)
    (hrule : ∀ {n : Nat} (a : BitVec n) (g : Flags), 8 ≤ n → rule₁ a g → rule₁' a g) :
    ComputesSingle o s p ks res rule₁' := by
  obtain ⟨t, ho, only, hp⟩ := h
  refine ⟨t, ho, only, ?_⟩
  cases p with
  | b o1 => exact ⟨hp.1, hrule _ _ (by decide) hp.2⟩
  | w o1 => exact ⟨hp.1, hrule _ _ (by decide) hp.2⟩

end Consequences

/-! ## ADD, ADC, SUB and SBB -/

theorem flagsAdd_flagsOnly {n : Nat} (a b : BitVec n) (raw : Nat) (s : State) :
    FlagsOnly aluFlags false s (s.mapFlags (flagsAdd a b raw)) :=
  s.mapFlags_flagsOnly _ _ _ fun k hk => flagsAdd_other a b raw _ k hk

theorem flagsSub_flagsOnly {n : Nat} (a b : BitVec n) (raw : Int) (s : State) :
    FlagsOnly aluFlags false s (s.mapFlags (flagsSub a b raw)) :=
  s.mapFlags_flagsOnly _ _ _ fun k hk => flagsSub_other a b raw _ k hk

/-- Settles O21: either is the two-operand skeleton with the add family's flags of its untruncated
sum. -/
theorem addAdc : Obligations.AddAdc := fun f s hw =>
  ⟨s.binary_spec addOp f.ops _ _ _ _ f.writable hw
      fun a b => ⟨rfl, flagsAdd_flagsOnly a b _ s, flagsAdd_rule a b _ _⟩,
    s.binary_spec adcOp f.ops _ _ _ _ f.writable hw
      fun a b => ⟨rfl, flagsAdd_flagsOnly a b _ s, flagsAdd_rule a b _ _⟩⟩

/-- Settles O22: either is the two-operand skeleton with the subtract family's flags of its
untruncated difference. -/
theorem subSbb : Obligations.SubSbb := fun f s hw =>
  ⟨s.binary_spec subOp f.ops _ _ _ _ f.writable hw
      fun a b => ⟨rfl, flagsSub_flagsOnly a b _ s, flagsSub_rule a b _ _⟩,
    s.binary_spec sbbOp f.ops _ _ _ _ f.writable hw
      fun a b => ⟨rfl, flagsSub_flagsOnly a b _ s, flagsSub_rule a b _ _⟩⟩

/-! ## OR, AND, XOR, CMP and TEST -/

/-- `Undef(AF)` is the only effect of a bitwise operation on AF (R224, R225). -/
theorem logicResult_undefRule {n : Nat} (r : BitVec n) (s : State) :
    UndefRule [.AF] s (logicResult r s).2 := by
  intro unchanged k hk
  obtain rfl := List.mem_singleton.1 hk
  have keep : (logicResult r s).2 = s.mapFlags (flagsLogic r) :=
    State.undef_unchanged _ .AF unchanged
  rw [keep]
  rfl

/-- The write-back to operand 1 comes after the flags and leaves them. -/
theorem State.binary_undefRule {op : BinaryOp} {p : Pair} {ks : List Flag} {s : State}
    (hp : p.writable) (h : ∀ {n : Nat} (a b : BitVec n), UndefRule ks s (op a b s).2) :
    UndefRule ks s (s.binary op p) := by
  intro unchanged k hk
  cases p with
  | b o1 o2 => rw [State.binary, State.put8_flags]; exact h _ _ unchanged k hk
  | w o1 o2 => rw [State.binary, State.put16_flags _ _ _ hp.1]; exact h _ _ unchanged k hk

theorem State.compare_undefRule {op : BinaryOp} {p : Pair} {ks : List Flag} {s : State}
    (h : ∀ {n : Nat} (a b : BitVec n), UndefRule ks s (op a b s).2) :
    UndefRule ks s (s.compare op p) := by
  cases p with
  | b o1 o2 => exact h _ _
  | w o1 o2 => exact h _ _

/-- The two-operand skeleton with a bitwise operation. -/
theorem State.binary_logic {s : State} (hw : s.mem.wf = true) {p : Pair} (hp : p.writable)
    (res : {n : Nat} → BitVec n → BitVec n → BitVec n) :
    ComputesPair (.next (s.binary (fun a b => logicResult (res a b)) p)) s p aluFlags true res
      (fun a b => LogicRule (res a b)) :=
  s.binary_spec _ p _ _ _ _ hp hw
    fun _ _ => ⟨rfl, logicResult_flagsOnly _ s, logicResult_rule _ s⟩

/-- Settles O23: the three are the two-operand skeleton with a bitwise operation, which leaves AF to
`Undef(AF)`. -/
theorem orAndXor : Obligations.OrAndXor := by
  intro f s hw
  refine ⟨⟨State.binary_logic hw f.writable fun a b => a ||| b,
    State.binary_logic hw f.writable fun a b => a &&& b,
    State.binary_logic hw f.writable fun a b => a ^^^ b⟩, ?_⟩
  intro i hi t h
  simp only [List.mem_cons, List.not_mem_nil, or_false] at hi
  obtain rfl | rfl | rfl := hi <;> cases h <;>
    exact State.binary_undefRule f.writable fun _ _ => logicResult_undefRule _ s

/-- Settles O24: CMP and TEST are SUB and AND without the write-back. -/
theorem cmpTest : Obligations.CmpTest := by
  intro s
  refine ⟨fun f => ?cmp, fun f => ⟨?test, fun t h => ?undefined⟩⟩
  case cmp =>
    exact s.compare_spec subOp f.ops _ _ _
      fun a b => ⟨flagsSub_flagsOnly a b _ s, flagsSub_rule a b _ _⟩
  case test =>
    exact s.compare_spec andOp f.ops _ _ _
      fun _ _ => ⟨logicResult_flagsOnly _ s, logicResult_rule _ s⟩
  case undefined =>
    cases h
    exact State.compare_undefRule fun _ _ => logicResult_undefRule _ s

/-! ## INC, DEC, NEG and NOT -/

/-- Flags of an arithmetic result with CF given its old value back (R240, R241). -/
theorem State.mapFlags_keepCF_flagsOnly (s : State) (g : Flags → Flags)
    (hg : ∀ k, k ∉ aluFlags → (g s.flags).get k = s.flags.get k) :
    FlagsOnly [.PF, .AF, .ZF, .SF, .OF] false s
      (s.mapFlags fun f => { g f with CF := f.CF }) :=
  s.mapFlags_flagsOnly _ _ _ fun k hk => by
    cases k with
    | CF => rfl
    | TF => exact hg .TF (by decide)
    | IF => exact hg .IF (by decide)
    | DF => exact hg .DF (by decide)
    | PF | AF | ZF | SF | OF => exact absurd (by decide) hk

/-- But for CF, the flags of INC are those of adding 1 (R240). -/
theorem incOp_addRule {n : Nat} (a : BitVec n) (s : State) :
    AddRule a 1#n (a.toNat + 1)
      { (incOp a s).2.flags with CF := decide (2 ^ n - 1 < a.toNat + 1) } := by
  have h := flagsAdd_rule a 1#n (a.toNat + 1) s.flags
  exact ⟨by rw [decide_eq_true_iff], h.OF, h.AF, h.szp.congr rfl rfl rfl⟩

/-- But for CF, the flags of DEC are those of subtracting 1 (R241). -/
theorem decOp_subRule {n : Nat} (a : BitVec n) (s : State) :
    SubRule a 1#n (a.toNat - 1)
      { (decOp a s).2.flags with CF := decide ((a.toNat : Int) - 1 < 0) } :=
  flagsSub_rule a 1#n (a.toNat - 1) s.flags

theorem ofInt_toNat_sub {n : Nat} (a b : BitVec n) :
    BitVec.ofInt n ((a.toNat : Int) - b.toNat) = a - b := by
  rw [Int.sub_eq_add_neg, BitVec.ofInt_add, BitVec.ofInt_neg, BitVec.ofInt_natCast,
    BitVec.ofInt_natCast, BitVec.ofNat_toNat, BitVec.ofNat_toNat, BitVec.setWidth_eq,
    BitVec.setWidth_eq, BitVec.sub_eq_add_neg]

theorem ofInt_zero_sub_toNat {n : Nat} (a : BitVec n) :
    BitVec.ofInt n (0 - (a.toNat : Int)) = -a := by
  rw [Int.zero_sub, BitVec.ofInt_neg, BitVec.ofInt_natCast, BitVec.ofNat_toNat, BitVec.setWidth_eq]

theorem incOp_result {n : Nat} (a : BitVec n) (s : State) : (incOp a s).1 = a + 1 := by
  simp [incOp, BitVec.ofNat_add]

theorem decOp_result {n : Nat} (a : BitVec n) (s : State) : (decOp a s).1 = a - 1 := by
  simp [decOp, Int.sub_eq_add_neg, BitVec.ofInt_add, BitVec.ofInt_neg, BitVec.sub_eq_add_neg]

/-- Settles O25: either is the one-operand skeleton, and its flags but CF obey the rule with 1. -/
theorem incDec : Obligations.IncDec := fun f s hw =>
  ⟨s.unary_spec incOp f.op _ _ _ f.writable hw fun a =>
      ⟨incOp_result a s, s.mapFlags_keepCF_flagsOnly _ fun k hk => flagsAdd_other a _ _ _ k hk,
        incOp_addRule a s⟩,
    s.unary_spec decOp f.op _ _ _ f.writable hw fun a =>
      ⟨decOp_result a s, s.mapFlags_keepCF_flagsOnly _ fun k hk => flagsSub_other a _ _ _ k hk,
        decOp_subRule a s⟩⟩

/-! ## What the flags mean -/

section Meaning

variable {n : Nat} {a b : BitVec n} {g : Flags}

/-- OF of an addition says that the signed sum does not fit (R222, R227). -/
theorem AddRule.OF_iff_overflow (h : AddRule a b (a.toNat + b.toNat) g) (hn : 0 < n) :
    g.OF = true ↔ a.toInt + b.toInt < -2 ^ (n - 1) ∨ (2 ^ (n - 1) : Int) ≤ a.toInt + b.toInt := by
  have sum : (a.toNat + b.toNat).testBit (n - 1) = (a + b).msb := by
    rw [BitVec.msb_eq_getLsbD_last, ← BitVec.testBit_toNat, BitVec.toNat_add,
      Nat.testBit_mod_two_pow, decide_eq_true (Nat.sub_one_lt_of_lt hn), Bool.true_and]
  calc g.OF = true
      ↔ a.msb = b.msb ∧ (a + b).msb ≠ a.msb := by
        rw [h.OF, sum, ← BitVec.msb_eq_getLsbD_last, ← BitVec.msb_eq_getLsbD_last]
    _ ↔ a.saddOverflow b = true := by simp [BitVec.saddOverflow_eq]
    _ ↔ _ := by simp [BitVec.saddOverflow, or_comm]

/-- OF of a subtraction is the library's signed overflow. -/
theorem SubRule.OF_eq_ssubOverflow (h : SubRule a b (a.toNat - b.toNat) g) :
    g.OF = a.ssubOverflow b := by
  rw [h.OF, ← BitVec.msb_eq_getLsbD_last, ofInt_toNat_sub, BitVec.ssubOverflow_eq, BitVec.msb_and,
    BitVec.msb_xor, BitVec.msb_xor]
  cases a.msb <;> cases b.msb <;> cases (a - b).msb <;> rfl

/-- OF of a subtraction says that the signed difference does not fit (R223, R227). -/
theorem SubRule.OF_iff_overflow (h : SubRule a b (a.toNat - b.toNat) g) :
    g.OF = true ↔ a.toInt - b.toInt < -2 ^ (n - 1) ∨ (2 ^ (n - 1) : Int) ≤ a.toInt - b.toInt := by
  simp [h.OF_eq_ssubOverflow, BitVec.ssubOverflow, or_comm]

theorem SubRule.SF_eq_msb (h : SubRule a b (a.toNat - b.toNat) g) : g.SF = (a - b).msb := by
  rw [h.szp.SF, ofInt_toNat_sub, BitVec.msb_eq_getLsbD_last]

/-- CF of a subtraction is the borrow, so unsigned less (R356, JB). -/
theorem SubRule.CF_iff_lt (h : SubRule a b (a.toNat - b.toNat) g) :
    g.CF = true ↔ a.toNat < b.toNat := by
  rw [h.CF]
  omega

/-- ZF of a subtraction is equality (R356, JZ). -/
theorem SubRule.ZF_iff_eq (h : SubRule a b (a.toNat - b.toNat) g) : g.ZF = true ↔ a = b := by
  rw [h.szp.ZF, ofInt_toNat_sub, BitVec.sub_eq_iff_eq_add, BitVec.zero_add]

/-- SF unlike OF is signed less (R356, JL): where the difference fits, SF is its sign; where it does
not, SF is the wrong sign. -/
theorem SubRule.SF_ne_OF_iff_lt (h : SubRule a b (a.toNat - b.toNat) g) :
    g.SF ≠ g.OF ↔ a.toInt < b.toInt := by
  rw [h.SF_eq_msb, h.OF_eq_ssubOverflow]
  cases hov : a.ssubOverflow b with
  | false =>
    have fits : (a - b).toInt = a.toInt - b.toInt :=
      BitVec.toInt_sub_of_not_ssubOverflow (by simp [hov])
    rw [BitVec.msb_eq_toInt, fits]
    simp
  | true =>
    have signs : a.msb = !b.msb ∧ (a - b).msb = b.msb := by
      rw [BitVec.ssubOverflow_eq] at hov
      revert hov
      cases a.msb <;> cases b.msb <;> cases (a - b).msb <;> decide
    obtain ⟨hab, hdiff⟩ := signs
    rw [BitVec.msb_eq_toInt, BitVec.msb_eq_toInt, ← decide_not, decide_eq_decide] at hab
    rw [hdiff, BitVec.msb_eq_toInt, ne_eq, decide_eq_true_iff]
    omega

end Meaning

/-- Settles O27: each meaning follows from the flag rules that O21, O22 and O24 give. -/
theorem flagsReportOrder : Obligations.FlagsReportOrder := fun f s hw =>
  ⟨(addAdc f s hw).1.imp (fun _ _ => rfl) fun _ _ _ hn h =>
      h.OF_iff_overflow (by omega),
    (subSbb f s hw).1.imp ofInt_toNat_sub fun _ _ _ _ h => h.OF_iff_overflow,
    ((cmpTest s).1 f).imp fun _ _ _ _ h => ⟨h.CF_iff_lt, h.ZF_iff_eq, h.SF_ne_OF_iff_lt⟩⟩

/-! ## The flags of NEG -/

/-- A number is no multiple of `2 ^ k` exactly when one of its low `k` bits is set. -/
theorem mod_two_pow_ne_zero_iff (x k : Nat) : x % 2 ^ k ≠ 0 ↔ ∃ j < k, x.testBit j = true := by
  constructor
  · intro h
    obtain ⟨j, hj⟩ := Nat.exists_testBit_of_ne_zero h
    rw [Nat.testBit_mod_two_pow, Bool.and_eq_true, decide_eq_true_iff] at hj
    exact ⟨j, hj⟩
  · rintro ⟨j, hj, hbit⟩ h
    have := Nat.testBit_mod_two_pow x k j
    simp [h, hj, hbit] at this

/-- Zero less a value leaves the signed range for the most negative value alone. -/
theorem zero_sub_overflow_iff {n : Nat} (a : BitVec n) (hn : 0 < n) :
    ((0#n).toInt - a.toInt < -2 ^ (n - 1) ∨ (2 ^ (n - 1) : Int) ≤ (0#n).toInt - a.toInt) ↔
      a.toNat = 2 ^ (n - 1) := by
  have half := Nat.two_pow_pred_mul_two hn
  have lt := a.isLt
  have cast : ((2 ^ (n - 1) : Nat) : Int) = 2 ^ (n - 1) := by norm_cast
  rw [BitVec.toInt_zero, BitVec.toInt_eq_toNat_cond a]
  split <;> push_cast [← half] <;> omega

section Neg

variable {n : Nat} {a : BitVec n} {g : Flags}

/-- CF of a subtraction from zero (R242). -/
theorem SubRule.CF_iff_ne_zero (h : SubRule 0#n a (0 - a.toNat) g) : g.CF = true ↔ a ≠ 0#n := by
  rw [h.CF, ← BitVec.toNat_inj.ne, BitVec.toNat_zero]
  omega

/-- OF of a subtraction from zero (R242). -/
theorem SubRule.OF_iff_most_negative (h : SubRule 0#n a (0 - a.toNat) g) (hn : 0 < n) :
    g.OF = true ↔ a.toNat = 2 ^ (n - 1) := by
  have h' : SubRule 0#n a ((0#n).toNat - a.toNat) g := by simpa using h
  rw [h'.OF_iff_overflow, zero_sub_overflow_iff a hn]

/-- AF of a subtraction from zero (R242): negation changes bit 4 when a lower bit is set. -/
theorem SubRule.AF_iff_low_digit (h : SubRule 0#n a (0 - a.toNat) g) (hn : 4 < n) :
    g.AF = true ↔ a.toNat % 16 ≠ 0 := by
  rw [h.AF, BitVec.zero_xor, BitVec.getLsbD_xor, ofInt_zero_sub_toNat, BitVec.getLsbD_neg,
    ← Bool.xor_assoc, Bool.xor_self, Bool.false_xor, decide_eq_true hn, Bool.true_and,
    decide_eq_true_iff]
  exact (mod_two_pow_ne_zero_iff a.toNat 4).symm

end Neg

/-- Settles O26: NEG is the one-operand skeleton with the subtract family's flags of zero less the
operand, from which its three formulas follow; NOT is the skeleton with no flag changed. -/
theorem negNot : Obligations.NegNot := by
  intro f s hw
  constructor
  · have rule := s.unary_spec negOp f.op aluFlags (fun a => -a)
      (fun {n} a g => SubRule 0#n a (0 - a.toNat) g) f.writable hw
      fun a => ⟨ofInt_zero_sub_toNat a, flagsSub_flagsOnly _ a _ s, flagsSub_rule _ a _ _⟩
    exact rule.imp fun _ _ hn h => ⟨h, h.CF_iff_ne_zero, h.OF_iff_most_negative (by omega),
      h.AF_iff_low_digit (by omega)⟩
  · exact s.unary_spec notOp f.op _ _ _ f.writable hw fun _ => ⟨rfl, FlagsOnly.refl s, trivial⟩

end Sys2Proof.Machine

namespace Sys2Proof.Machine

/-! Shifts and rotates (42_shift_rotate.md R280 to R288): the closed form of each operation's repeated
one-bit step. -/

/-- Settles O28: the shared skeleton writes nothing when the count is zero (R281). -/
theorem shiftByZero : Obligations.ShiftByZero := by
  intro f s hz
  have unchanged : ∀ op, (.next (s.shift op f) : Out) = .next s := fun op => by
    rw [s.shift_zero op f hz]
  simp only [List.forall_mem_cons]
  exact ⟨unchanged rolOp, unchanged rorOp, unchanged rclOp, unchanged rcrOp, unchanged shlOp,
    unchanged shrOp, unchanged sarOp, List.forall_mem_nil _⟩

/-! ## The overflow expressions, by bit number -/

theorem ovfLeft_eq :
    @ovfLeft = fun {n} (v : BitVec n) c => c ^^ v.getLsbD (n - 1) := by
  funext n v c
  rw [ovfLeft, BitVec.msb_eq_getLsbD_last]

theorem ovfRight_eq :
    @ovfRight = fun {n} (v : BitVec n) _ => v.getLsbD (n - 1) ^^ v.getLsbD (n - 2) := by
  funext n v c
  rw [ovfRight, BitVec.msb_eq_getLsbD_last]

/-! ## The repetition of a one-bit step -/

section Loop

variable {step : ShiftStep} {n : Nat}

/-- The loop, read from its last turn. -/
theorem shiftLoop_succ (k : Nat) (v : BitVec n) (c : Bool) :
    shiftLoop step (k + 1) v c = step (shiftLoop step k v c).1 (shiftLoop step k v c).2 := by
  induction k generalizing v c with
  | zero => rfl
  | succ k ih => exact ih _ _

/-- The loop of a step that takes each value of a sequence to the next, whatever the carry before. -/
theorem shiftLoop_of_step {val : Nat → BitVec n} {carry : Nat → Bool} {v : BitVec n}
    (start : val 0 = v) (next : ∀ k c, step (val k) c = (val (k + 1), carry (k + 1))) {k : Nat}
    (hk : k ≠ 0) (c : Bool) :
    (shiftLoop step k v c).1 = val k ∧ (shiftLoop step k v c).2 = carry k := by
  have value : ∀ k, (shiftLoop step k v c).1 = val k := fun k => by
    induction k with
    | zero => exact start.symm
    | succ k ih => rw [shiftLoop_succ, ih, next]
  obtain ⟨k, rfl⟩ := Nat.exists_eq_succ_of_ne_zero hk
  exact ⟨value _, by rw [shiftLoop_succ, value, next]⟩

end Loop

/-! ## One step, bit by bit -/

section Bits

variable {n i : Nat}

theorem getLsbD_wide (b : Bool) (hi : i < n) : (wide n b).getLsbD i = (decide (i = 0) && b) := by
  simp [wide, hi, BitVec.getLsbD_ofBool]

/-- A step to the left: `b` comes in at the bottom. -/
theorem getLsbD_shiftIn_low (v : BitVec n) (b : Bool) (hi : i < n) :
    (v <<< 1 ||| wide n b).getLsbD i = if i = 0 then b else v.getLsbD (i - 1) := by
  rw [BitVec.getLsbD_or, getLsbD_wide b hi, BitVec.getLsbD_shiftLeft]
  by_cases h : i = 0 <;> simp [h, hi]

/-- A step to the right: `b` comes in at the top. -/
theorem getLsbD_shiftIn_high (v : BitVec n) (b : Bool) (hi : i < n) :
    (v >>> 1 ||| wide n b <<< (n - 1)).getLsbD i =
      if i = n - 1 then b else v.getLsbD (i + 1) := by
  rw [BitVec.getLsbD_or, BitVec.getLsbD_ushiftRight, BitVec.getLsbD_shiftLeft,
    getLsbD_wide b (by omega), Nat.add_comm 1 i]
  by_cases h : i = n - 1
  · have top : n - 1 + 1 = n := by omega
    simp [h, top]
    omega
  · have below : i < n - 1 := by omega
    simp [h, below]

/-- The successor modulo `n` wraps or counts on. -/
theorem succ_mod_eq_ite (k : Nat) (hn : 0 < n) :
    (k + 1) % n = if k % n + 1 = n then 0 else k % n + 1 := by
  have := Nat.mod_lt k hn
  rw [← Nat.mod_add_mod]
  split
  · next h => rw [h, Nat.mod_self]
  · exact Nat.mod_eq_of_lt (by omega)

/-- A rotation by one more; the library's bit lemma reduces the amount modulo the width, so it may wrap. -/
theorem getLsbD_rotateLeft_succ (x : BitVec n) (k : Nat) (hi : i < n) :
    (x.rotateLeft (k + 1)).getLsbD i =
      if i = 0 then (x.rotateLeft k).getLsbD (n - 1) else (x.rotateLeft k).getLsbD (i - 1) := by
  have hn := Nat.zero_lt_of_lt hi
  have hm := Nat.mod_lt k hn
  simp only [BitVec.getLsbD_rotateLeft, succ_mod_eq_ite k hn]
  by_cases wraps : k % n + 1 = n
  · rw [if_pos wraps]; grind
  · rw [if_neg wraps]; grind

theorem getLsbD_rotateRight_succ (x : BitVec n) (k : Nat) (hi : i < n) :
    (x.rotateRight (k + 1)).getLsbD i =
      if i = n - 1 then (x.rotateRight k).getLsbD 0 else (x.rotateRight k).getLsbD (i + 1) := by
  have hn := Nat.zero_lt_of_lt hi
  have hm := Nat.mod_lt k hn
  have below : i ≠ n - 1 → i + 1 < n := by omega
  simp only [BitVec.getLsbD_rotateRight, succ_mod_eq_ite k hn]
  by_cases wraps : k % n + 1 = n
  · rw [if_pos wraps]; grind
  · rw [if_neg wraps]; grind

theorem rotateLeft_zero (x : BitVec n) : x.rotateLeft 0 = x := by
  simp [BitVec.rotateLeft, BitVec.rotateLeftAux, BitVec.ushiftRight_eq_zero]

theorem rotateRight_zero (x : BitVec n) : x.rotateRight 0 = x := by
  simp [BitVec.rotateRight, BitVec.rotateRightAux]

/-- A value with the carry above it. -/
theorem getLsbD_ofBool_append (c : Bool) (v : BitVec n) (i : Nat) :
    (BitVec.ofBool c ++ v).getLsbD i =
      if i < n then v.getLsbD i else decide (i = n) && c := by
  rw [BitVec.getLsbD_append, BitVec.getLsbD_ofBool]
  by_cases h : i < n
  · simp [h]
  · have same : i - n = 0 ↔ i = n := by omega
    simp [h, same]

end Bits

section ClosedForms

variable {n k : Nat}

/-! ## ROL and ROR -/

/-- The bit that a rotation to the left takes across the end is its new lowest bit (R282). -/
theorem rolStep_rotateLeft (hn : 0 < n) (v : BitVec n) (k : Nat) (c : Bool) :
    rolStep (v.rotateLeft k) c =
      (v.rotateLeft (k + 1), (v.rotateLeft (k + 1)).getLsbD 0) := by
  refine Prod.ext (BitVec.eq_of_getLsbD_eq fun i hi => ?_) ?_
  · rw [getLsbD_rotateLeft_succ v k hi, rolStep, getLsbD_shiftIn_low _ _ hi,
      BitVec.msb_eq_getLsbD_last]
  · rw [getLsbD_rotateLeft_succ v k hn, if_pos rfl, rolStep, BitVec.msb_eq_getLsbD_last]

/-- The bit that a rotation to the right takes across the end is its new highest bit (R283). -/
theorem rorStep_rotateRight (hn : 0 < n) (v : BitVec n) (k : Nat) (c : Bool) :
    rorStep (v.rotateRight k) c =
      (v.rotateRight (k + 1), (v.rotateRight (k + 1)).getLsbD (n - 1)) := by
  refine Prod.ext (BitVec.eq_of_getLsbD_eq fun i hi => ?_) ?_
  · rw [getLsbD_rotateRight_succ v k hi, rorStep, getLsbD_shiftIn_high _ _ hi]
  · rw [getLsbD_rotateRight_succ v k (by omega), if_pos rfl, rorStep]

theorem shiftLoop_rolStep (hn : 0 < n) (hk : k ≠ 0) (v : BitVec n) (c : Bool) :
    (shiftLoop rolStep k v c).1 = v.rotateLeft k ∧
      (shiftLoop rolStep k v c).2 = (shiftLoop rolStep k v c).1.getLsbD 0 := by
  obtain ⟨value, carry⟩ := shiftLoop_of_step (carry := fun k => (v.rotateLeft k).getLsbD 0)
    (rotateLeft_zero v) (rolStep_rotateLeft hn v) hk c
  exact ⟨value, by rw [carry, value]⟩

theorem shiftLoop_rorStep (hn : 0 < n) (hk : k ≠ 0) (v : BitVec n) (c : Bool) :
    (shiftLoop rorStep k v c).1 = v.rotateRight k ∧
      (shiftLoop rorStep k v c).2 = (shiftLoop rorStep k v c).1.getLsbD (n - 1) := by
  obtain ⟨value, carry⟩ := shiftLoop_of_step (carry := fun k => (v.rotateRight k).getLsbD (n - 1))
    (rotateRight_zero v) (rorStep_rotateRight hn v) hk c
  exact ⟨value, by rw [carry, value]⟩

/-! ## RCL and RCR -/

/-- The step of RCL on value and carry joined, the carry on top (R284). -/
theorem rclStep_append (hn : 0 < n) {v : BitVec n} {c : Bool} {x : BitVec (1 + n)}
    (h : BitVec.ofBool c ++ v = x.rotateLeft k) :
    BitVec.ofBool (rclStep v c).2 ++ (rclStep v c).1 = x.rotateLeft (k + 1) := by
  refine BitVec.eq_of_getLsbD_eq fun i hi => ?_
  rw [getLsbD_rotateLeft_succ x k hi, ← h]
  simp only [getLsbD_ofBool_append, rclStep]
  by_cases hin : i < n
  · rw [getLsbD_shiftIn_low v c hin]
    grind
  · -- the new carry is the old top bit of the value
    grind [BitVec.msb_eq_getLsbD_last]

/-- The step of RCR on value and carry joined (R285). -/
theorem rcrStep_append (hn : 0 < n) {v : BitVec n} {c : Bool} {x : BitVec (1 + n)}
    (h : BitVec.ofBool c ++ v = x.rotateRight k) :
    BitVec.ofBool (rcrStep v c).2 ++ (rcrStep v c).1 = x.rotateRight (k + 1) := by
  refine BitVec.eq_of_getLsbD_eq fun i hi => ?_
  rw [getLsbD_rotateRight_succ x k hi, ← h]
  simp only [getLsbD_ofBool_append, rcrStep]
  by_cases hin : i < n
  · rw [getLsbD_shiftIn_high v c hin]
    grind
  · -- the new carry is the old lowest bit of the value
    grind

theorem shiftLoop_rclStep_append (hn : 0 < n) (v : BitVec n) (c : Bool) (k : Nat) :
    BitVec.ofBool (shiftLoop rclStep k v c).2 ++ (shiftLoop rclStep k v c).1 =
      (BitVec.ofBool c ++ v).rotateLeft k := by
  induction k with
  | zero => exact (rotateLeft_zero _).symm
  | succ k ih => rw [shiftLoop_succ]; exact rclStep_append hn ih

theorem shiftLoop_rcrStep_append (hn : 0 < n) (v : BitVec n) (c : Bool) (k : Nat) :
    BitVec.ofBool (shiftLoop rcrStep k v c).2 ++ (shiftLoop rcrStep k v c).1 =
      (BitVec.ofBool c ++ v).rotateRight k := by
  induction k with
  | zero => exact (rotateRight_zero _).symm
  | succ k ih => rw [shiftLoop_succ]; exact rcrStep_append hn ih

/-! ## SHL, SHR and SAR -/

theorem shlStep_shiftLeft (v : BitVec n) (k : Nat) (c : Bool) :
    shlStep (v <<< k) c = (v <<< (k + 1), decide (k + 1 ≤ n) && v.getLsbD (n - (k + 1))) := by
  refine Prod.ext (BitVec.shiftLeft_add v k 1).symm ?_
  rw [shlStep, BitVec.msb_shiftLeft, BitVec.getMsbD, Nat.sub_sub, Nat.add_comm 1 k]
  rfl

theorem shrStep_shiftRight (v : BitVec n) (k : Nat) (c : Bool) :
    shrStep (v >>> k) c = (v >>> (k + 1), v.getLsbD (k + 1 - 1)) := by
  refine Prod.ext (BitVec.shiftRight_add v k 1).symm ?_
  rw [shrStep, BitVec.getLsbD_ushiftRight, Nat.add_zero, Nat.add_sub_cancel]

/-- The step of SAR brings the sign in at the top (R288). -/
theorem sarStep_fst (v : BitVec n) (c : Bool) : (sarStep v c).1 = v.sshiftRight 1 := by
  refine BitVec.eq_of_getLsbD_eq fun i hi => ?_
  rw [sarStep, getLsbD_shiftIn_high _ _ hi, BitVec.getLsbD_sshiftRight]
  grind

theorem sarStep_sshiftRight (hn : 0 < n) (v : BitVec n) (k : Nat) (c : Bool) :
    sarStep (v.sshiftRight k) c = (v.sshiftRight (k + 1), v.getLsbD (min (k + 1) n - 1)) := by
  refine Prod.ext ((sarStep_fst _ c).trans BitVec.sshiftRight_add.symm) ?_
  rw [sarStep, BitVec.getLsbD_sshiftRight]
  by_cases h : k < n
  · rw [Nat.min_eq_left h]
    simp [h, hn.ne']
  · rw [Nat.min_eq_right (by omega)]
    simp only [Nat.add_zero, h, if_false, hn.not_ge, decide_false, Bool.not_false, Bool.true_and,
      BitVec.msb_eq_getLsbD_last]

theorem shiftLoop_shlStep (hk : k ≠ 0) (v : BitVec n) (c : Bool) :
    (shiftLoop shlStep k v c).1 = v <<< k ∧
      (shiftLoop shlStep k v c).2 = (decide (k ≤ n) && v.getLsbD (n - k)) :=
  shiftLoop_of_step (carry := fun k => decide (k ≤ n) && v.getLsbD (n - k))
    (BitVec.shiftLeft_zero v) (shlStep_shiftLeft v) hk c

theorem shiftLoop_shrStep (hk : k ≠ 0) (v : BitVec n) (c : Bool) :
    (shiftLoop shrStep k v c).1 = v >>> k ∧ (shiftLoop shrStep k v c).2 = v.getLsbD (k - 1) :=
  shiftLoop_of_step (carry := fun k => v.getLsbD (k - 1)) (BitVec.ushiftRight_zero v)
    (shrStep_shiftRight v) hk c

theorem shiftLoop_sarStep (hn : 0 < n) (hk : k ≠ 0) (v : BitVec n) (c : Bool) :
    (shiftLoop sarStep k v c).1 = v.sshiftRight k ∧
      (shiftLoop sarStep k v c).2 = v.getLsbD (min k n - 1) :=
  shiftLoop_of_step (carry := fun k => v.getLsbD (min k n - 1)) BitVec.sshiftRight_zero
    (sarStep_sshiftRight hn v) hk c

end ClosedForms

/-! ## The instructions -/

/-- Settles O29: by the skeleton; each turn rotates once more, and the bit that crosses the end is the
carry. -/
theorem rotatesClosedForm : Obligations.RotatesClosedForm := by
  intro f s hw hk
  rw [← ovfLeft_eq, ← ovfRight_eq]
  exact ⟨s.shift_spec rolOp f _ hw hk fun v c hn => shiftLoop_rolStep (by omega) hk v c,
    s.shift_spec rorOp f _ hw hk fun v c hn => shiftLoop_rorStep (by omega) hk v c⟩

/-- Settles O30: by the skeleton; each turn rotates value and carry, joined, once more. -/
theorem carryRotatesClosedForm : Obligations.CarryRotatesClosedForm := by
  intro f s hw hk
  rw [← ovfLeft_eq, ← ovfRight_eq]
  exact ⟨s.shift_spec rclOp f _ hw hk fun v c hn => shiftLoop_rclStep_append (by omega) v c _,
    s.shift_spec rcrOp f _ hw hk fun v c hn => shiftLoop_rcrStep_append (by omega) v c _⟩

/-- Settles O31: by the skeleton; each turn shifts once more, also past the width. -/
theorem shiftsClosedForm : Obligations.ShiftsClosedForm := by
  intro f s hw hk
  rw [← ovfLeft_eq, ← ovfRight_eq]
  exact ⟨s.shift_spec shlOp f _ hw hk fun v c _ => shiftLoop_shlStep hk v c,
    s.shift_spec shrOp f _ hw hk fun v c _ => shiftLoop_shrStep hk v c,
    s.shift_spec sarOp f _ hw hk fun v c hn => shiftLoop_sarStep (by omega) hk v c⟩

end Sys2Proof.Machine

namespace Sys2Proof.Machine

/-! Multiply, divide and the decimal adjusts (43_muldiv_bcd.md R310 to R323). -/

/-! ## What `Undef` keeps, and the register pairs -/

theorem State.undefs_reg16 (s : State) (ks : List Flag) (r : Reg16) :
    (s.undefs ks).reg16 r = s.reg16 r :=
  (s.undefs_only ks).regs r nofun nofun

theorem State.undefs_reg8 (s : State) (ks : List Flag) (r : Reg8) :
    (s.undefs ks).reg8 r = s.reg8 r :=
  (s.undefs_only ks).bytes r nofun nofun

/-- Flags that were kept until `Undef` ran are kept under the policy `unchanged` (R225). -/
theorem State.undefs_undefRule {s t : State} {js ks : List Flag} (hp : t.params = s.params)
    (hk : ∀ k ∈ ks, t.flags.get k = s.flags.get k) : UndefRule ks s (t.undefs js) := by
  intro unchanged
  rw [t.undefs_unchanged js (hp ▸ unchanged)]
  exact hk

theorem State.reg8_setReg16_mkWord (s : State) (lo hi : Byte) :
    (s.setReg16 .ax (mkWord lo hi)).reg8 .al = lo ∧ (s.setReg16 .ax (mkWord lo hi)).reg8 .ah = hi :=
  ⟨loByte_mkWord lo hi, hiByte_mkWord lo hi⟩

/-- The number that a register pair holds. -/
theorem toNat_append_word (hi lo : Word) :
    (hi ++ lo : BitVec 32).toNat = hi.toNat * 2 ^ 16 + lo.toNat := by
  rw [BitVec.toNat_append, ← Nat.shiftLeft_add_eq_or_of_lt lo.isLt, Nat.shiftLeft_eq]

/-! ## MUL and IMUL -/

theorem mulU_lt {n : Nat} (a b : BitVec n) : mulU a b < 2 ^ (n * 2) := BitVec.toNat_mul_toNat_lt

theorem mulS_lt {n : Nat} (a b : BitVec n) : mulS a b < 2 ^ (2 * n) := BitVec.isLt _

/-- A product of two bytes goes to AX whole (R310). -/
theorem State.product8_spec (s : State) (a b : Byte) {raw : Nat} (h : raw < 2 ^ 16) :
    Only { regs := [.ax], flags := aluFlags } s (s.product8 a b raw) ∧
      (s.product8 a b raw).regs.ax.toNat = raw ∧ AddRule a b raw (s.product8 a b raw).flags :=
  ⟨(s.setReg16_only .ax _).trans (flagsAdd_flagsOnly a b raw _).only,
    Nat.mod_eq_of_lt h, flagsAdd_rule a b raw _⟩

/-- A product of two words is split between DX and AX (R310). -/
theorem State.product16_spec (s : State) (a b : Word) {raw : Nat} (h : raw < 2 ^ 32) :
    Only { regs := [.ax, .dx], flags := aluFlags } s (s.product16 a b raw) ∧
      ((s.product16 a b raw).regs.dx ++ (s.product16 a b raw).regs.ax : BitVec 32).toNat = raw ∧
      AddRule a b raw (s.product16 a b raw).flags := by
  refine ⟨((s.setReg16_only .ax _).trans (State.setReg16_only _ .dx _)).trans
    (flagsAdd_flagsOnly a b raw _).only, ?_, flagsAdd_rule a b raw _⟩
  have joined : (BitVec.ofNat 16 (raw / 2 ^ 16) ++ BitVec.ofNat 16 raw : BitVec 32).toNat = raw := by
    rw [toNat_append_word, BitVec.toNat_ofNat, BitVec.toNat_ofNat]
    omega
  exact joined

/-- Settles O32: either is the write of a product that fits its destination, with the add family's
flags. -/
theorem mulImul : Obligations.MulImul := by
  intro s
  constructor
  · rintro i rm raw (⟨rfl, rfl⟩ | ⟨rfl, rfl⟩)
    · exact ⟨_, rfl, s.product8_spec _ _ (mulU_lt _ _)⟩
    · exact ⟨_, rfl, s.product8_spec _ _ (mulS_lt _ _)⟩
  · rintro i rm raw (⟨rfl, rfl⟩ | ⟨rfl, rfl⟩)
    · exact ⟨_, rfl, s.product16_spec _ _ (mulU_lt _ _)⟩
    · exact ⟨_, rfl, s.product16_spec _ _ (mulS_lt _ _)⟩

/-! ## The quotients -/

section Quotients

variable {w : Nat}

theorem divU_of_fits {n d : Nat} (hd : d ≠ 0) (hq : n / d < 2 ^ w) :
    divU w n d = some (n / d, n % d) := by
  rw [divU, if_neg hd, if_neg hq.not_ge]

theorem divU_of_error {n d : Nat} (h : d = 0 ∨ 2 ^ w ≤ n / d) : divU w n d = none := by
  by_cases hd : d = 0
  · rw [divU, if_pos hd]
  · rw [divU, if_neg hd, if_pos (h.resolve_left hd)]

theorem divS_of_fits {n d : Int} (hd : d ≠ 0) (lo : -2 ^ (w - 1) ≤ n.tdiv d)
    (hi : n.tdiv d ≤ 2 ^ (w - 1) - 1) : divS w n d = some (n.tdiv d, n.tmod d) := by
  rw [divS, if_neg hd, if_neg (by omega)]

theorem divS_of_error {n d : Int}
    (h : d = 0 ∨ n.tdiv d < -2 ^ (w - 1) ∨ 2 ^ (w - 1) - 1 < n.tdiv d) : divS w n d = none := by
  by_cases hd : d = 0
  · rw [divS, if_pos hd]
  · rw [divS, if_neg hd, if_pos (h.resolve_left hd)]

theorem toNat_ofNat_mod (n : Nat) {d : BitVec w} (hd : d.toNat ≠ 0) :
    (BitVec.ofNat w (n % d.toNat)).toNat = n % d.toNat :=
  Nat.mod_eq_of_lt ((Nat.mod_lt n (Nat.pos_of_ne_zero hd)).trans d.isLt)

/-- The remainder of a signed division is smaller than the divisor, so it fits the divisor's width
(R313). -/
theorem toInt_ofInt_tmod (hw : 0 < w) (n : Int) {d : BitVec w} (hd : d.toInt ≠ 0) :
    (BitVec.ofInt w (n.tmod d.toInt)).toInt = n - n.tdiv d.toInt * d.toInt := by
  have smaller : (n.tmod d.toInt).natAbs < d.toInt.natAbs := by
    rw [Int.natAbs_tmod]
    exact Nat.mod_lt _ (Int.natAbs_pos.2 hd)
  have lo := d.le_toInt
  have hi := d.toInt_lt
  rw [BitVec.toInt_ofInt_eq_self hw (by omega) (by omega), Int.tmod_def, Int.mul_comm]

end Quotients

/-! ## DIV and IDIV -/

/-- A division of a word completes into AL and AH with its six flags undefined (R312, R313). -/
theorem State.quotient8_spec (s : State) (q r : Byte) :
    Only { regs := [.ax], flags := aluFlags, free := true } s (s.quotient8 q r) ∧
      UndefRule aluFlags s (s.quotient8 q r) ∧
      (s.quotient8 q r).reg8 .al = q ∧ (s.quotient8 q r).reg8 .ah = r := by
  obtain ⟨al, ah⟩ := s.reg8_setReg16_mkWord q r
  refine ⟨((s.setReg16_only .ax _).trans (State.undefs_only _ divFlags)).mono ?_,
    State.undefs_undefRule rfl fun _ _ => rfl, (State.undefs_reg8 _ _ .al).trans al,
    (State.undefs_reg8 _ _ .ah).trans ah⟩
  constructor <;> decide

/-- A division of a double word completes into AX and DX. -/
theorem State.quotient16_spec (s : State) (q r : Word) :
    Only { regs := [.ax, .dx], flags := aluFlags, free := true } s (s.quotient16 q r) ∧
      UndefRule aluFlags s (s.quotient16 q r) ∧
      (s.quotient16 q r).regs.ax = q ∧ (s.quotient16 q r).regs.dx = r := by
  refine ⟨(((s.setReg16_only .ax _).trans (State.setReg16_only _ .dx _)).trans
      (State.undefs_only _ divFlags)).mono ?_,
    State.undefs_undefRule rfl fun _ _ => rfl, State.undefs_reg16 _ _ .ax,
    State.undefs_reg16 _ _ .dx⟩
  constructor <;> decide

/-! Each form as one next state: the quotient's, or the divide error's where there is none (R312 to
R314). -/

theorem exec_div_rm8 (rm : Rm8) (s : State) :
    exec (.div (.rm8 rm)) s =
      .next ((divU 8 s.regs.ax.toNat (s.get8 (.ofRm rm)).toNat).elim s.divideError
        fun qr => s.quotient8 (BitVec.ofNat 8 qr.1) (BitVec.ofNat 8 qr.2)) := by
  show execDiv (.rm8 rm) s = _
  unfold execDiv
  simp only [UnForm.op]
  split <;> simp [*]

theorem exec_div_rm16 (rm : Rm16) (s : State) :
    exec (.div (.rm16 rm)) s =
      .next ((divU 16 (s.regs.dx ++ s.regs.ax : BitVec 32).toNat (s.get16 (.ofRm rm)).toNat).elim
        s.divideError fun qr => s.quotient16 (BitVec.ofNat 16 qr.1) (BitVec.ofNat 16 qr.2)) := by
  show execDiv (.rm16 rm) s = _
  rw [← State.dividend]
  unfold execDiv
  simp only [UnForm.op]
  split <;> simp [*]

theorem exec_idiv_rm8 (rm : Rm8) (s : State) :
    exec (.idiv (.rm8 rm)) s =
      .next ((divS 8 s.regs.ax.toInt (s.get8 (.ofRm rm)).toInt).elim s.divideError
        fun qr => s.quotient8 (BitVec.ofInt 8 qr.1) (BitVec.ofInt 8 qr.2)) := by
  show execIdiv (.rm8 rm) s = _
  unfold execIdiv
  simp only [UnForm.op]
  split <;> simp [*]

theorem exec_idiv_rm16 (rm : Rm16) (s : State) :
    exec (.idiv (.rm16 rm)) s =
      .next ((divS 16 (s.regs.dx ++ s.regs.ax : BitVec 32).toInt (s.get16 (.ofRm rm)).toInt).elim
        s.divideError fun qr => s.quotient16 (BitVec.ofInt 16 qr.1) (BitVec.ofInt 16 qr.2)) := by
  show execIdiv (.rm16 rm) s = _
  rw [← State.dividend]
  unfold execIdiv
  simp only [UnForm.op]
  split <;> simp [*]

/-- Settles O33: the quotient fits by hypothesis, the remainder because it is smaller than the
divisor. -/
theorem divIdivComplete : Obligations.DivIdivComplete := by
  intro s
  refine ⟨?div8, ?div16, ?idiv8, ?idiv16⟩
  case div8 =>
    intro rm d hd hq
    refine ⟨_, exec_div_rm8 rm s, ?_⟩
    rw [divU_of_fits hd hq]
    obtain ⟨only, undef, quot, rem⟩ := s.quotient8_spec (.ofNat 8 (s.regs.ax.toNat / d))
      (.ofNat 8 (s.regs.ax.toNat % d))
    exact ⟨only, undef, quot ▸ Nat.mod_eq_of_lt hq, rem ▸ toNat_ofNat_mod _ hd⟩
  case div16 =>
    intro rm d n hd hq
    refine ⟨_, exec_div_rm16 rm s, ?_⟩
    rw [toNat_append_word, divU_of_fits hd hq]
    obtain ⟨only, undef, quot, rem⟩ := s.quotient16_spec (.ofNat 16 (n / d)) (.ofNat 16 (n % d))
    exact ⟨only, undef, quot ▸ Nat.mod_eq_of_lt hq, rem ▸ toNat_ofNat_mod _ hd⟩
  case idiv8 =>
    intro rm d n hd lo hi
    refine ⟨_, exec_idiv_rm8 rm s, ?_⟩
    rw [divS_of_fits hd lo hi]
    obtain ⟨only, undef, quot, rem⟩ := s.quotient8_spec (.ofInt 8 (n.tdiv d)) (.ofInt 8 (n.tmod d))
    exact ⟨only, undef, quot ▸ BitVec.toInt_ofInt_eq_self (by decide) lo (by omega),
      rem ▸ toInt_ofInt_tmod (by decide) n hd⟩
  case idiv16 =>
    intro rm d n hd lo hi
    refine ⟨_, exec_idiv_rm16 rm s, ?_⟩
    rw [divS_of_fits hd lo hi]
    obtain ⟨only, undef, quot, rem⟩ :=
      s.quotient16_spec (.ofInt 16 (n.tdiv d)) (.ofInt 16 (n.tmod d))
    exact ⟨only, undef, quot ▸ BitVec.toInt_ofInt_eq_self (by decide) lo (by omega),
      rem ▸ toInt_ofInt_tmod (by decide) n hd⟩

/-- Settles O34: there is no quotient, so the division is software interrupt entry through vector 0. -/
theorem divideErrors : Obligations.DivideErrors := by
  intro s hw
  have entry : Entry 0 false s s.divideError := s.vector_entry 0 .software (by decide) hw
  constructor
  · intro rm d
    refine ⟨fun h => ⟨_, exec_div_rm8 rm s, ?_⟩, fun h => ⟨_, exec_idiv_rm8 rm s, ?_⟩⟩
    · rw [divU_of_error h]; exact entry
    · rw [divS_of_error h]; exact entry
  · intro rm d n
    refine ⟨fun h => ⟨_, exec_div_rm16 rm s, ?_⟩, fun h => ⟨_, exec_idiv_rm16 rm s, ?_⟩⟩
    · rw [divU_of_error h]; exact entry
    · rw [divS_of_error h]; exact entry

/-! ## DAA and DAS -/

theorem lowAdjust_iff (al : Byte) (f : Flags) :
    lowAdjust al f = true ↔ 9 < (al &&& 0x0F).toNat ∨ f.AF = true := by
  simp [lowAdjust]

theorem highAdjust_iff (al : Byte) (f : Flags) :
    highAdjust al f = true ↔ 0x99 < al.toNat ∨ f.CF = true := by
  simp [highAdjust]

/-- What DAA and DAS share: AL, AF and CF as given, SF, ZF, PF from AL, OF undefined (R320, R321). -/
theorem State.decimalResult_spec (s : State) (al : Byte) (af cf : Bool) :
    Only { bytes := [.al], flags := aluFlags, free := true } s (s.decimalResult al af cf) ∧
      UndefRule [.OF] s (s.decimalResult al af cf) ∧ (s.decimalResult al af cf).reg8 .al = al ∧
      (s.decimalResult al af cf).flags.AF = af ∧ (s.decimalResult al af cf).flags.CF = cf ∧
      SzpRule al (s.decimalResult al af cf).flags := by
  let t := (s.setReg8 .al al).mapFlags fun f => setSZP al { f with AF := af, CF := cf }
  have flags : FlagsOnly aluFlags true (s.setReg8 .al al) (t.undef .OF) :=
    (State.mapFlags_flagsOnly _ _ _ _ fun k hk => by
      cases k with
      | TF | IF | DF => rfl
      | CF | PF | AF | ZF | SF | OF => simp [aluFlags] at hk).trans
      ((t.undef_flagsOnly .OF).mono (by decide) id)
  have keep : ∀ k, k ≠ .OF → (t.undef .OF).flags.get k = t.flags.get k :=
    fun k hk => t.undef_get_other k .OF hk
  refine ⟨(s.setReg8_only .al al).trans flags.only,
    State.undefs_undefRule (t := t) (js := [.OF]) rfl fun k hk => ?_,
    (State.undefs_reg8 t [.OF] .al).trans (s.reg8_setReg8_same .al al), keep .AF (by decide),
    keep .CF (by decide), ?_⟩
  · obtain rfl := List.mem_singleton.1 hk
    rfl
  · exact (setSZP_rule al _).congr (keep .ZF (by decide)) (keep .SF (by decide))
      (keep .PF (by decide))

/-- The two corrections of a byte that DAA and DAS make, each where its condition holds. -/
def adjustDigits (f g : Byte → Byte) (low high : Bool) (al : Byte) : Byte :=
  let a := if low then f al else al
  if high then g a else a

theorem adjustDigits_cases (f g : Byte → Byte) {low high : Bool} {L H : Prop}
    (hl : low = true ↔ L) (hh : high = true ↔ H) (al : Byte) :
    (L → H → adjustDigits f g low high al = g (f al)) ∧
      (L → ¬H → adjustDigits f g low high al = f al) ∧
      (¬L → H → adjustDigits f g low high al = g al) ∧
      (¬L → ¬H → adjustDigits f g low high al = al) := by
  rw [← hl, ← hh]
  cases low <;> cases high <;> simp [adjustDigits]

/-- CF after DAS (R321): the old CF, which the first step passes on, is one of the conditions of the
second. -/
theorem dasCarry_iff (al : Byte) (f : Flags) :
    (highAdjust al f || (lowAdjust al f && (f.CF || decide (al.toNat < 0x06)))) = true ↔
      (0x99 < al.toNat ∨ f.CF = true) ∨
        (9 < (al &&& 0x0F).toNat ∨ f.AF = true) ∧ al.toNat < 6 := by
  simp only [Bool.or_eq_true, Bool.and_eq_true, decide_eq_true_iff, lowAdjust_iff, highAdjust_iff]
  tauto

/-- What DAA and DAS do, for the two corrections of either and its rule for CF. -/
theorem State.decimalAdjust_spec (s : State) (f g : Byte → Byte) {both : Byte} {cf : Bool}
    {carry : Prop} (hboth : g (f (s.reg8 .al)) = both) (hcf : cf = true ↔ carry) :
    let al := s.reg8 .al
    let low : Prop := 9 < (al &&& 0x0F).toNat ∨ s.flags.AF = true
    let high : Prop := 0x99 < al.toNat ∨ s.flags.CF = true
    ∃ t, (.next (s.decimalResult
          (adjustDigits f g (lowAdjust al s.flags) (highAdjust al s.flags) al)
          (lowAdjust al s.flags) cf) : Out) = .next t ∧
      Only { bytes := [.al], flags := aluFlags, free := true } s t ∧ UndefRule [.OF] s t ∧
      (low → high → t.reg8 .al = both) ∧ (low → ¬high → t.reg8 .al = f al) ∧
      (¬low → high → t.reg8 .al = g al) ∧ (¬low → ¬high → t.reg8 .al = al) ∧
      (t.flags.AF = true ↔ low) ∧ (t.flags.CF = true ↔ carry) ∧
      SzpRule (t.reg8 .al) t.flags := by
  intro al low high
  have hlow : lowAdjust al s.flags = true ↔ low := lowAdjust_iff al s.flags
  have hhigh : highAdjust al s.flags = true ↔ high := highAdjust_iff al s.flags
  obtain ⟨hb, hf, hg, neither⟩ := adjustDigits_cases f g hlow hhigh al
  obtain ⟨only, undef, result, af, cf', szp⟩ := s.decimalResult_spec
    (adjustDigits f g (lowAdjust al s.flags) (highAdjust al s.flags) al) (lowAdjust al s.flags) cf
  refine ⟨_, rfl, only, undef, ?_⟩
  rw [result, af, cf']
  exact ⟨fun l h => (hb l h).trans hboth, hf, hg, neither, hlow, hcf, szp⟩

/-- Settles O35: when both corrections are due they add up; CF follows each instruction's own rule. -/
theorem daaDas : Obligations.DaaDas := fun s =>
  ⟨s.decimalAdjust_spec (· + 0x06#8) (· + 0x60#8) (add_assoc _ _ _) (highAdjust_iff _ _),
    s.decimalAdjust_spec (· - 0x06#8) (· - 0x60#8) (sub_sub _ _ _) (dasCarry_iff _ _)⟩

/-! ## AAA and AAS -/

/-- What AAA and AAS share: AX, and AF and CF alike, the other four flags undefined (R322, R323). -/
theorem State.asciiResult_spec (s : State) (al ah : Byte) (c : Bool) :
    Only { regs := [.ax], flags := aluFlags, free := true } s (s.asciiResult al ah c) ∧
      UndefRule [.OF, .SF, .ZF, .PF] s (s.asciiResult al ah c) ∧
      (s.asciiResult al ah c).reg8 .al = al &&& 0x0F ∧ (s.asciiResult al ah c).reg8 .ah = ah ∧
      (s.asciiResult al ah c).flags.AF = c ∧ (s.asciiResult al ah c).flags.CF = c := by
  let t := (s.setReg16 .ax (mkWord (al &&& 0x0F#8) ah)).mapFlags fun f => { f with AF := c, CF := c }
  have other : ∀ k, k ∉ [Flag.AF, .CF] → t.flags.get k = s.flags.get k := fun k hk => by
    cases k with
    | AF | CF => simp at hk
    | PF | ZF | SF | TF | IF | DF | OF => rfl
  have undefs := t.undefs_only [.OF, .SF, .ZF, .PF]
  obtain ⟨hal, hah⟩ := s.reg8_setReg16_mkWord (al &&& 0x0F#8) ah
  refine ⟨(((s.setReg16_only .ax _).trans (State.mapFlags_only _ _ [.AF, .CF] other)).trans
      undefs).mono ?_,
    State.undefs_undefRule (t := t) rfl fun k hk => other k ?_, (t.undefs_reg8 _ .al).trans hal,
    (t.undefs_reg8 _ .ah).trans hah, undefs.flags .AF (by decide), undefs.flags .CF (by decide)⟩
  · constructor <;> decide
  · revert k; decide

/-- The choice that AAA and AAS make, for the adjusted values of either. -/
theorem State.asciiAdjust_spec (s : State) (al' ah' : Byte) :
    let al := s.reg8 .al
    let ah := s.reg8 .ah
    let low : Prop := 9 < (al &&& 0x0F).toNat ∨ s.flags.AF = true
    ∃ t, (if lowAdjust al s.flags then .next (s.asciiResult al' ah' true)
        else .next (s.asciiResult al ah false) : Out) = .next t ∧
      Only { regs := [.ax], flags := aluFlags, free := true } s t ∧
      UndefRule [.OF, .SF, .ZF, .PF] s t ∧
      (low → t.reg8 .al = al' &&& 0x0F ∧ t.reg8 .ah = ah') ∧
      (¬low → t.reg8 .al = al &&& 0x0F ∧ t.reg8 .ah = ah) ∧
      (t.flags.AF = true ↔ low) ∧ (t.flags.CF = true ↔ low) := by
  intro al ah low
  have hlow : lowAdjust al s.flags = true ↔ low := lowAdjust_iff al s.flags
  by_cases h : low
  · obtain ⟨only, undef, hal, hah, af, cf⟩ := s.asciiResult_spec al' ah' true
    exact ⟨_, if_pos (hlow.2 h), only, undef, fun _ => ⟨hal, hah⟩, fun n => absurd h n,
      iff_of_true af h, iff_of_true cf h⟩
  · obtain ⟨only, undef, hal, hah, af, cf⟩ := s.asciiResult_spec al ah false
    exact ⟨_, if_neg (mt hlow.1 h), only, undef, fun l => absurd l h, fun _ => ⟨hal, hah⟩,
      iff_of_false (by simp [af]) h, iff_of_false (by simp [cf]) h⟩

/-- Settles O36: AAA and AAS make the same choice, between AL and AH as they were and adjusted apart. -/
theorem aaaAas : Obligations.AaaAas := fun s =>
  ⟨s.asciiAdjust_spec _ _, s.asciiAdjust_spec _ _⟩

end Sys2Proof.Machine

namespace Sys2Proof.Machine

/-! Control transfer (44_control_transfer.md R350 to R369). -/

/-! ## Relative jumps -/

theorem State.jumpIf_eq_jumped (s : State) (c : Bool) (d : Byte) : s.jumpIf c d = jumped s c d := by
  cases c <;> rfl

theorem State.countDown_jumpIf_eq_looped (s : State) (c : Bool) (d : Byte) :
    s.countDown.jumpIf c d = looped s c d := by
  cases c <;> rfl

/-- A conditional jump, with its condition said in other words. -/
theorem next_jumpIf {s : State} {d : Byte} {c taken : Bool} (h : c = taken) :
    (.next (s.jumpIf c d) : Out) = .next (jumped s taken d) := by
  rw [h, s.jumpIf_eq_jumped]

/-- A loop, with its condition said in other words. -/
theorem next_countDown_jumpIf {s : State} {d : Byte} {c taken : Bool} (h : c = taken) :
    (.next (s.countDown.jumpIf c d) : Out) = .next (looped s taken d) := by
  rw [h, s.countDown_jumpIf_eq_looped]

/-- Settles O43: each is the shared short jump; an odd opcode's condition is the even one's negated,
flag by flag (R356). -/
theorem conditionalJumps : Obligations.ConditionalJumps := by
  intro d s g
  have isSet : ∀ b : Bool, b = (b == true) := fun b => (beq_true b).symm
  have isClear : ∀ b : Bool, (!b) = (b == false) := fun b => (beq_false b).symm
  have eitherSet : condBE g = (g.CF == true || g.ZF == true) := by rw [← isSet, ← isSet]; rfl
  have neitherSet : (!condBE g) = (g.CF == false && g.ZF == false) := by
    rw [← isClear, ← isClear]
    exact Bool.not_or _ _
  have notLess : (!condL g) = (g.SF == g.OF) := Bool.not_not _
  have lessOrEqual : condLE g = (g.ZF == true || g.SF != g.OF) := by rw [← isSet]; rfl
  have greater : (!condLE g) = (g.ZF == false && g.SF == g.OF) := by
    rw [← isClear, ← notLess]
    exact Bool.not_or _ _
  exact ⟨
    next_jumpIf (isSet _), next_jumpIf (isClear _), next_jumpIf (isSet _), next_jumpIf (isClear _),
    next_jumpIf (isSet _), next_jumpIf (isClear _), next_jumpIf eitherSet, next_jumpIf neitherSet,
    next_jumpIf (isSet _), next_jumpIf (isClear _), next_jumpIf (isSet _), next_jumpIf (isClear _),
    next_jumpIf rfl, next_jumpIf notLess, next_jumpIf lessOrEqual, next_jumpIf greater⟩

/-- Settles O44: the three loops are the shared short jump after CX is lowered, JCXZ is the jump
alone. -/
theorem loopJumps : Obligations.LoopJumps := by
  intro d s
  have onZero : loopzTaken s = (s.regs.cx - 1 != 0 && s.flags.ZF == true) := by
    rw [beq_true]; rfl
  have onNotZero : loopnzTaken s = (s.regs.cx - 1 != 0 && s.flags.ZF == false) := by
    rw [beq_false]; rfl
  exact ⟨next_countDown_jumpIf rfl, next_countDown_jumpIf onZero, next_countDown_jumpIf onNotZero,
    next_jumpIf rfl⟩

/-! ## Unconditional jumps -/

/-- Settles O45: each meaning is the write of `ip`, and of CS, that its rule names. -/
theorem jumps : Obligations.Jumps := fun _ =>
  ⟨fun _ => rfl, fun _ => rfl, fun _ => rfl, fun _ _ => rfl, fun _ => rfl, fun _ => ⟨_, rfl⟩⟩

/-! ## Calls -/

theorem word_sub_two_sub_two (w : Word) : w - 2 - 2 = w - 4 := by bv_omega

theorem State.pushFar_sp (s : State) : s.pushFar.regs.sp = s.regs.sp - 4 := by
  rw [State.pushFar, State.push16_sp, State.push16_sp, word_sub_two_sub_two]

/-- A far call's frame takes SP and four bytes below it (R363). -/
theorem State.pushFar_only (s : State) :
    Only { regs := [.sp],
           cells := wordCells s.segs.ss (s.regs.sp - 2) ++ wordCells s.segs.ss (s.regs.sp - 4) }
      s s.pushFar := by
  have pushes := (s.push16_only s.segs.cs).trans ((s.push16 s.segs.cs).push16_only s.ip)
  rw [State.push16_segs, State.push16_sp, word_sub_two_sub_two] at pushes
  exact pushes.mono (by constructor <;> simp [Changes.join])

/-- The return segment, pushed first, is not overwritten by the return offset. -/
theorem State.pushFar_cs (s : State) (hw : s.mem.wf = true) :
    s.pushFar.read16 s.segs.ss (s.regs.sp - 2) = s.segs.cs := by
  have below := s.push16_sp s.segs.cs
  calc s.pushFar.read16 s.segs.ss (s.regs.sp - 2)
      = (s.push16 s.segs.cs).read16 s.segs.ss (s.regs.sp - 2) :=
        (s.push16 s.segs.cs).push16_read16_other s.ip (s.regs.sp - 2) (by rw [below]; bv_omega)
          (by rw [below]; bv_omega) (by rw [below]; bv_omega) (by rw [below]; bv_omega)
    _ = s.segs.cs := s.push16_word s.segs.cs hw

/-- The return offset is on top of the stack. -/
theorem State.pushFar_ip (s : State) (hw : s.mem.wf = true) :
    s.pushFar.read16 s.segs.ss (s.regs.sp - 4) = s.ip := by
  have top := (s.push16 s.segs.cs).push16_word s.ip (s.push16_wf s.segs.cs hw)
  rwa [State.push16_sp, word_sub_two_sub_two] at top

/-- A far transfer writes `ip` and CS. -/
theorem State.jumpFar_only (s : State) (off seg : Word) :
    Only { sregs := [.cs], ip := true } s (s.jumpFar off seg) :=
  (s.setIp_only off).trans ((s.setIp off).setSreg_only .cs seg)

/-- Settles O46: a call is its pushes and then the transfer to a target read before them, whether the
target stands in the instruction or in an operand. -/
theorem calls : Obligations.Calls := by
  intro s hw
  refine ⟨fun i target hi => ?near, fun i off seg hi => ?far, fun _ => ⟨_, rfl⟩⟩
  case near =>
    have hexec : exec i s = .next ((s.push16 s.ip).setIp target) := by
      obtain ⟨d, rfl, rfl⟩ | ⟨rm, rfl, rfl⟩ := hi <;> rfl
    exact ⟨_, hexec, rfl, s.push16_sp s.ip, s.push16_word s.ip hw,
      (s.push16_only s.ip).trans (State.setIp_only _ target)⟩
  case far =>
    have hexec : exec i s = .next (s.pushFar.jumpFar off seg) := by
      obtain rfl | ⟨m, rfl, rfl, rfl⟩ := hi <;> rfl
    exact ⟨_, hexec, rfl, rfl, s.pushFar_sp, s.pushFar_cs hw, s.pushFar_ip hw,
      s.pushFar_only.trans (s.pushFar.jumpFar_only off seg)⟩

/-! ## Returns -/

theorem word_add_two_add_two (w : Word) : w + 2 + 2 = w + 4 := by bv_omega

/-- What a far return takes from the stack (R367). -/
theorem State.popFar_eq (s : State) :
    s.popFar =
      { s with ip := s.read16 s.segs.ss s.regs.sp,
               segs := { s.segs with cs := s.read16 s.segs.ss (s.regs.sp + 2) },
               regs := { s.regs with sp := s.regs.sp + 4 } } := by
  rw [← word_add_two_add_two]
  rfl

/-- An interrupt return is a far return that then pops FLAGS (46_system.md R424). -/
theorem State.returnFromInterrupt_eq_popFar (s : State) :
    s.returnFromInterrupt =
      { s.popFar.drop16 with flags := Flags.ofWord s.popFar.top16 } := rfl

/-- What an interrupt return takes from the stack (46_system.md R424). -/
theorem State.returnFromInterrupt_eq (s : State) :
    s.returnFromInterrupt =
      { s with ip := s.read16 s.segs.ss s.regs.sp,
               segs := { s.segs with cs := s.read16 s.segs.ss (s.regs.sp + 2) },
               flags := Flags.ofWord (s.read16 s.segs.ss (s.regs.sp + 4)),
               regs := { s.regs with sp := s.regs.sp + 6 } } := by
  have sp6 : s.regs.sp + 6 = s.regs.sp + 4 + 2 := by bv_omega
  rw [State.returnFromInterrupt_eq_popFar, State.popFar_eq, sp6]
  rfl

/-- Settles O47: RETF and IRET by what they take from the stack; the immediate is added after. -/
theorem returnsPop : Obligations.ReturnsPop := by
  intro s f n hf
  have released : retRelease f = n := by
    obtain ⟨rfl, rfl⟩ | rfl := hf <;> rfl
  refine ⟨?ret, ?retf, ?iret⟩
  case ret => rw [← released]; rfl
  case retf =>
    show Host.Outcome.next (s.popFar.release (retRelease f)) = _
    rw [State.popFar_eq, released]
    rfl
  case iret => exact congrArg Host.Outcome.next s.returnFromInterrupt_eq

/-! ## A return after its call (R369, 60_exceptions.md R507) -/

/-- A state with the memory and SS of `t` has the stack of `t`, in the segment that SS held before `t`
was reached. -/
theorem Only.read16_stack {c : Changes} {s t u : State} (only : Only c s t) (kept : SReg.ss ∉ c.sregs)
    (hmem : u.mem = t.mem) (hss : u.segs.ss = t.segs.ss) (off : Word) :
    u.read16 u.segs.ss off = t.read16 s.segs.ss off := by
  have same : t.segs.ss = s.segs.ss := only.sregs .ss kept
  rw [hss, same, State.read16_congr t u _ _ hmem]

/-- Settles O48: at SP and above it stand the words that the call left there, so the return's pops read
`ip`, CS and FLAGS of the call, and SP rises by as much as the call lowered it. -/
theorem returnsUndoCalls : Obligations.ReturnsUndoCalls := by
  intro s t u hw hmem hss hsp
  obtain ⟨ret, retf, iret⟩ := returnsPop u .plain 0 (.inl ⟨rfl, rfl⟩)
  obtain ⟨near, far, -⟩ := calls s hw
  refine ⟨fun d hd => ?call, fun off seg hd => ?callFar, fun n hd => ?int⟩
  case call =>
    obtain ⟨t', ht, -, sp, ip, only⟩ := near (.call d) _ (.inl ⟨d, rfl, rfl⟩)
    obtain rfl : t = t' := Host.Outcome.next.inj (hd.symm.trans ht)
    have word := only.read16_stack (by simp) hmem hss
    have top : u.regs.sp = s.regs.sp - 2 := hsp.trans sp
    have back : u.regs.sp + 2 + 0 = s.regs.sp := by bv_omega
    exact ⟨_, ret, (word _).trans (by rw [top, ip]), back⟩
  case callFar =>
    obtain ⟨t', ht, -, -, sp, cs, ip, only⟩ := far (.callFar off seg) off seg (.inl rfl)
    obtain rfl : t = t' := Host.Outcome.next.inj (hd.symm.trans ht)
    have word := only.read16_stack (by simp) hmem hss
    have top : u.regs.sp = s.regs.sp - 4 := hsp.trans sp
    have second : u.regs.sp + 2 = s.regs.sp - 2 := by bv_omega
    have back : u.regs.sp + 4 + 0 = s.regs.sp := by bv_omega
    exact ⟨_, retf, (word _).trans (by rw [top, ip]), (word _).trans (by rw [second, cs]), back⟩
  case int =>
    have entry := s.vector_entry n.toNat .software n.isLt hw
    obtain rfl : t = s.vector n.toNat .software := (Host.Outcome.next.inj hd).symm
    have word := entry.only.read16_stack (by simp) hmem hss
    have top : u.regs.sp = s.regs.sp - 6 := hsp.trans entry.sp
    have second : u.regs.sp + 2 = s.regs.sp - 4 := by bv_omega
    have third : u.regs.sp + 4 = s.regs.sp - 2 := by bv_omega
    have back : u.regs.sp + 6 = s.regs.sp := by bv_omega
    have flags : Flags.ofWord (u.read16 u.segs.ss (u.regs.sp + 4)) = s.flags := by
      rw [word, third, entry.flags, Flags.ofWord_word]
    exact ⟨_, iret, (word _).trans (by rw [top, entry.ip]),
      (word _).trans (by rw [second, entry.cs]), flags, back⟩

end Sys2Proof.Machine

namespace Sys2Proof.Machine

/-! String instructions (45_string.md R390 to R396). -/

/-! ## One element -/

theorem stosIter8_only (s : State) :
    Only { regs := [.di], cells := [phys s.segs.es s.regs.di] } s (stosIter8 s) :=
  (s.write8_only _ _ _).trans (State.setReg16_only _ .di _)

theorem stosIter16_only (s : State) :
    Only { regs := [.di], cells := wordCells s.segs.es s.regs.di } s (stosIter16 s) :=
  (s.write16_only _ _ _).trans (State.setReg16_only _ .di _)

theorem movsIter8_only (s : State) :
    Only { regs := [.si, .di], cells := [phys s.segs.es s.regs.di] } s (movsIter8 s) :=
  ((s.write8_only _ _ _).trans (State.setReg16_only _ .si _)).trans (State.setReg16_only _ .di _)

theorem movsIter16_only (s : State) :
    Only { regs := [.si, .di], cells := wordCells s.segs.es s.regs.di } s (movsIter16 s) :=
  ((s.write16_only _ _ _).trans (State.setReg16_only _ .si _)).trans (State.setReg16_only _ .di _)

theorem lodsIter8_only (s : State) : Only { regs := [.si], bytes := [.al] } s (lodsIter8 s) :=
  (s.setReg8_only .al _).trans (State.setReg16_only _ .si _)

theorem lodsIter16_only (s : State) : Only { regs := [.si, .ax] } s (lodsIter16 s) :=
  ((s.setReg16_only .ax s.src16).trans (State.setReg16_only _ .si _)).mono
    (Changes.join_comm_within { regs := [.ax] } { regs := [.si] })

theorem State.next_string_once (iter : State → State) (c : Bool) {s : State}
    (h : s.rep = .none ∨ s.rep = .lock) : (.next (s.string iter c) : Out) = .next (iter s) :=
  congrArg _ (State.string_once iter c h)

/-- Settles O49: without a repeat prefix the instruction is its one iteration, whose pointers advance
by DF as it was before. -/
theorem stringMovesOnce : Obligations.StringMovesOnce := by
  intro s hw hrep d1 d2
  have once (iter : State → State) := State.next_string_once iter false hrep
  refine ⟨?movsb, ?movsw, ?stosb, ?stosw, ?lodsb, ?lodsw⟩
  case movsb =>
    exact ⟨_, once movsIter8, movsIter8_only s, s.read8_write8_same _ _ _ hw, rfl, rfl⟩
  case movsw =>
    exact ⟨_, once movsIter16, movsIter16_only s, s.read16_write16_same _ _ _ hw, rfl, rfl⟩
  case stosb => exact ⟨_, once stosIter8, stosIter8_only s, s.read8_write8_same _ _ _ hw, rfl⟩
  case stosw => exact ⟨_, once stosIter16, stosIter16_only s, s.read16_write16_same _ _ _ hw, rfl⟩
  case lodsb => exact ⟨_, once lodsIter8, lodsIter8_only s, s.reg8_setReg8_same .al _, rfl⟩
  case lodsw => exact ⟨_, once lodsIter16, lodsIter16_only s, rfl, rfl⟩

theorem subOp_only {n : Nat} (a b : BitVec n) (s : State) :
    Only { flags := aluFlags } s (subOp a b s).2 := (flagsSub_flagsOnly a b _ s).only

/-- The comparing iterations: the flags of a subtraction, then the destination pointer advances. -/
theorem subOp_advDi_only {n : Nat} (a b : BitVec n) (k : Word) (s : State) :
    Only { regs := [.di], flags := aluFlags } s ((subOp a b s).2.advDi k) :=
  (subOp_only a b s).trans (State.setReg16_only _ .di _)

theorem subOp_advSi_advDi_only {n : Nat} (a b : BitVec n) (k : Word) (s : State) :
    Only { regs := [.si, .di], flags := aluFlags } s (((subOp a b s).2.advSi k).advDi k) :=
  ((subOp_only a b s).trans (State.setReg16_only _ .si _)).trans (State.setReg16_only _ .di _)

/-- Settles O50: the iteration is a subtraction that keeps only its flags; the pointers leave them. -/
theorem stringComparesOnce : Obligations.StringComparesOnce := by
  intro s hrep d1 d2
  have once (iter : State → State) := State.next_string_once iter true hrep
  refine ⟨?cmpsb, ?cmpsw, ?scasb, ?scasw⟩
  case cmpsb =>
    exact ⟨_, once cmpsIter8, subOp_advSi_advDi_only _ _ 1 s, flagsSub_rule _ _ _ _, rfl, rfl⟩
  case cmpsw =>
    exact ⟨_, once cmpsIter16, subOp_advSi_advDi_only _ _ 2 s, flagsSub_rule _ _ _ _, rfl, rfl⟩
  case scasb => exact ⟨_, once scasIter8, subOp_advDi_only _ _ 1 s, flagsSub_rule _ _ _ _, rfl⟩
  case scasw => exact ⟨_, once scasIter16, subOp_advDi_only _ _ 2 s, flagsSub_rule _ _ _ _, rfl⟩

/-! ## The repeat loop -/

/-- An iteration leaves the controls of the loop alone: it does not look at the repeat prefix, and
keeps it and CX. -/
structure KeepsLoopControl (iter : State → State) : Prop where
  rep : ∀ s r, iter { s with rep := r } = { iter s with rep := r }
  cx : ∀ s, (iter s).regs.cx = s.regs.cx

/-- The ten string instructions: an iteration, and whether the loop tests ZF. -/
theorem exec_string {i : Instr}
    (hi : i ∈ [Instr.movsb, .movsw, .cmpsb, .cmpsw, .stosb, .stosw, .lodsb, .lodsw, .scasb, .scasw]) :
    ∃ iter c, KeepsLoopControl iter ∧ (∀ s, exec i s = .next (s.string iter c)) ∧
      (c = true ↔ i ∈ [Instr.cmpsb, .cmpsw, .scasb, .scasw]) := by
  simp only [List.mem_cons, List.not_mem_nil, or_false] at hi
  obtain rfl | rfl | rfl | rfl | rfl | rfl | rfl | rfl | rfl | rfl := hi
  · exact ⟨movsIter8, false, ⟨fun _ _ => rfl, fun _ => rfl⟩, fun _ => rfl, by decide⟩
  · exact ⟨movsIter16, false, ⟨fun _ _ => rfl, fun _ => rfl⟩, fun _ => rfl, by decide⟩
  · exact ⟨cmpsIter8, true, ⟨fun _ _ => rfl, fun _ => rfl⟩, fun _ => rfl, by decide⟩
  · exact ⟨cmpsIter16, true, ⟨fun _ _ => rfl, fun _ => rfl⟩, fun _ => rfl, by decide⟩
  · exact ⟨stosIter8, false, ⟨fun _ _ => rfl, fun _ => rfl⟩, fun _ => rfl, by decide⟩
  · exact ⟨stosIter16, false, ⟨fun _ _ => rfl, fun _ => rfl⟩, fun _ => rfl, by decide⟩
  · exact ⟨lodsIter8, false, ⟨fun _ _ => rfl, fun _ => rfl⟩, fun _ => rfl, by decide⟩
  · exact ⟨lodsIter16, false, ⟨fun _ _ => rfl, fun _ => rfl⟩, fun _ => rfl, by decide⟩
  · exact ⟨scasIter8, true, ⟨fun _ _ => rfl, fun _ => rfl⟩, fun _ => rfl, by decide⟩
  · exact ⟨scasIter16, true, ⟨fun _ _ => rfl, fun _ => rfl⟩, fun _ => rfl, by decide⟩

theorem repStops_iff (c : Bool) (r : RepPrefix) (zf : Bool) :
    repStops c r zf = true ↔ c = true ∧ (r = .rep ∧ zf = false ∨ r = .repne ∧ zf = true) := by
  cases r <;> simp [repStops]

theorem KeepsLoopControl.iter_rep {iter : State → State} (h : KeepsLoopControl iter) (s : State) :
    (iter s).rep = s.rep := (congrArg State.rep (h.rep s s.rep) :)

/-- With CX not zero one iteration is done, and the loop ends or is the same instruction again. -/
theorem State.string_unroll {iter : State → State} (h : KeepsLoopControl iter) (c : Bool) {s : State}
    (hrep : s.rep = .rep ∨ s.rep = .repne) (hcx : s.regs.cx ≠ 0) :
    s.string iter c =
      if repStops c s.rep (iter s).flags.ZF then (iter s).countDown
      else (iter s).countDown.string iter c := by
  have again : (iter s).countDown.rep = s.rep := h.iter_rep s
  have left : (iter s).countDown.regs.cx = s.regs.cx - 1 := congrArg (· - 1) (h.cx s)
  have fuel : s.regs.cx.toNat = (s.regs.cx - 1).toNat + 1 := by bv_omega
  rw [State.string_loop iter c hrep, fuel, repLoop_succ, again,
    State.string_loop iter c (by rwa [again]), left]
  rfl

/-- Settles O51: one turn of the loop; the state after it is that of the unrepeated instruction with
CX counted down. -/
theorem repeatLoop : Obligations.RepeatLoop := by
  intro s i hrep hi
  obtain ⟨iter, c, keeps, hexec, hc⟩ := exec_string hi
  refine ⟨fun hcx => ?zero, fun hcx => ?turn⟩
  case zero => rw [hexec, State.string_loop iter c hrep, hcx]; rfl
  case turn =>
    have once : exec i { s with rep := .none } = .next { iter s with rep := .none } := by
      rw [hexec, State.string_once iter c (.inl rfl), keeps.rep]
    refine ⟨_, once, ?_⟩
    intro v stops
    have hv : v = (iter s).countDown := by
      show { iter s with rep := s.rep, regs := { (iter s).regs with cx := s.regs.cx - 1 } } = _
      rw [← keeps.iter_rep, ← keeps.cx]
      rfl
    have hstops : repStops c s.rep (iter s).flags.ZF = true ↔ stops := by
      rw [repStops_iff, hc]
    rw [hexec, State.string_unroll keeps c hrep hcx, hexec, hv]
    exact ⟨fun h => by rw [if_pos (hstops.2 h)], fun h => by rw [if_neg (mt hstops.1 h)]⟩

/-! ## Blocks of bytes -/

/-- The memory after `n` byte writes in order, of `val k` at `addr k`. -/
def Memory.writeBlock (m : Memory) (addr : Nat → Nat) (val : Nat → Byte) : Nat → Memory
  | 0 => m
  | n + 1 => (m.writeBlock addr val n).write (addr n) (val n)

section Block

variable {m : Memory} {addr : Nat → Nat} {val : Nat → Byte} {n : Nat}

theorem Memory.wf_writeBlock (hw : m.wf = true) (ha : ∀ k, addr k < 2 ^ 20) :
    (m.writeBlock addr val n).wf = true := by
  induction n with
  | zero => exact hw
  | succ n ih => exact Memory.wf_write _ _ _ ih (ha n)

theorem Memory.read_writeBlock_outside {a : Nat} (h : ∀ k < n, a ≠ addr k) :
    (m.writeBlock addr val n).read a = m.read a := by
  induction n with
  | zero => rfl
  | succ n ih =>
    exact (Memory.read_write_other _ _ _ _ (h n n.lt_succ_self)).trans
      (ih fun k hk => h k (hk.trans n.lt_succ_self))

/-- Where no address of the block comes twice, each holds its own byte. -/
theorem Memory.read_writeBlock (hw : m.wf = true) (ha : ∀ k, addr k < 2 ^ 20)
    (inj : ∀ j < n, ∀ k < n, addr j = addr k → j = k) {k : Nat} (hk : k < n) :
    (m.writeBlock addr val n).read (addr k) = val k := by
  induction n with
  | zero => exact absurd hk k.not_lt_zero
  | succ n ih =>
    by_cases last : k = n
    · subst last
      exact Memory.read_write_same _ _ _ (Memory.wf_writeBlock hw ha)
    · have other : addr k ≠ addr n := fun e => last (inj k hk n n.lt_succ_self e)
      exact (Memory.read_write_other _ _ _ _ other).trans
        (ih (fun j hj k hk => inj j (by omega) k (by omega)) (by omega))

end Block

/-- In one segment different offsets are different addresses (20_memory.md R72). -/
theorem phys_injective (seg : Word) {a b : Word} (h : phys seg a = phys seg b) : a = b := by
  apply BitVec.eq_of_toNat_eq
  unfold phys at h
  omega

/-- The `k`th offset from `off` on, a byte apart, down if DF is set (R390). -/
def State.blockOff (s : State) (off : Word) (k : Nat) : Word := off + BitVec.ofNat 16 k * s.delta 1

theorem State.blockOff_zero (s : State) (off : Word) : s.blockOff off 0 = off := by
  simp [State.blockOff]

theorem State.blockOff_succ (s : State) (off : Word) (k : Nat) :
    s.blockOff off (k + 1) = s.blockOff off k + s.delta 1 := by
  simp only [State.blockOff, BitVec.ofNat_add, BitVec.add_mul, BitVec.one_mul, BitVec.add_assoc]

/-- A block of at most a whole segment visits no offset twice. -/
theorem State.blockOff_injective (s : State) (off : Word) {j k : Nat} (hj : j < 2 ^ 16)
    (hk : k < 2 ^ 16) (h : s.blockOff off j = s.blockOff off k) : j = k := by
  have steps : BitVec.ofNat 16 j * s.delta 1 = BitVec.ofNat 16 k * s.delta 1 :=
    (add_right_inj off).1 h
  have words : BitVec.ofNat 16 j = BitVec.ofNat 16 k := by
    unfold State.delta at steps
    split at steps
    · rwa [mul_neg, mul_neg, mul_one, mul_one, neg_inj] at steps
    · rwa [mul_one, mul_one] at steps
  bv_omega

/-- A loop with no ZF test, by its last turn. -/
theorem repLoop_succ_last (iter : State → State) (n : Nat) (s : State) :
    repLoop iter false (n + 1) s = (iter (repLoop iter false n s)).countDown := by
  have goesOn (k : Nat) (t : State) :
      repLoop iter false (k + 1) t = repLoop iter false k (iter t).countDown := by
    rw [repLoop_succ, if_neg (by simp [repStops_iff])]
  induction n generalizing s with
  | zero => exact goesOn 0 s
  | succ n ih => rw [goesOn, ih, ← goesOn]

/-- The destination addresses of a block of bytes, from `ES:DI` on. -/
def State.blockAddr (s : State) (k : Nat) : Nat := phys s.segs.es (s.blockOff s.regs.di k)

theorem State.blockAddr_injective (s : State) {j k : Nat} (hj : j < 2 ^ 16) (hk : k < 2 ^ 16)
    (h : s.blockAddr j = s.blockAddr k) : j = k :=
  s.blockOff_injective _ hj hk (phys_injective _ h)

/-- The state with the bytes `val` stored in the block of `n` bytes at `ES:DI`. -/
def State.storeBlock (s : State) (val : Nat → Byte) (n : Nat) : State :=
  { s with mem := s.mem.writeBlock s.blockAddr val n }

theorem State.storeBlock_only (s : State) (val : Nat → Byte) (n : Nat) :
    Only { cells := (List.range n).map s.blockAddr } s (s.storeBlock val n) := by
  refine Only.of_fields rfl rfl (fun _ _ => rfl) (fun a ha => ?_) (fun _ => rfl) (fun _ => rfl)
    rfl rfl rfl rfl rfl rfl rfl rfl
  refine Memory.read_writeBlock_outside fun k hk e => ha ?_
  exact List.mem_map.2 ⟨k, List.mem_range.2 hk, e.symm⟩

/-- A block stored, then registers set: the frame. -/
theorem Only.after_storeBlock {s t : State} {rs : List Reg16} {n : Nat} (val : Nat → Byte)
    (h : Only { regs := rs } (s.storeBlock val n) t) :
    Only { regs := rs, cells := (List.range n).map s.blockAddr } s t :=
  ((s.storeBlock_only val n).trans h).mono (by constructor <;> simp [Changes.join])

theorem State.storeBlock_read8 {s : State} (hw : s.mem.wf = true) (val : Nat → Byte) {n k : Nat}
    (hn : n ≤ 2 ^ 16) (hk : k < n) :
    (s.storeBlock val n).read8 s.segs.es (s.blockOff s.regs.di k) = val k :=
  Memory.read_writeBlock (addr := s.blockAddr) hw (fun _ => phys_lt _ _)
    (fun _ hj _ hk => s.blockAddr_injective (by omega) (by omega)) hk

theorem State.storeBlock_read8_outside (s : State) (val : Nat → Byte) (n : Nat) (seg off : Word)
    (h : ∀ k < n, phys seg off ≠ s.blockAddr k) :
    (s.storeBlock val n).read8 seg off = s.read8 seg off :=
  Memory.read_writeBlock_outside h

theorem sub_ofNat_succ (cx : Word) (n : Nat) :
    cx - BitVec.ofNat 16 (n + 1) = cx - BitVec.ofNat 16 n - 1 := by
  bv_omega

/-- `n` turns of STOSB: a block of AL (R391, R394). -/
theorem repLoop_stosb (s : State) (n : Nat) :
    repLoop stosIter8 false n s =
      ((s.storeBlock (fun _ => s.reg8 .al) n).setReg16 .cx (s.regs.cx - BitVec.ofNat 16 n)).setReg16
        .di (s.blockOff s.regs.di n) := by
  induction n with
  | zero =>
    rw [State.blockOff_zero, BitVec.sub_zero]
    rfl
  | succ n ih =>
    rw [repLoop_succ_last, ih, State.blockOff_succ, sub_ofNat_succ]
    rfl

/-- The source bytes of a block copy. -/
def State.blockSrc (s : State) (k : Nat) : Byte :=
  s.read8 (s.segOr .ds) (s.blockOff s.regs.si k)

/-- `n` turns of MOVSB whose sources no turn before has overwritten: a block of the old source bytes
(R391, R392). -/
theorem repLoop_movsb (s : State) (n : Nat)
    (apart : ∀ j < n, ∀ k < n, phys (s.segOr .ds) (s.blockOff s.regs.si j) ≠ s.blockAddr k) :
    repLoop movsIter8 false n s =
      (((s.storeBlock s.blockSrc n).setReg16 .cx (s.regs.cx - BitVec.ofNat 16 n)).setReg16 .si
        (s.blockOff s.regs.si n)).setReg16 .di (s.blockOff s.regs.di n) := by
  induction n with
  | zero =>
    rw [State.blockOff_zero, State.blockOff_zero, BitVec.sub_zero]
    rfl
  | succ n ih =>
    have before := ih fun j hj k hk => apart j (by omega) k (by omega)
    have source : (repLoop movsIter8 false n s).src8 = s.blockSrc n := by
      rw [before]
      exact s.storeBlock_read8_outside s.blockSrc n _ _ fun k hk => apart n (by omega) k (by omega)
    rw [repLoop_succ_last, movsIter8, source, before, State.blockOff_succ, State.blockOff_succ,
      sub_ofNat_succ]
    rfl

/-- Settles O52: either loop is one block stored and its registers set; CX turns of it end with CX
zero. -/
theorem repeatedBlocks : Obligations.RepeatedBlocks := by
  intro s hw hrep d n src dst cells
  have short : n ≤ 2 ^ 16 := s.regs.cx.isLt.le
  have done : s.regs.cx - BitVec.ofNat 16 n = 0 := by
    simp [n]
  constructor
  · have loop : exec .stosb s = _ :=
      congrArg Host.Outcome.next ((State.string_loop _ _ hrep).trans (repLoop_stosb s n))
    refine ⟨_, loop, .after_storeBlock (fun _ => s.reg8 .al) ?_, done, rfl,
      fun k hk => State.storeBlock_read8 hw _ short hk⟩
    exact (State.setReg16_only _ .cx _).trans (State.setReg16_only _ .di _)
  · intro apart
    have loop : exec .movsb s = _ :=
      congrArg Host.Outcome.next ((State.string_loop _ _ hrep).trans (repLoop_movsb s n apart))
    refine ⟨_, loop, .after_storeBlock s.blockSrc ?_, done, rfl, rfl,
      fun k hk => State.storeBlock_read8 hw _ short hk⟩
    exact ((State.setReg16_only _ .cx _).trans (State.setReg16_only _ .si _)).trans
      (State.setReg16_only _ .di _)

end Sys2Proof.Machine

namespace Sys2Proof.Machine

/-! Interrupt instructions, HLT, flag instructions and prefix bytes (46_system.md R420 to R437). -/

/-- Software interrupt entry through a vector that a byte names keeps every flag (R420, R504). -/
theorem State.softwareVector_entry (s : State) (n : Byte) (hw : s.mem.wf = true) :
    Entry n.toNat false s (s.vector n.toNat .software) :=
  s.vector_entry n.toNat .software n.isLt hw

/-- Settles O53: both instructions are the shared interrupt entry of software kind, INT3 that of
INT 3. -/
theorem softwareInterrupts : Obligations.SoftwareInterrupts := fun s hw =>
  ⟨fun n => ⟨_, rfl, s.softwareVector_entry n hw⟩, ⟨_, rfl, s.softwareVector_entry 3 hw⟩⟩

/-- Settles O54: by the meanings themselves. HLT is one write of `ip`, a flag instruction one write of
its flag, a prefix byte one write of the prefix record, and ESC, WAIT and NOP write nothing. -/
theorem haltFlagsNopPrefixes : Obligations.HaltFlagsNopPrefixes := by
  intro s
  refine ⟨?hlt, ?clc, ?stc, ?cmc, ?cld, ?std, ?cli, ?sti, ?esc, ?wait, ?nop, ?prefixes⟩
  case hlt => rfl
  case clc | stc | cmc | cld | std | cli | sti => rfl
  case esc => exact fun _ _ _ => rfl
  case wait | nop => rfl
  case prefixes => exact ⟨rfl, rfl, rfl, rfl, rfl, rfl, rfl⟩

end Sys2Proof.Machine

namespace Sys2Proof.Machine

/-! The controllers: programming, interrupt lines, the arbiter (60_exceptions.md R520 to R545). -/

/-! ## Programming a controller (R531 to R536) -/

section Programming

variable {c : Pic} {v : Byte}

theorem Pic.writeCommand_icw1 (h : v.getLsbD 4 = true) : c.writeCommand v = c.writeIcw1 v := if_pos h

theorem Pic.writeCommand_ignored (h : v.getLsbD 4 = false) (hs : c.initStep ≠ .ready) :
    c.writeCommand v = c := by
  cases e : c.initStep with
  | ready => exact absurd e hs
  | never | waitIcw2 | waitIcw3 | waitIcw4 =>
    simp only [Pic.writeCommand, h, e, Bool.false_eq_true, if_false]

theorem Pic.writeCommand_ready (h : v.getLsbD 4 = false) (hs : c.initStep = .ready) :
    c.writeCommand v = if v.getLsbD 3 then c.writeOcw3 v else c.writeOcw2 := by
  simp only [Pic.writeCommand, h, hs, Bool.false_eq_true, if_false]

theorem Pic.writeData_never (hs : c.initStep = .never) : c.writeData v = c := by
  simp [Pic.writeData, hs]

theorem Pic.writeData_waitIcw2 (hs : c.initStep = .waitIcw2) :
    c.writeData v = { c with icw2 := v, initStep := .waitIcw3 } := by simp [Pic.writeData, hs]

theorem Pic.writeData_waitIcw3 (hs : c.initStep = .waitIcw3) :
    c.writeData v = { c with icw3 := v, initStep := .waitIcw4 } := by simp [Pic.writeData, hs]

theorem Pic.writeData_waitIcw4 (hs : c.initStep = .waitIcw4) :
    c.writeData v = { c with icw4 := v, initStep := .ready } := by simp [Pic.writeData, hs]

theorem Pic.writeData_ready (hs : c.initStep = .ready) : c.writeData v = { c with imr := v } := by
  simp [Pic.writeData, hs]

theorem Pic.writeOcw2_zero (h : c.isr = 0) : c.writeOcw2 = c := by
  rw [Pic.writeOcw2, h]
  rfl

theorem Pic.writeOcw2_lowest {i : Nat} (hi : i < 8) (hset : c.isr.getLsbD i = true)
    (hlow : ∀ j < i, c.isr.getLsbD j = false) : c.writeOcw2 = c.ackService i := by
  rw [Pic.writeOcw2, (lowestSet_eq_some c.isr i).2 ⟨hi, hset, hlow⟩]

end Programming

/-- Settles O60: a command byte by bit 4, the step of the sequence and bit 3; a data byte by the step
of the sequence alone. -/
theorem controllerProgramming : Obligations.ControllerProgramming := by
  intro c v v2 v3 v4 w
  refine ⟨fun hv => ?icw1, Pic.writeData_never, Pic.writeData_waitIcw2, Pic.writeData_waitIcw3,
    Pic.writeData_waitIcw4, ⟨rfl, rfl, rfl⟩, Pic.writeData_ready, fun hw => ⟨?ignored, ?ready⟩⟩
  case icw1 =>
    rw [Pic.writeCommand_icw1 hv]
    exact ⟨rfl, rfl⟩
  case ignored => exact Pic.writeCommand_ignored hw
  case ready =>
    intro hs
    rw [Pic.writeCommand_ready hw hs]
    refine ⟨fun h3 => by rw [if_pos h3]; rfl, fun h3 => ?_⟩
    rw [h3, if_neg Bool.false_ne_true]
    exact ⟨Pic.writeOcw2_zero, fun i => Pic.writeOcw2_lowest⟩

/-! ## Request, acknowledge, delivery (R526 to R529) -/

section Lines

variable {s : State} {i k : Nat}

theorem State.requestLine_master (hi : i < 8) :
    s.requestLine i = { s with master := { s.master with irr := setBit s.master.irr i } } :=
  if_pos (Nat.le_of_lt_succ hi)

theorem State.ackLine_master (hi : i < 8) :
    s.ackLine i = { s with master := { s.master with irr := clearBit s.master.irr i } } :=
  if_pos (Nat.le_of_lt_succ hi)

theorem State.onCascade_none {g : Byte → Nat → Byte} (h : s.master.cascadeLine = none) :
    s.onCascade g = s := by
  rw [State.onCascade, h]

theorem State.onCascade_some {g : Byte → Nat → Byte} (h : s.master.cascadeLine = some k) :
    s.onCascade g = { s with master := { s.master with irr := g s.master.irr k } } := by
  rw [State.onCascade, h]

/-- A call on a slave line changes the slave's request bit, then the master's cascade request bit. -/
theorem State.requestLine_slave : s.requestLine (8 + i) =
    { s with slave := { s.slave with irr := setBit s.slave.irr i } }.onCascade setBit := by
  rw [State.requestLine, if_neg (by omega), Nat.add_sub_cancel_left]

theorem State.ackLine_slave : s.ackLine (8 + i) =
    { s with slave := { s.slave with irr := clearBit s.slave.irr i } }.onCascade clearBit := by
  rw [State.ackLine, if_neg (by omega), Nat.add_sub_cancel_left]

theorem Pic.requestService_eq (c : Pic) (i : Nat) : c.requestService i =
    { c with isr := if c.icw4.getLsbD 1 then c.isr else c.isr ||| 1#8 <<< i } := by
  unfold Pic.requestService Pic.aeoi
  split <;> rfl

theorem State.deliver_master (hi : i < 8) : s.deliver i =
    { s.ackLine i with master := (s.ackLine i).master.requestService i } :=
  if_pos (Nat.le_of_lt_succ hi)

/-- A slave line enters service in the slave, and the cascade line in the master. -/
theorem State.deliver_slave (h : (s.ackLine (8 + i)).master.cascadeLine = some k) :
    s.deliver (8 + i) =
      { s.ackLine (8 + i) with
          slave := (s.ackLine (8 + i)).slave.requestService i,
          master := (s.ackLine (8 + i)).master.requestService k } := by
  simp [State.deliver, h, show ¬ 8 + i ≤ 7 by omega]

end Lines

/-- Settles O59: the answers by the owner of the line; a master line by the master's own bits; a slave
line by the slave's and, where there is one, the cascade line's in the master, which no request bit
moves. -/
theorem lineCalls : Obligations.LineCalls := by
  refine ⟨fun s l => ?answers, fun s i hi => ⟨State.requestLine_master hi, State.ackLine_master hi,
    ?deliver, fun hnone => ?alone, fun k hk => ?cascade⟩⟩
  case answers =>
    obtain ⟨master, slave, none⟩ := s.lineOwner_eq l
    unfold State.getVectorBase State.getVectorSize
    refine ⟨fun h => ?_, fun h => ?_, fun h8 h15 => ?_, fun h => ?_⟩
    · exact ⟨if_neg (Nat.not_lt.2 h), if_neg (Nat.not_lt.2 h)⟩
    · rw [master h]
      exact ⟨rfl, rfl⟩
    · rw [slave h8 h15]
      exact ⟨rfl, rfl⟩
    · rw [none h]
      exact ⟨if_pos h, if_pos h, rfl, rfl⟩
  case deliver =>
    rw [State.deliver_master hi, State.ackLine_master hi, Pic.requestService_eq]
    rfl
  case alone =>
    exact ⟨State.requestLine_slave.trans (State.onCascade_none (s := { s with slave := _ }) hnone),
      State.ackLine_slave.trans (State.onCascade_none (s := { s with slave := _ }) hnone)⟩
  case cascade =>
    have ack : s.ackLine (8 + i) =
        { s with slave := { s.slave with irr := clearBit s.slave.irr i },
                 master := { s.master with irr := clearBit s.master.irr k } } :=
      State.ackLine_slave.trans (State.onCascade_some (s := { s with slave := _ }) hk)
    have still : (s.ackLine (8 + i)).master.cascadeLine = some k := by
      rw [ack]
      exact hk
    refine ⟨State.requestLine_slave.trans (State.onCascade_some (s := { s with slave := _ }) hk),
      ack, ?_⟩
    rw [State.deliver_slave still, ack, Pic.requestService_eq, Pic.requestService_eq]
    rfl

/-! ## The arbiter (R522, R524) -/

/-- The master's own pick, or the slave's where that is the cascade line. -/
theorem getNextInterrupt_eq_some_iff (m sl : Pic) (line : Nat) :
    getNextInterrupt m sl = some line ↔
      (∃ i, m.pick = some i ∧ m.cascadeLine ≠ some i ∧ line = i) ∨
      (∃ i j, m.pick = some i ∧ m.cascadeLine = some i ∧ sl.pick = some j ∧ line = 8 + j) := by
  unfold getNextInterrupt
  cases m.pick with
  | none => simp
  | some i =>
    dsimp only
    by_cases hi : m.cascadeLine = some i
    · simp [hi, eq_comm]
    · rw [if_neg hi]
      constructor
      · intro h
        exact .inl ⟨i, rfl, hi, (Option.some.inj h).symm⟩
      · rintro (⟨_, ⟨⟩, -, rfl⟩ | ⟨_, _, ⟨⟩, cascade, -⟩)
        · rfl
        · exact absurd cascade hi

/-- Settles O58: the cascade line is a lowest set bit, and the arbiter is read off the two picks. -/
theorem arbiterGives : Obligations.ArbiterGives := by
  refine ⟨fun c k => lowestSet_eq_some c.icw3 k, fun m sl line => ?_⟩
  simp only [← Pic.pick_iff]
  exact getNextInterrupt_eq_some_iff m sl line

end Sys2Proof.Machine

namespace Sys2Proof.Machine

/-! IN and OUT (47_io.md R460 to R469). -/

/-! ## Owned and unowned ports -/

/-- A port is unmapped when its number is above 255 or no entry of the table names it (R460). -/
theorem State.portDevice_eq_none_iff (s : State) (p : Nat) :
    s.portDevice p = none ↔ 255 < p ∨ ∀ d, (p, d) ∉ s.ports := by
  unfold State.portDevice
  split
  · next h => simp [h]
  · next h => simp [h, portLookup_eq_none]

section Access

variable {s : State} {f : PortForm}

theorem exec_inPort_unmapped (h : s.portDevice (s.portNumber f) = none) :
    exec (.inPort f) s = .fault (.portFault (s.portNumber f) false) := by
  cases f with
  | byteImm | byteDx => simp only [exec, execIn, State.inByte, h]
  | wordImm | wordDx => simp only [exec, execIn, State.inWord, h]

theorem exec_outPort_unmapped (h : s.portDevice (s.portNumber f) = none) :
    exec (.outPort f) s = .fault (.portFault (s.portNumber f) true) := by
  cases f with
  | byteImm | byteDx => simp only [exec, execOut, State.outByte, h]
  | wordImm | wordDx => simp only [exec, execOut, State.outWord, h]

variable {d : Device}

/-- IN at an owned port: the device is read at the form's width, and AL or AX written (R461). -/
theorem exec_inPort_mapped (h : s.portDevice (s.portNumber f) = some d) :
    exec (.inPort f) s = .next
      (if f.isByte then (s.devReadByte d (s.portNumber f)).2.setReg8 .al
        (s.devReadByte d (s.portNumber f)).1
      else (s.devReadWord d (s.portNumber f)).2.setReg16 .ax
        (s.devReadWord d (s.portNumber f)).1) := by
  cases f with
  | byteImm | byteDx => simp only [exec, execIn, State.inByte, h]; rfl
  | wordImm | wordDx => simp only [exec, execIn, State.inWord, h]; rfl

/-- OUT at an owned port: AL or AX is written to the device (R463). -/
theorem exec_outPort_mapped (h : s.portDevice (s.portNumber f) = some d) :
    exec (.outPort f) s = .next
      (if f.isByte then s.devWriteByte d (s.portNumber f) (s.reg8 .al)
      else s.devWriteWord d (s.portNumber f) s.regs.ax) := by
  cases f with
  | byteImm | byteDx => simp only [exec, execOut, State.outByte, h]; rfl
  | wordImm | wordDx => simp only [exec, execOut, State.outWord, h]; rfl

end Access

/-- Settles O57: an unmapped port faults in both directions, and a port with a device answers. -/
theorem portFaults : Obligations.PortFaults := by
  rintro s f p rfl
  refine ⟨fun h => ?unmapped, fun hp ⟨d, hd⟩ => ?mapped⟩
  case unmapped =>
    have none := (s.portDevice_eq_none_iff _).2 h
    exact ⟨exec_inPort_unmapped none, exec_outPort_unmapped none⟩
  case mapped =>
    have owned : s.portDevice (s.portNumber f) ≠ none := fun none =>
      ((s.portDevice_eq_none_iff _).1 none).elim (Nat.not_lt.2 hp) fun h => h d hd
    obtain ⟨e, he⟩ := Option.ne_none_iff_exists'.1 owned
    exact ⟨⟨_, exec_inPort_mapped he⟩, ⟨_, exec_outPort_mapped he⟩⟩

/-! ## The ports of a controller (60_exceptions.md R540, R541) -/

/-- The halves of AX after the word made of them was written. -/
theorem State.reg8_setReg16_ax_mkWord (s : State) (lo hi : Byte) :
    (s.setReg16 .ax (mkWord lo hi)).reg8 .al = lo ∧
      (s.setReg16 .ax (mkWord lo hi)).reg8 .ah = hi :=
  ⟨loByte_mkWord lo hi, hiByte_mkWord lo hi⟩

/-- Settles O55: a controller answers a read from its registers and changes nothing by it; a word is
its two bytes at two ports. -/
theorem controllerPorts : Obligations.ControllerPorts := by
  refine ⟨fun _ _ => ⟨rfl, rfl, rfl, rfl⟩, fun s c p v => ⟨fun hc => ?cmd, fun hc hd => ?data,
    fun hc hd => ?foreign⟩, fun s f c h => ⟨fun hb => ?byte, fun hb => ?word⟩⟩
  case cmd => exact ⟨if_pos hc, if_pos hc⟩
  case data => exact ⟨(if_neg hc).trans (if_pos hd), (if_neg hc).trans (if_pos hd)⟩
  case foreign => exact ⟨(if_neg hc).trans (if_neg hd), (if_neg hc).trans (if_neg hd)⟩
  case byte =>
    rw [exec_inPort_mapped h, exec_outPort_mapped h, if_pos hb, if_pos hb]
    exact ⟨⟨_, rfl, s.setReg8_only .al _, s.reg8_setReg8_same .al _⟩, rfl⟩
  case word =>
    rw [exec_inPort_mapped h, exec_outPort_mapped h, hb, if_neg Bool.false_ne_true,
      if_neg Bool.false_ne_true]
    exact ⟨⟨_, rfl, s.setReg16_only .ax _, s.reg8_setReg16_ax_mkWord _ _⟩, rfl⟩

/-! ## The ports of a device of the platform (R462) -/

theorem State.onCascade_regs_portLog (s : State) (g : Byte → Nat → Byte) :
    (s.onCascade g).regs = s.regs ∧ (s.onCascade g).portLog = s.portLog := by
  unfold State.onCascade
  split <;> exact ⟨rfl, rfl⟩

theorem State.lineCall_regs_portLog (s : State) (c : LineCall) :
    (s.lineCall c).regs = s.regs ∧ (s.lineCall c).portLog = s.portLog := by
  cases c with
  | request l =>
    simp only [State.lineCall, State.requestLine]
    split
    · exact ⟨rfl, rfl⟩
    · exact State.onCascade_regs_portLog _ _
  | ack l =>
    simp only [State.lineCall, State.ackLine]
    split
    · exact ⟨rfl, rfl⟩
    · exact State.onCascade_regs_portLog _ _
  | level l v =>
    simp only [State.lineCall, State.setLevel]
    split <;> exact ⟨rfl, rfl⟩

theorem State.lineCalls_regs_portLog (cs : List LineCall) (s : State) :
    (cs.foldl State.lineCall s).regs = s.regs ∧
      (cs.foldl State.lineCall s).portLog = s.portLog := by
  induction cs generalizing s with
  | nil => exact ⟨rfl, rfl⟩
  | cons c cs ih =>
    obtain ⟨regs, log⟩ := ih (s.lineCall c)
    obtain ⟨regs', log'⟩ := s.lineCall_regs_portLog c
    exact ⟨regs.trans regs', log.trans log'⟩

/-- A device does not reach the general registers. -/
@[simp] theorem State.deviceCall_regs (c : PortCall) (s : State) :
    (s.deviceCall c).regs = s.regs :=
  (State.lineCalls_regs_portLog _ _).1

/-- A call is logged once, newest first. -/
@[simp] theorem State.deviceCall_portLog (c : PortCall) (s : State) :
    (s.deviceCall c).portLog = c :: s.portLog :=
  (State.lineCalls_regs_portLog _ _).2

section Device

variable {s t : State}

/-- The accumulator is what an access to a device may write. -/
theorem DeviceKeeps.setReg16_ax (h : DeviceKeeps s t) (v : Word) :
    DeviceKeeps s (t.setReg16 .ax v) where
  __ := h
  regs r hr := (t.reg16_setReg16_other .ax r v hr).trans (h.regs r hr)

/-- The two byte calls that make up a word access. -/
theorem State.deviceCall_twice (s : State) (c e : PortCall) :
    DeviceKeeps s ((s.deviceCall c).deviceCall e) ∧
      ((s.deviceCall c).deviceCall e).regs = s.regs ∧
      ((s.deviceCall c).deviceCall e).portLog = e :: c :: s.portLog :=
  ⟨(s.deviceCall_keeps c).trans (State.deviceCall_keeps e _), by simp, by simp⟩

end Device

/-- Settles O56: by the width of the form and of the device one call or two, each logged and each
keeping what `DeviceKeeps` names; IN writes the accumulator after them. -/
theorem devicePorts : Obligations.DevicePorts := by
  rintro s f id wide p rfl h
  refine ⟨⟨_, exec_inPort_mapped h, ?inPort⟩, ⟨_, exec_outPort_mapped h, ?outPort⟩⟩
  case inPort =>
    cases f.isByte with
    | true =>
      refine ⟨(s.deviceCall_keeps _).setReg16_ax _, fun _ => ?_, s.deviceCall_portLog _⟩
      calc _ = (s.deviceCall _).reg8 .ah := State.reg8_setReg8_other _ .al .ah _ nofun
        _ = s.reg8 .ah := State.reg8_congr _ _ .ah (State.reg16_congr _ _ .ax (s.deviceCall_regs _))
    | false =>
      cases wide with
      | true => exact ⟨(s.deviceCall_keeps _).setReg16_ax _, nofun, s.deviceCall_portLog _⟩
      | false =>
        obtain ⟨keeps, -, log⟩ := s.deviceCall_twice (.readByte id (s.portNumber f))
          (.readByte id (s.portNumber f + 1))
        exact ⟨keeps.setReg16_ax _, nofun, log⟩
  case outPort =>
    cases f.isByte with
    | true =>
      exact ⟨s.deviceCall_keeps _, congrArg Regs.ax (s.deviceCall_regs _), s.deviceCall_portLog _⟩
    | false =>
      cases wide with
      | true =>
        exact ⟨s.deviceCall_keeps _, congrArg Regs.ax (s.deviceCall_regs _), s.deviceCall_portLog _⟩
      | false =>
        obtain ⟨keeps, regs, log⟩ := s.deviceCall_twice
          (.writeByte id (s.portNumber f) (s.reg8 .al))
          (.writeByte id (s.portNumber f + 1) (s.reg8 .ah))
        exact ⟨keeps, congrArg Regs.ax regs, log⟩

end Sys2Proof.Machine

namespace Sys2Proof.Machine

/-! The step: the interrupt it takes, and what it can answer (60_exceptions.md R502, R560). -/

/-! ## Taking an interrupt -/

/-- Delivery of a line 0..15 does not touch memory (60_exceptions.md R528). -/
theorem State.deliver_mem (s : State) {line : Nat} (h : line ≤ 15) :
    (s.deliver line).mem = s.mem := by
  have acked : (s.ackLine line).mem = s.mem :=
    (s.lineCall_keeps (.ack ⟨line, Nat.lt_succ_of_le h⟩)).mem
  unfold State.deliver
  split
  · exact acked
  · dsimp only
    split <;> exact acked

/-- Settles O8: a line that the arbiter gives is below 16, so its table entry is that of a vector
below 256; delivery leaves memory as it was, and the entry is the shared one of hardware kind. -/
theorem stepTakesInterrupt : Obligations.StepTakesInterrupt := by
  intro s line hw hif hline
  obtain ⟨-, h15, -⟩ := getNextInterrupt_ready hline
  have wf : (s.deliver line).mem.wf = true := by rw [s.deliver_mem h15, hw]
  exact ⟨_, step_of_line hif hline,
    (s.deliver line).vector_entry line .hardware (by omega) wf⟩

/-! ## The outcomes of a step -/

/-- A next state, or one of the two faults that the spec gives a step (R560). -/
def SpecOutcome (o : Out) : Prop :=
  (∃ t, o = .next t) ∨ (∃ op m, o = .fault (.decodeFault op m)) ∨
    ∃ p w, o = .fault (.portFault p w)

theorem exec_specOutcome (i : Instr) (s : State) : SpecOutcome (exec i s) := by
  obtain h | h | ⟨o, r, -, h⟩ := exec_outcome i s
  · exact .inl h
  · exact .inr (.inr h)
  · exact .inr (.inl ⟨o, r, h⟩)

theorem SpecOutcome.stepOf {o : Out} (h : SpecOutcome o) (c : BitVec 32) :
    SpecOutcome (stepOf c o) := by
  obtain ⟨t, rfl⟩ | ⟨op, m, rfl⟩ | ⟨p, w, rfl⟩ := h
  · exact .inl ⟨_, rfl⟩
  · exact .inr (.inl ⟨op, m, rfl⟩)
  · exact .inr (.inr ⟨p, w, rfl⟩)

/-- The prefix bytes (30_encoding.md R102). -/
def prefixBytes : List Byte := [0x26#8, 0x2E#8, 0x36#8, 0x3E#8, 0xF0#8, 0xF2#8, 0xF3#8]

theorem encode_prefix {i : Instr} (h : i.isPrefix = true) : ∃ b ∈ prefixBytes, encode i = [b] := by
  cases i with
  | prefixEs | prefixCs | prefixSs | prefixDs | prefixLock | prefixRepne | prefixRep =>
    exact ⟨_, by decide, rfl⟩
  | _ => cases h

/-- Six bytes always hold an item (R119, R128): an instruction, or a prefix, which is the one byte at
`CS:ip`. -/
theorem State.fetch_cases (s : State) :
    (∃ i n, s.fetch = .ok (i, n) ∧ i.isPrefix = false) ∨
      ∃ i, s.fetch = .ok (i, 1) ∧ i.isPrefix = true ∧ s.codeByte 0 ∈ prefixBytes := by
  obtain ⟨i, rest, hdec, -, hbytes⟩ := everyByteStringDecodes s.window le_rfl
  have hfetch := fetch_of_decode hdec
  cases hp : i.isPrefix with
  | false => exact .inl ⟨i, _, hfetch, hp⟩
  | true =>
    obtain ⟨b, hb, henc⟩ := encode_prefix hp
    rw [henc] at hbytes
    obtain ⟨rfl, rfl⟩ := List.cons.inj hbytes
    exact .inr ⟨i, hfetch, hp, hb⟩

theorem State.codeByte_advance (s : State) (n k : Nat) :
    (s.advance n).codeByte k = s.codeByte (n + k) := by
  simp only [State.codeByte, State.advance, BitVec.ofNat_add, BitVec.add_assoc]
  rfl

/-- Offsets in the code segment are modulo 2^16 (20_memory.md R72, R78). -/
theorem State.codeByte_mod (s : State) (k : Nat) : s.codeByte (k % segmentBytes) = s.codeByte k := by
  have offset : BitVec.ofNat 16 (k % segmentBytes) = BitVec.ofNat 16 k :=
    BitVec.eq_of_toNat_eq (Nat.mod_mod k segmentBytes)
  rw [State.codeByte, offset, State.codeByte]

/-- The walk of `k` items has such an outcome, or has met `k` prefix bytes and nothing else. -/
theorem runItems_outcome (k : Nat) (s : State) :
    SpecOutcome (runItems k s) ∨
      (runItems k s = .fault .decodeHang ∧ ∀ j < k, s.codeByte j ∈ prefixBytes) := by
  induction k generalizing s with
  | zero => exact .inr ⟨rfl, nofun⟩
  | succ k ih =>
    obtain ⟨i, n, hfetch, hp⟩ | ⟨i, hfetch, hp, hfirst⟩ := s.fetch_cases
    · rw [runItems_instr k hfetch hp]
      exact .inl ((exec_specOutcome i _).stepOf _)
    · rw [runItems_prefix k hfetch hp (exec_prefix hp _)]
      refine (ih _).imp_right fun ⟨hhang, hrest⟩ => ⟨hhang, fun j hj => ?_⟩
      cases j with
      | zero => exact hfirst
      | succ j =>
        rw [Nat.add_comm, ← s.codeByte_advance]
        exact hrest j (Nat.lt_of_succ_lt_succ hj)

/-- Settles O9: an interrupt is taken with a next state; otherwise by the outcome of the walk,
which hangs only if its 2^16 items were the prefix bytes of the whole code segment. -/
theorem stepOutcomes : Obligations.StepOutcomes := by
  intro s
  by_cases h : NoInterrupt s
  case neg =>
    obtain ⟨hif, hline⟩ := not_or.1 h
    obtain ⟨line, hline⟩ := Option.ne_none_iff_exists'.1 hline
    exact .inl ⟨_, step_of_line (by simpa using hif) hline⟩
  case pos =>
    rw [step_of_noInterrupt h]
    obtain (hnext | hdecode | hport) | ⟨hhang, hbytes⟩ := runItems_outcome segmentBytes s.noPrefix
    · exact .inl hnext
    · exact .inr (.inl hdecode)
    · exact .inr (.inr (.inl hport))
    · refine .inr (.inr (.inr ⟨hhang, fun k => ?_⟩))
      rw [← s.codeByte_mod k]
      exact hbytes _ (Nat.mod_lt k (by decide))

end Sys2Proof.Machine
